-- ==== Sys2Proof/Word.lean ====
section
/-! DEFINITION. The word types of MEFS: a byte is 8 bits, a word is 32 bits (00_scope R7). -/

namespace Sys2Proof

/-- One byte (00_scope R7). -/
abbrev Byte := BitVec 8

/-- One 32-bit word: a command word, a register, an engine address or the bits of one binary32
lane (00_scope R7, R9). -/
abbrev Word := BitVec 32

end Sys2Proof
end

