-- ==== Sys2Proof/Machine/Float.lean ====
section
/-! DEFINITION. Binary32 arithmetic (00_scope R9 to R16). A finite value is a sign and a magnitude counted in
units of 2^-149, the least subnormal, so every result is an exact ratio of integers that is rounded once. -/

namespace Sys2Proof.Machine

/-- What a binary32 word stands for (00_scope R9): a finite value is (-1)^neg × mag × 2^-149. -/
inductive Float32Value where
  | nan
  | inf (neg : Bool)
  | fin (neg : Bool) (mag : Nat)
  deriving DecidableEq, Repr

/-- The pattern of +∞: biased exponent 255, fraction 0 (00_scope R9). -/
def infPattern : Nat := 0x7F800000

/-- The magnitude, in units of 2^-149, of the finite binary32 whose bits 30:0 are `p` (00_scope R9): the fraction
when the exponent is 0, else (2^23 + fraction) × 2^(exponent - 1). -/
def magOf (p : Nat) : Nat :=
  if p / 2 ^ 23 = 0 then p else (2 ^ 23 + p % 2 ^ 23) * 2 ^ (p / 2 ^ 23 - 1)

/-- The value of a word (00_scope R9). -/
def float32 (x : Word) : Float32Value :=
  let p := x.toNat % 2 ^ 31
  if infPattern < p then .nan else if p = infPattern then .inf x.msb else .fin x.msb (magOf p)

/-- The word with sign `neg` and bits 30:0 equal to `p` (00_scope R9). -/
def packed (neg : Bool) (p : Nat) : Word := BitVec.ofNat 32 (if neg then 2 ^ 31 + p else p)

/-- `n / d` rounded to an integer, to nearest with ties to even (00_scope R10). -/
def roundEven (n d : Nat) : Nat :=
  let q := n / d
  let r := n % d
  if 2 * r < d then q else if d < 2 * r then q + 1 else if q % 2 = 0 then q else q + 1

/-- Bits 30:0 of the binary32 nearest to n / d units of 2^-149, ties to even (00_scope R10): `k` is the exponent
step at which 24 significant bits remain (0 in the subnormal range and the first normal binade), and a magnitude
that rounds past the largest finite value is an infinity. -/
def roundedPattern (n d : Nat) : Nat :=
  let k := Nat.log2 (n / d) - 23
  min (k * 2 ^ 23 + roundEven n (d * 2 ^ k)) infPattern

/-- n / d units of 2^-149 with sign `neg`, rounded (00_scope R10). -/
def rounded (neg : Bool) (n d : Nat) : Word := packed neg (roundedPattern n d)

/-- The integer with a given sign and magnitude. -/
def signed (neg : Bool) (mag : Nat) : Int := if neg then -(mag : Int) else mag

/-- An exact sum of z / d units of 2^-149, rounded. A zero sum is -0 if both operands were negative zeros, else
+0; any other result has the sum's sign (00_scope R12). -/
def roundedSum (bothNegative : Bool) (z : Int) (d : Nat) : Word :=
  if z = 0 then packed bothNegative 0 else rounded (decide (z < 0)) z.natAbs d

/-- The quiet NaN with the sign and the low 22 fraction bits of `draw` (00_scope R16). -/
def quietNaN (draw : Word) : Word := (draw &&& 0x803FFFFF) ||| 0x7FC00000

/-- A word is a NaN (00_scope R9). -/
def isNaN (x : Word) : Bool := decide (infPattern < x.toNat % 2 ^ 31)

/-- A word is a quiet NaN: bits 30:22 all ones (00_scope R16). -/
def isQuietNaN (x : Word) : Bool := x.extractLsb' 22 9 == 0x1FF

/-- The exact product of two values: its finite magnitude is in units of 2^-298. NaN for a NaN operand and for
∞ × 0 (00_scope R11). -/
def exactProduct (a b : Word) : Float32Value :=
  match float32 a, float32 b with
  | .nan, _ => .nan
  | _, .nan => .nan
  | .inf s, .inf t => .inf (s ^^ t)
  | .inf s, .fin t n => if n = 0 then .nan else .inf (s ^^ t)
  | .fin s m, .inf t => if m = 0 then .nan else .inf (s ^^ t)
  | .fin s m, .fin t n => .fin (s ^^ t) (m * n)

/-- fmul (00_scope R11). `draw` is this operation's NAN_RESULT. -/
def fmul (draw a b : Word) : Word :=
  match exactProduct a b with
  | .nan => quietNaN draw
  | .inf s => packed s infPattern
  | .fin s m => rounded s m (2 ^ 149)

/-- fadd (00_scope R12). -/
def fadd (draw a b : Word) : Word :=
  match float32 a, float32 b with
  | .nan, _ => quietNaN draw
  | _, .nan => quietNaN draw
  | .inf s, .inf t => if s = t then packed s infPattern else quietNaN draw
  | .inf s, .fin _ _ => packed s infPattern
  | .fin _ _, .inf t => packed t infPattern
  | .fin s m, .fin t n => roundedSum (s && t) (signed s m + signed t n) 1

/-- fneg: inverts bit 31 and nothing else (00_scope R15). -/
def fneg (a : Word) : Word := a ^^^ 0x80000000

/-- fsub(a, b) is fadd(a, fneg(b)) (00_scope R12). -/
def fsub (draw a b : Word) : Word := fadd draw a (fneg b)

/-- ffma: a × b + c computed exactly and rounded once (00_scope R13). -/
def ffma (draw a b c : Word) : Word :=
  match exactProduct a b, float32 c with
  | .nan, _ => quietNaN draw
  | _, .nan => quietNaN draw
  | .inf s, .inf t => if s = t then packed s infPattern else quietNaN draw
  | .inf s, .fin _ _ => packed s infPattern
  | .fin _ _, .inf t => packed t infPattern
  | .fin s m, .fin t n => roundedSum (s && t) (signed s m + signed t (n * 2 ^ 149)) (2 ^ 149)

/-- fdiv (00_scope R14). An infinity over a finite value is an infinity: R14's "the IEEE 754 division" (DEDUCED, entry 14). -/
def fdiv (draw a b : Word) : Word :=
  match float32 a, float32 b with
  | .nan, _ => quietNaN draw
  | _, .nan => quietNaN draw
  | .inf _, .inf _ => quietNaN draw
  | .inf s, .fin t _ => packed (s ^^ t) infPattern
  | .fin s _, .inf t => packed (s ^^ t) 0
  | .fin s m, .fin t n =>
    if n = 0 then (if m = 0 then quietNaN draw else packed (s ^^ t) infPattern)
    else rounded (s ^^ t) (m * 2 ^ 149) n

end Sys2Proof.Machine
end

