-- ==== Sys2Proof/Syntax.lean ====
section
/-! DEFINITION. The commands of MEFS (00_scope R4, 30_encoding R102), one constructor per row of the opcode
table, and the raw 32-byte command as its eight words (30_encoding R100, R101). -/

namespace Sys2Proof

/-- The sixteen commands. `dst`, `a`, `b`, `x`, `vectors` are absolute engine byte addresses (30_encoding R103),
`imm` the bits of a binary32 scalar and `n` an unsigned count (30_encoding R104). -/
inductive Instr where
  /-- End the run (40_control R136). -/
  | halt
  /-- Do nothing (40_control R138). -/
  | nop
  /-- 3×3 matrix product (41_multiply R150). -/
  | mul33 (dst a b : Word)
  /-- 4×4 matrix product (41_multiply R152). -/
  | mul44 (dst a b : Word)
  /-- 4×4 matrix times 4-vector (41_multiply R154). -/
  | mul44v (dst a x : Word)
  /-- 3×3 transpose (42_transpose R170). -/
  | trn33 (dst a : Word)
  /-- 4×4 transpose (42_transpose R172). -/
  | trn44 (dst a : Word)
  /-- 4×4 inverse by 2×2 blocks (43_inverse R190). -/
  | inv44 (dst a : Word)
  /-- Dot product of two 4-vectors (44_dot R200). -/
  | dot (dst a b : Word)
  /-- Batched dot product (44_dot R202). -/
  | dotb (dst a vectors n : Word)
  /-- 3×3 element-wise sum (45_add R210). -/
  | add33 (dst a b : Word)
  /-- 4×4 element-wise sum (45_add R212). -/
  | add44 (dst a b : Word)
  /-- 4-vector element-wise sum (45_add R214). -/
  | addv4 (dst a b : Word)
  /-- Scale a 3×3 matrix (46_scalar_multiply R220). -/
  | smul33 (dst a imm : Word)
  /-- Scale a 4×4 matrix (46_scalar_multiply R222). -/
  | smul44 (dst a imm : Word)
  /-- Scale a 4-vector (46_scalar_multiply R224). -/
  | smulv4 (dst a imm : Word)
  deriving DecidableEq, Repr

/-- The eight words W0 to W7 of a command (30_encoding R100). -/
structure RawCommand where
  w0 : Word
  w1 : Word
  w2 : Word
  w3 : Word
  w4 : Word
  w5 : Word
  w6 : Word
  w7 : Word
  deriving DecidableEq, Repr

/-- Why the decoder rejects a command (30_encoding R106, R107). -/
inductive DecodeError where
  /-- OPC is not one of the sixteen assigned values: fault 0x03. -/
  | illegalOpcode
  /-- RSV0, RSV5 to RSV7 or a must-be-zero field is not 0: fault 0x04. -/
  | reservedNonzero
  deriving DecidableEq, Repr

/-- Why a list of bytes is not a command. -/
inductive BytesError where
  /-- Not exactly 32 bytes (30_encoding R100). -/
  | wrongLength
  /-- 32 bytes that the decoder rejects. -/
  | rejected (e : DecodeError)
  deriving DecidableEq, Repr

end Sys2Proof
end

