-- ==== Sys2Proof/WellFormed.lean ====
section
/-! DEFINITION. Well-formedness, written from the spec's tables on their own, not through the decoder or the
machine: of a raw command (30_encoding R102, R106, R107) and of a command's addresses (20_memory R72, R75, R76). -/

namespace Sys2Proof

/-- Which of W1 (DST), W2 (SRCA), W3 (SRCB or IMM) and W4 (N) an assigned opcode uses; `none` for an
unassigned opcode (30_encoding R102, R105). -/
def fieldUse (opc : Nat) : Option (Bool × Bool × Bool × Bool) :=
  if opc ∈ [0x00, 0x01] then some (false, false, false, false)
  else if opc ∈ [0x20, 0x21, 0x30] then some (true, true, false, false)
  else if opc ∈ [0x10, 0x11, 0x12, 0x40, 0x50, 0x51, 0x52, 0x60, 0x61, 0x62] then some (true, true, true, false)
  else if opc = 0x41 then some (true, true, true, true)
  else none

/-- A raw command that the decoder must accept: OPC assigned, every reserved field 0, every field the opcode
does not use 0 (30_encoding R101, R102, R106). -/
def RawCommand.wellFormed (c : RawCommand) : Bool :=
  match fieldUse (c.w0.toNat % 256) with
  | none => false
  | some (useDst, useA, useB, useN) =>
    c.w0.toNat / 256 == 0 && c.w5 == 0 && c.w6 == 0 && c.w7 == 0
      && (useDst || c.w1 == 0) && (useA || c.w2 == 0) && (useB || c.w3 == 0) && (useN || c.w4 == 0)

/-- `addr` is a multiple of `align` and the `len` bytes from it end inside a 2^32-byte space: the most any
platform can accept (20_memory R75, R76; 00_scope R6: MEM_SIZE ≤ 2^32). -/
def placed (addr : Word) (align len : Nat) : Bool :=
  addr.toNat % align == 0 && decide (addr.toNat + len ≤ 2 ^ 32)

/-- Every address field of the command is aligned for its operand type and its footprint fits some platform's data
space, by the table of 20_memory R72. An ill-formed command decodes, but faults with 0x05 or 0x06 on every
platform (40_control R132). -/
def Instr.wellFormed : Instr → Bool
  | .halt | .nop => true
  | .mul33 d a b | .add33 d a b => placed a 32 40 && placed b 32 40 && placed d 32 40
  | .mul44 d a b | .add44 d a b => placed a 16 64 && placed b 16 64 && placed d 16 64
  | .mul44v d a x => placed a 16 64 && placed x 16 16 && placed d 16 16
  | .trn33 d a | .smul33 d a _ => placed a 32 40 && placed d 32 40
  | .trn44 d a | .inv44 d a | .smul44 d a _ => placed a 16 64 && placed d 16 64
  | .dot d a b => placed a 16 16 && placed b 16 16 && placed d 4 4
  | .dotb d a v n => placed a 16 16 && placed v 16 (16 * n.toNat) && placed d 4 (4 * n.toNat)
  | .addv4 d a b => placed a 16 16 && placed b 16 16 && placed d 16 16
  | .smulv4 d a _ => placed a 16 16 && placed d 16 16

end Sys2Proof
end

