-- ==== Sys2Proof/Decode.lean ====
section
/-! DEFINITION. Bytes to words, the decoder (30_encoding R106), and the encoder (30_encoding R101, R102, R105). -/

namespace Sys2Proof

/-! Byte order: little-endian (20_memory R71). -/

/-- The word whose bytes are b0 (least significant) to b3 (20_memory R71). -/
def wordOfBytes (b0 b1 b2 b3 : Byte) : Word := b3 ++ b2 ++ b1 ++ b0

/-- Byte `k` of a word, k = 0 the least significant (20_memory R71). -/
def byteOfWord (w : Word) (k : Nat) : Byte := w.extractLsb' (8 * k) 8

/-- The four bytes of a word in address order (20_memory R71). -/
def wordBytes (w : Word) : List Byte := [byteOfWord w 0, byteOfWord w 1, byteOfWord w 2, byteOfWord w 3]

/-- The words of a list of bytes; `none` if its length is not a multiple of 4. -/
def wordsOfBytes : List Byte → Option (List Word)
  | [] => some []
  | b0 :: b1 :: b2 :: b3 :: rest => (wordsOfBytes rest).map (wordOfBytes b0 b1 b2 b3 :: ·)
  | _ => none

/-- W0 to W7 in order (30_encoding R100). -/
def RawCommand.words (c : RawCommand) : List Word := [c.w0, c.w1, c.w2, c.w3, c.w4, c.w5, c.w6, c.w7]

/-- The eight words of a raw command; `none` unless there are exactly eight. -/
def RawCommand.ofWords : List Word → Option RawCommand
  | [w0, w1, w2, w3, w4, w5, w6, w7] => some ⟨w0, w1, w2, w3, w4, w5, w6, w7⟩
  | _ => none

/-- The 32 bytes of a raw command, Wk at byte offset 4k (30_encoding R100). -/
def RawCommand.toBytes (c : RawCommand) : List Byte := c.words.flatMap wordBytes

/-! The decoder. -/

/-- The sixteen assigned opcodes (30_encoding R105). -/
inductive Opcode where
  | halt | nop | mul33 | mul44 | mul44v | trn33 | trn44 | inv44
  | dot | dotb | add33 | add44 | addv4 | smul33 | smul44 | smulv4
  deriving DecidableEq, Repr

/-- The OPC value of each opcode (30_encoding R105). -/
def Opcode.byte : Opcode → Byte
  | .halt => 0x00 | .nop => 0x01
  | .mul33 => 0x10 | .mul44 => 0x11 | .mul44v => 0x12
  | .trn33 => 0x20 | .trn44 => 0x21
  | .inv44 => 0x30
  | .dot => 0x40 | .dotb => 0x41
  | .add33 => 0x50 | .add44 => 0x51 | .addv4 => 0x52
  | .smul33 => 0x60 | .smul44 => 0x61 | .smulv4 => 0x62

/-- Every opcode, in the table's order (30_encoding R105). -/
def Opcode.all : List Opcode :=
  [.halt, .nop, .mul33, .mul44, .mul44v, .trn33, .trn44, .inv44,
   .dot, .dotb, .add33, .add44, .addv4, .smul33, .smul44, .smulv4]

/-- The opcode with a given OPC value, if it is assigned (30_encoding R106). -/
def Opcode.ofByte (b : Byte) : Option Opcode := Opcode.all.find? fun op => op.byte == b

/-- DST and SRCA are used by every command but HALT and NOP (30_encoding R102). -/
def Opcode.usesOperands : Opcode → Bool
  | .halt | .nop => false
  | .mul33 | .mul44 | .mul44v | .trn33 | .trn44 | .inv44 | .dot | .dotb
  | .add33 | .add44 | .addv4 | .smul33 | .smul44 | .smulv4 => true

/-- W3 is used, as SRCB or as IMM (30_encoding R102). -/
def Opcode.usesW3 : Opcode → Bool
  | .halt | .nop | .trn33 | .trn44 | .inv44 => false
  | .mul33 | .mul44 | .mul44v | .dot | .dotb | .add33 | .add44 | .addv4
  | .smul33 | .smul44 | .smulv4 => true

/-- W4 is used, as N, by DOTB alone (30_encoding R102). -/
def Opcode.usesN (op : Opcode) : Bool := op == .dotb

/-- RSV0, RSV5, RSV6 and RSV7 are 0 (30_encoding R101, R106). -/
def RawCommand.reservedClear (c : RawCommand) : Bool :=
  c.w0.extractLsb' 8 24 == 0 && c.w5 == 0 && c.w6 == 0 && c.w7 == 0

/-- Every field that is MBZ for `op` is 0 (30_encoding R102, R106). -/
def RawCommand.mbzClear (c : RawCommand) (op : Opcode) : Bool :=
  (op.usesOperands || (c.w1 == 0 && c.w2 == 0)) && (op.usesW3 || c.w3 == 0) && (op.usesN || c.w4 == 0)

/-- The command with opcode `op` and the fields of `c` it uses (30_encoding R101, R102). -/
def RawCommand.toInstr (c : RawCommand) : Opcode → Instr
  | .halt => .halt
  | .nop => .nop
  | .mul33 => .mul33 c.w1 c.w2 c.w3
  | .mul44 => .mul44 c.w1 c.w2 c.w3
  | .mul44v => .mul44v c.w1 c.w2 c.w3
  | .trn33 => .trn33 c.w1 c.w2
  | .trn44 => .trn44 c.w1 c.w2
  | .inv44 => .inv44 c.w1 c.w2
  | .dot => .dot c.w1 c.w2 c.w3
  | .dotb => .dotb c.w1 c.w2 c.w3 c.w4
  | .add33 => .add33 c.w1 c.w2 c.w3
  | .add44 => .add44 c.w1 c.w2 c.w3
  | .addv4 => .addv4 c.w1 c.w2 c.w3
  | .smul33 => .smul33 c.w1 c.w2 c.w3
  | .smul44 => .smul44 c.w1 c.w2 c.w3
  | .smulv4 => .smulv4 c.w1 c.w2 c.w3

/-- The decoder, total, with the checks in the order of 30_encoding R106: opcode, reserved fields, MBZ
fields. -/
def decode (c : RawCommand) : Except DecodeError Instr :=
  match Opcode.ofByte (c.w0.extractLsb' 0 8) with
  | none => .error .illegalOpcode
  | some op =>
    if c.reservedClear then
      if c.mbzClear op then .ok (c.toInstr op) else .error .reservedNonzero
    else .error .reservedNonzero

/-- The decoder on bytes: exactly 32 of them, little-endian words (30_encoding R100). -/
def decodeBytes (bs : List Byte) : Except BytesError Instr :=
  match (wordsOfBytes bs).bind RawCommand.ofWords with
  | none => .error .wrongLength
  | some c =>
    match decode c with
    | .ok i => .ok i
    | .error e => .error (.rejected e)

/-! The encoder, from the same tables. -/

/-- A command's opcode. -/
def Instr.opcode : Instr → Opcode
  | .halt => .halt
  | .nop => .nop
  | .mul33 .. => .mul33
  | .mul44 .. => .mul44
  | .mul44v .. => .mul44v
  | .trn33 .. => .trn33
  | .trn44 .. => .trn44
  | .inv44 .. => .inv44
  | .dot .. => .dot
  | .dotb .. => .dotb
  | .add33 .. => .add33
  | .add44 .. => .add44
  | .addv4 .. => .addv4
  | .smul33 .. => .smul33
  | .smul44 .. => .smul44
  | .smulv4 .. => .smulv4

/-- A command's W1, W2, W3 and W4, 0 where the field is MBZ (30_encoding R102). -/
def Instr.fields : Instr → Word × Word × Word × Word
  | .halt | .nop => (0, 0, 0, 0)
  | .trn33 d a | .trn44 d a | .inv44 d a => (d, a, 0, 0)
  | .mul33 d a b | .mul44 d a b | .mul44v d a b | .dot d a b
  | .add33 d a b | .add44 d a b | .addv4 d a b
  | .smul33 d a b | .smul44 d a b | .smulv4 d a b => (d, a, b, 0)
  | .dotb d a v n => (d, a, v, n)

/-- The eight words of a command (30_encoding R101, R105). -/
def encode (i : Instr) : RawCommand :=
  { w0 := i.opcode.byte.zeroExtend 32, w1 := i.fields.1, w2 := i.fields.2.1, w3 := i.fields.2.2.1,
    w4 := i.fields.2.2.2, w5 := 0, w6 := 0, w7 := 0 }

/-- The 32 bytes of a command (30_encoding R100, R110). -/
def encodeBytes (i : Instr) : List Byte := (encode i).toBytes

/-! The host's reading of an opcode-table row. -/

/-- The 32 bytes of a command whose low `nbits` bits are `w` and whose other bits are 0, bit 0 the least
significant bit of W0. -/
def tableBytes (nbits w : Nat) : List Byte :=
  (List.range 32).map fun k => BitVec.ofNat 8 ((w % 2 ^ nbits) / 2 ^ (8 * k))

/-- What the decoder reads from such a command. -/
def decodeTableWord (nbits w : Nat) : Option Instr :=
  match decodeBytes (tableBytes nbits w) with
  | .ok i => some i
  | .error _ => none

end Sys2Proof
end

