-- ==== Sys2Proof/Config.lean ====
section
/-! DEFINITION. What a platform fixes (MEM_SIZE, MMIO_BASE, BUS_ERROR: 00_scope R6), as plain data, and the
free values the spec calls draws (00_scope R8), as constants without a body. -/

namespace Sys2Proof

/-- The direction of an access, the third argument of BUS_ERROR (00_scope R6). -/
inductive Access where
  | read
  | write
  deriving DecidableEq, Repr

/-- One access the platform's memory answers with an error (20_memory R89): the point
(address, size, read or write) at which the predicate BUS_ERROR is true. -/
structure BusError where
  addr : Nat
  size : Nat
  access : Access
  deriving DecidableEq, Repr

/-- The OPEN parameters of 00_scope R6. `busErrors` lists the points where BUS_ERROR is true; addresses
and access sizes are bounded, so every such predicate is a list (entry 2). -/
structure Platform where
  /-- MEM_SIZE: bytes of engine-addressable data memory. -/
  memSize : Nat
  /-- MMIO_BASE: host address of the 256-byte register block. -/
  mmioBase : Nat
  /-- BUS_ERROR, by extension. -/
  busErrors : List BusError
  deriving DecidableEq, Repr

/-- The bounds 00_scope R6 sets: 32 ≤ MEM_SIZE ≤ 2^32, a multiple of 32; MMIO_BASE a multiple of 256. -/
abbrev Platform.wf (p : Platform) : Prop :=
  32 ≤ p.memSize ∧ p.memSize ≤ 2 ^ 32 ∧ p.memSize % 32 = 0 ∧ p.mmioBase % 256 = 0

/-- DESIGN CHOICE (entry 2): the platform State.reset names. MEM_SIZE and BUS_ERROR are those of the spec's own
programs (95_test_vectors); no statement rests on them. -/
def Platform.standard : Platform := { memSize := 0x10000, mmioBase := 0, busErrors := [] }

/-- The host address of word `w` of the register block (10_state R43). -/
def Platform.regAddr (p : Platform) (w : Fin 64) : Nat := p.mmioBase + 4 * w.val

namespace Config

/-- NAN_RESULT (00_scope R6, R16): the sign and payload of the NaN that operation `op` of drawing event
`event` returns, when its result is NaN; the other bits of this word are not used (entry 1). -/
opaque nanResult (event op : Nat) : Word

/-- PAD_RESULT (00_scope R6, R22): the padding lane stored by drawing event `event`. -/
opaque padResult (event : Nat) : Word

/-- The byte at offset `k` of an output footprint that a write bus error or a reset left undetermined
(20_memory R89, 70_reset R270). -/
opaque tornByte (event k : Nat) : Byte

/-- The byte a host read returns, at offset `k` of the read, where the read races with the run
(20_memory R83). -/
opaque racedByte (event k : Nat) : Byte

/-- The bits the hardware finds in byte `k` of the command at CMD_PTR where nothing has written that byte (20_memory R80:
"the hardware reads whatever bits are there"; entry 10). -/
opaque unwrittenByte (event k : Nat) : Byte

/-- What register `k` holds once power has been removed (60_exceptions R255; entry 20). -/
opaque lostRegister (event k : Nat) : Word

/-- A choice between two behaviours the spec leaves open (10_state R47; entry 11). -/
opaque choice (event : Nat) : Bool

end Config

end Sys2Proof
end

