-- ==== Sys2Proof/Machine/State.lean ====
section
/-! DEFINITION. The state of one MEFS (10_state R40) as plain data, the reasons a step stops, and the state after
reset (70_reset R270). -/

namespace Sys2Proof.Machine

/-- The data space (20_memory R70): the bytes something has written, by rising address. An address that is not listed has
never been written and has no value (20_memory R80; entry 8). -/
abbrev Memory := List Host.Cell

/-- The canonical form: addresses strictly rise. No entry can equal an unlisted address's value, since an unlisted
address has none. -/
abbrev Memory.wf (m : Memory) : Prop := m.Pairwise fun x y => x.1 < y.1

/-- `len` consecutive bytes from `base`. -/
structure Region where
  base : Nat
  len : Nat
  deriving DecidableEq, Repr

/-- What the host's last read returned. -/
inductive HostRead where
  /-- A register read (10_state R43). -/
  | word (w : Word)
  /-- A data-space read, lowest address first (20_memory R71). -/
  | bytes (bs : List Byte)
  deriving DecidableEq, Repr

/-- One move of one agent (00_scope R2; entry 4). -/
inductive Move where
  /-- The engine has the turn: one command if BUSY = 1 (40_control R130). -/
  | engine
  /-- The reset input becomes asserted, and stays so (70_reset R270; entry 19). -/
  | assertReset
  /-- The reset input is released (70_reset R270; entry 19). -/
  | releaseReset
  /-- Power is removed from the block (60_exceptions R255; entry 20). -/
  | losePower
  /-- A 32-bit host read of word `w` of the 256-byte register block, at host address `Platform.regAddr w`. The host has no other
  access to the block: none of another width, none that is not aligned (10_state R43, R51; 70_reset R283). -/
  | readReg (w : Fin 64)
  /-- A 32-bit host write of word `w` of the register block, the only form of write to it (10_state R43, R51; 70_reset R283). -/
  | writeReg (w : Fin 64) (value : Word)
  /-- A host read of `len` bytes of the data space (20_memory R70). -/
  | readMem (addr len : Nat)
  /-- A host write of bytes of the data space (20_memory R70). -/
  | writeMem (addr : Nat) (bytes : List Byte)
  deriving DecidableEq, Repr

/-- Whether the block can act (70_reset R270, 60_exceptions R255). -/
inductive Phase where
  /-- Powered and out of reset. -/
  | operating
  /-- The reset input is held asserted: every register is at its reset value (70_reset R270; entry 19). -/
  | inReset
  /-- Power was removed and no hardware reset has come since: the register state is lost (60_exceptions R255; entry 20). -/
  | unpowered
  deriving DecidableEq, Repr

/-- The fault codes of 60_exceptions R231. A fault of this kind is a NEXT state (60_exceptions R230). -/
inductive FaultCode where
  | fetchMisaligned
  | fetchRange
  | illegalOpcode
  | reservedNonzero
  | operandMisaligned
  | operandRange
  | busError
  deriving DecidableEq, Repr

/-- Why the model stops where the hardware would go on. -/
inductive Fault where
  /-- Raised by a fetch, an operand read or a host read of the byte (for an operand, of the lane) at `addr`, which
  nothing has ever written (20_memory R80: "This fault is the model's own and not the hardware's"). Safe. -/
  | uninitialised (addr : Nat)
  deriving DecidableEq, Repr

/-- Why the model gives a move no meaning. -/
inductive Refusal where
  /-- Raised by exec's arm of a command that has no meaning yet. Safe. -/
  | notModelled (mnemonic : String)
  /-- Raised by a host write, during a run, of a byte the run has read or written, or by the fetch or the command that comes to
  read or write a byte the host wrote earlier in the run: 20_memory R83 and 70_reset R283 give the host no such move
  (entry 6). Safe. -/
  | hostDutyBroken
  /-- Raised by a host data access past MEM_SIZE, which belongs to the platform (20_memory R79; entry 15). Safe. -/
  | beyondDataSpace
  deriving DecidableEq, Repr

/-- The state. The fields `mem` to `cmdCount` are the spec's own (10_state R40), the others the model's. -/
structure State where
  /-- Data memory (20_memory R70). -/
  mem : Memory
  /-- CTRL.IRQ_EN (10_state R45). -/
  irqEn : Bool
  /-- STATUS.BUSY (10_state R46). -/
  busy : Bool
  /-- STATUS.DONE (10_state R46). -/
  done : Bool
  /-- STATUS.ERR (10_state R46). -/
  err : Bool
  /-- STATUS.ERR_CODE (10_state R46). -/
  errCode : BitVec 8
  /-- CMD_PTR (10_state R47). -/
  cmdPtr : Word
  /-- ERR_ADDR (10_state R48). -/
  errAddr : Word
  /-- CMD_COUNT (10_state R49). -/
  cmdCount : Word
  /-- The OPEN parameters (00_scope R6); no step changes them (entry 2). -/
  platform : Platform
  /-- How many drawing events have happened: the index of the next free values (entry 1). -/
  draws : Nat
  /-- The moves still to come, next first; with none left the engine has every turn (entry 4). -/
  schedule : List Move
  /-- Whether the block operates, is held in reset or has lost power (70_reset R270, 60_exceptions R255). -/
  phase : Phase
  /-- What the host's last read returned; `none` before its first read (entry 5). -/
  hostRead : Option HostRead
  /-- Regions the commands of the current run have read or written (20_memory R83; entry 6). -/
  runTouched : List Region
  /-- Regions the engine has written since the host last read STATUS showing DONE or ERR: their bytes are not yet visible to
  the host for certain (20_memory R83, R84; entry 9). -/
  unseenWrote : List Region
  /-- Bytes the host has written during the current run (20_memory R83; entry 6). -/
  hostWrote : List Nat
  deriving DecidableEq, Repr

/-- The machine right after reset on platform `p`: the values of 70_reset R270, memory with nothing
written (20_memory R80). -/
def State.resetOn (p : Platform) : State :=
  { mem := [], irqEn := false, busy := false, done := false, err := false, errCode := 0, cmdPtr := 0,
    errAddr := 0, cmdCount := 0, platform := p, draws := 0, schedule := [], phase := .operating,
    hostRead := none, runTouched := [], unseenWrote := [], hostWrote := [] }

/-- The machine right after reset, on the platform of entry 2 (DESIGN CHOICE). -/
def State.reset : State := State.resetOn Platform.standard

end Sys2Proof.Machine
end

