-- ==== Sys2Proof/Machine/Ops.lean ====
section
/-! DEFINITION. The named operations over memory and registers: bytes, words and lanes of memory (20_memory R71,
R73, R74), the end of a command (40_control R131), TAKING A FAULT (60_exceptions R230) and the START that
recovers from one (10_state R52, 60_exceptions R235), reset of the registers (70_reset R270). -/

namespace Sys2Proof.Machine

/-! ### Memory -/

/-- The byte at an address; `none` if nothing has written it (20_memory R80). -/
def Memory.read : Memory → Nat → Option Byte
  | [], _ => none
  | (k, v) :: rest, a => if k = a then some v else Memory.read rest a

/-- Write one byte, keeping the addresses in order. -/
def Memory.write : Memory → Nat → Byte → Memory
  | [], a, v => [(a, v)]
  | (k, w) :: rest, a, v =>
    if a < k then (a, v) :: (k, w) :: rest
    else if a = k then (a, v) :: rest
    else (k, w) :: Memory.write rest a v

/-- Write bytes at consecutive addresses, the first at `a`. -/
def Memory.writeBytes (m : Memory) (a : Nat) : List Byte → Memory
  | [] => m
  | b :: bs => Memory.writeBytes (m.write a b) (a + 1) bs

/-- MemRead(a, 4): little-endian (20_memory R71). -/
def Memory.readWord (m : Memory) (a : Nat) : Option Word :=
  match m.read a, m.read (a + 1), m.read (a + 2), m.read (a + 3) with
  | some b0, some b1, some b2, some b3 => some (wordOfBytes b0 b1 b2 b3)
  | _, _, _, _ => none

/-- MemWrite(a, 4, w): little-endian (20_memory R71). -/
def Memory.writeWord (m : Memory) (a : Nat) (w : Word) : Memory := m.writeBytes a (wordBytes w)

/-- The lanes of an operand, lane k at byte offset 4k (20_memory R73), the internal values of one command
(10_state R58). -/
abbrev Lanes := List Word

/-- Lane `k` of staged lanes (00_scope R20). -/
def lane (v : Lanes) (k : Nat) : Word := v.getD k 0

/-- `n` consecutive words from `a` (20_memory R73), or the address of the first that holds an unwritten byte
(20_memory R80). -/
def Memory.loadLanes (m : Memory) (a : Nat) : Nat → Except Nat Lanes
  | 0 => .ok []
  | n + 1 =>
    match m.readWord a with
    | none => .error a
    | some w =>
      match Memory.loadLanes m (a + 4) n with
      | .error x => .error x
      | .ok ws => .ok (w :: ws)

/-- Write consecutive words from `a` (20_memory R74). -/
def Memory.storeLanes (m : Memory) (a : Nat) : Lanes → Memory
  | [] => m
  | w :: ws => Memory.storeLanes (m.writeWord a w) (a + 4) ws

/-- An address lies in a region. -/
def Region.contains (r : Region) (a : Nat) : Bool := decide (r.base ≤ a) && decide (a < r.base + r.len)

/-! ### The platform -/

/-- BUS_ERROR(addr, size, access) (00_scope R6, 20_memory R89). -/
def busErrorAt (p : Platform) (addr size : Nat) (access : Access) : Bool :=
  p.busErrors.any fun e => e.addr == addr && (e.size == size && e.access == access)

/-- Some 4-byte lane access of the `n` lanes from `a` meets a bus error (20_memory R73, R74, R89; DEDUCED, entry 3). -/
def lanesError (p : Platform) (a n : Nat) (access : Access) : Bool :=
  (List.range n).any fun k => busErrorAt p (a + 4 * k) 4 access

/-! ### Free values -/

/-- The NAN_RESULT draws of the current drawing event, by operation (00_scope R16). -/
def State.nans (s : State) : Nat → Word := Config.nanResult s.draws

/-- The next drawing event: later draws are new ones (entry 1). -/
def State.tick (s : State) : State := { s with draws := s.draws + 1 }

/-- Every byte of a region becomes a draw: old, new or neither (20_memory R89, 70_reset R270). -/
def State.tear (s : State) (r : Region) : State :=
  { s with mem := s.mem.writeBytes r.base ((List.range r.len).map (Config.tornByte s.draws)) }

/-! ### The end of a command, and faults -/

/-- Completion of a command that raised no fault (40_control R131). -/
def State.complete (s : State) : State :=
  { s with cmdCount := s.cmdCount + 1, cmdPtr := s.cmdPtr + 32 }

/-- What HALT does on completion (40_control R131, R136). -/
def State.halt (s : State) : State := { s with busy := false, done := true }

/-- The value ERR_CODE takes (60_exceptions R231). -/
def FaultCode.byte : FaultCode → BitVec 8
  | .fetchMisaligned => 0x01
  | .fetchRange => 0x02
  | .illegalOpcode => 0x03
  | .reservedNonzero => 0x04
  | .operandMisaligned => 0x05
  | .operandRange => 0x06
  | .busError => 0x07

/-- raise Fault(code, addr): fault entry, the one shared operation (60_exceptions R230; DONE as it was: DEDUCED, entry 18). -/
def State.raiseFault (s : State) (code : FaultCode) (addr : Word) : State :=
  { s with errCode := code.byte, errAddr := addr, err := true, busy := false }

/-- An accepted START (10_state R52), the way back from a fault (60_exceptions R235). A new run begins, so what the
last run touched is forgotten; what it wrote is not visible to the host by a START (20_memory R83, R84). -/
def State.start (s : State) : State :=
  { s with done := false, err := false, errCode := 0, errAddr := 0, cmdCount := 0, busy := true,
           runTouched := [], hostWrote := [] }

/-- Every register at its reset value, memory unchanged (70_reset R270). No DONE or ERR ever shows for the run a reset abandons, so
20_memory R83 does not say when its writes become visible to the host: the model makes all of the engine's writes visible at
once (DESIGN CHOICE, entry 9; 70_reset R271 has "the next host access sees the reset state"). -/
def State.resetRegisters (s : State) : State :=
  { s with irqEn := false, busy := false, done := false, err := false, errCode := 0, cmdPtr := 0,
           errAddr := 0, cmdCount := 0, runTouched := [], unseenWrote := [], hostWrote := [] }

/-- Every register of the block holds a value nothing is known of; no run goes on (60_exceptions R255; entry 20). ID is a constant,
not a register that can be lost (10_state R44). -/
def State.loseRegisters (s : State) : State :=
  let flags := Config.lostRegister s.draws 0
  { s with irqEn := flags.getLsbD 0, busy := flags.getLsbD 1, done := flags.getLsbD 2, err := flags.getLsbD 3,
           errCode := flags.extractLsb' 8 8, cmdPtr := Config.lostRegister s.draws 1,
           errAddr := Config.lostRegister s.draws 2, cmdCount := Config.lostRegister s.draws 3,
           phase := .unpowered, runTouched := [], hostWrote := [] }

/-- A run goes on: BUSY = 1 in a block that operates (40_control R130). -/
def State.running (s : State) : Bool := decide (s.phase = .operating) && s.busy

/-- STATUS shows the end of a run, DONE = 1 or ERR = 1 (20_memory R83). -/
def State.showsEnd (s : State) : Bool := decide (s.phase = .operating) && (!s.busy && (s.done || s.err))

/-- The decoder's rejections as fault codes (30_encoding R106). -/
def faultOfDecode : DecodeError → FaultCode
  | .illegalOpcode => .illegalOpcode
  | .reservedNonzero => .reservedNonzero

end Sys2Proof.Machine
end

