-- ==== Sys2Proof/Machine/Operands.lean ====
section
/-! DEFINITION. The operand types, their footprints and alignments (20_memory R72), the operand checks (40_control
R132), reading and writing operands (20_memory R73, R74, R80, R89), and the staged command every data command but
DOTB is an instance of (20_memory R77). -/

namespace Sys2Proof.Machine

/-- The operand types of 20_memory R72. -/
inductive OperandKind where
  | f32
  | v4
  | m33
  | m44
  | f32Array (n : Nat)
  | v4Array (n : Nat)
  deriving DecidableEq, Repr

/-- An address field with the type its opcode gives it (30_encoding R102). -/
structure Operand where
  base : Word
  kind : OperandKind
  deriving DecidableEq, Repr

/-- Lanes in the footprint (20_memory R72): the padding lane of an M33 counts. -/
def OperandKind.footprintLanes : OperandKind → Nat
  | .f32 => 1
  | .v4 => 4
  | .m33 => 10
  | .m44 => 16
  | .f32Array n => n
  | .v4Array n => 4 * n

/-- Lanes whose value a command uses: all but the padding lane of an M33 (00_scope R22). -/
def OperandKind.valueLanes : OperandKind → Nat
  | .m33 => 9
  | .f32 => 1
  | .v4 => 4
  | .m44 => 16
  | .f32Array n => n
  | .v4Array n => 4 * n

/-- Footprint in bytes (20_memory R72). -/
def OperandKind.footprint (k : OperandKind) : Nat := 4 * k.footprintLanes

/-- Required alignment of the base address (20_memory R72). -/
def OperandKind.align : OperandKind → Nat
  | .f32 => 4
  | .v4 => 16
  | .m33 => 32
  | .m44 => 16
  | .f32Array _ => 4
  | .v4Array _ => 16

/-- The bytes of an operand. -/
def Operand.region (o : Operand) : Region := ⟨o.base.toNat, o.kind.footprint⟩

/-- The address fields of a command in checking order: SRCA, SRCB, DST (30_encoding R102, 40_control R132). -/
def operandsOf : Instr → List Operand
  | .halt | .nop => []
  | .mul33 d a b | .add33 d a b => [⟨a, .m33⟩, ⟨b, .m33⟩, ⟨d, .m33⟩]
  | .mul44 d a b | .add44 d a b => [⟨a, .m44⟩, ⟨b, .m44⟩, ⟨d, .m44⟩]
  | .mul44v d a x => [⟨a, .m44⟩, ⟨x, .v4⟩, ⟨d, .v4⟩]
  | .trn33 d a | .smul33 d a _ => [⟨a, .m33⟩, ⟨d, .m33⟩]
  | .trn44 d a | .inv44 d a | .smul44 d a _ => [⟨a, .m44⟩, ⟨d, .m44⟩]
  | .dot d a b => [⟨a, .v4⟩, ⟨b, .v4⟩, ⟨d, .f32⟩]
  | .dotb d a v n => [⟨a, .v4⟩, ⟨v, .v4Array n.toNat⟩, ⟨d, .f32Array n.toNat⟩]
  | .addv4 d a b => [⟨a, .v4⟩, ⟨b, .v4⟩, ⟨d, .v4⟩]
  | .smulv4 d a _ => [⟨a, .v4⟩, ⟨d, .v4⟩]

/-- The region a command writes, if it writes one: its DST operand (30_encoding R102). -/
def outputOf (i : Instr) : Option Region := (operandsOf i).getLast?.map Operand.region

/-- check_operands: each operand's alignment, then its range, before the next operand is looked at; the first failure
is the fault (40_control R132, 20_memory R75, R76). -/
def checkOperands (memSize : Nat) : List Operand → Option (FaultCode × Word)
  | [] => none
  | o :: rest =>
    if o.base.toNat % o.kind.align ≠ 0 then some (.operandMisaligned, o.base)
    else if memSize < o.base.toNat + o.kind.footprint then some (.operandRange, o.base)
    else checkOperands memSize rest

/-- Some lane read of the operand meets a bus error (20_memory R73, R89). -/
def Operand.readError (p : Platform) (o : Operand) : Bool :=
  lanesError p o.base.toNat o.kind.footprintLanes .read

/-- Some lane write of the operand meets a bus error (20_memory R74, R89). -/
def Operand.writeError (p : Platform) (o : Operand) : Bool :=
  lanesError p o.base.toNat o.kind.footprintLanes .write

/-- The base of a source operand whose read meets a bus error (60_exceptions R231). Where two do, the order of the reads is
not architectural (20_memory R73), so a free choice picks the one reported (entry 11). -/
def sourceError (s : State) (srcs : List Operand) : Option Word :=
  match srcs.filter (Operand.readError s.platform) with
  | [] => none
  | [o] => some o.base
  | o :: o' :: _ => some (if Config.choice s.draws then o.base else o'.base)

/-- LoadV4, LoadM33, LoadM44: the lanes a command uses. An M33's lane 9 is never faulted as
uninitialised (20_memory R73, R80; 00_scope R22). -/
def Operand.load (m : Memory) (o : Operand) : Except Nat Lanes :=
  m.loadLanes o.base.toNat o.kind.valueLanes

/-- Every source operand's lanes, or the first uninitialised lane. -/
def loadAll (m : Memory) : List Operand → Except Nat (List Lanes)
  | [] => .ok []
  | o :: rest =>
    match o.load m with
    | .error x => .error x
    | .ok v =>
      match loadAll m rest with
      | .error x => .error x
      | .ok vs => .ok (v :: vs)

/-- The lanes a store writes: an M33's padding lane gets PAD_RESULT (20_memory R74, 00_scope R22). -/
def storedLanes (s : State) (k : OperandKind) (result : Lanes) : Lanes :=
  if k = .m33 then result ++ [Config.padResult s.draws] else result

/-- StoreF32, StoreV4, StoreM33, StoreM44 and completion; where a lane write meets a bus error, fault 0x07 with every
byte of the output footprint a draw (20_memory R74, R89; 40_control R131). -/
def State.storeResult (s : State) (dst : Operand) (result : Lanes) : State :=
  if dst.writeError s.platform then
    ((s.tear dst.region).raiseFault .busError dst.base).tick
  else
    ({ s with mem := s.mem.storeLanes dst.base.toNat (storedLanes s dst.kind result) }.complete).tick

/-- A staged command (20_memory R77): operand checks (40_control R132), then every input read before any output byte is
written, then the store. `f` computes the result's lanes from the NaN draws and the staged inputs. -/
def staged (srcs : List Operand) (dst : Operand) (f : (Nat → Word) → List Lanes → Lanes) (s : State) :
    Host.Outcome State Fault Refusal :=
  match checkOperands s.platform.memSize (srcs ++ [dst]) with
  | some (code, addr) => .next (s.raiseFault code addr)
  | none =>
    match sourceError s srcs with
    | some addr => .next (s.raiseFault .busError addr).tick
    | none =>
      match loadAll s.mem srcs with
      | .error x => .fault (.uninitialised x)
      | .ok vs => .next (s.storeResult dst (f s.nans vs))

/-- A staged command with one memory input. -/
def stagedUnary (src dst : Operand) (f : (Nat → Word) → Lanes → Lanes) (s : State) :
    Host.Outcome State Fault Refusal :=
  staged [src] dst (fun draw vs => f draw (vs.getD 0 [])) s

/-- A staged command with two memory inputs. -/
def stagedBinary (srcA srcB dst : Operand) (f : (Nat → Word) → Lanes → Lanes → Lanes) (s : State) :
    Host.Outcome State Fault Refusal :=
  staged [srcA, srcB] dst (fun draw vs => f draw (vs.getD 0 []) (vs.getD 1 [])) s

/-! ### What a command reads and writes (20_memory R83) -/

/-- The first of the `n` elements of an array, `stride` bytes apart and of `lanes` lanes each, whose access meets a bus error. -/
def firstElementError (p : Platform) (base stride lanes n : Nat) (access : Access) : Option Nat :=
  (List.range n).find? fun i => lanesError p (base + stride * i) lanes access

/-- How many elements of its vector array DOTB reads: all, or those up to the first whose read, or else whose write, meets a bus
error (44_dot R202, 60_exceptions R233). -/
def dotbReach (p : Platform) (dst vectors n : Nat) : Nat :=
  match firstElementError p vectors 16 4 n .read with
  | some i => i + 1
  | none =>
    match firstElementError p dst 4 1 n .write with
    | some i => i + 1
    | none => n

/-- The operand bytes a command reads on a platform. None where an operand check fails (40_control R132) and for DOTB with N = 0;
where a source's read meets a bus error, every source of a staged command may have been read, since the order of the reads is not
architectural (20_memory R73; entry 6). -/
def readsOf (p : Platform) (i : Instr) : List Region :=
  if (checkOperands p.memSize (operandsOf i)).isNone then
    match i with
    | .dotb d a v n =>
      if n = 0 then []
      else if Operand.readError p ⟨a, .v4⟩ then [⟨a.toNat, 16⟩]
      else [⟨a.toNat, 16⟩, ⟨v.toNat, 16 * dotbReach p d.toNat v.toNat n.toNat⟩]
    | _ => (operandsOf i).dropLast.map Operand.region
  else []

/-- The operand bytes a command writes on a platform: its output footprint, unless an operand check fails or a source's read meets
a bus error (40_control R132, 20_memory R89). -/
def writesOf (p : Platform) (i : Instr) : List Region :=
  if (checkOperands p.memSize (operandsOf i)).isNone && !((operandsOf i).dropLast.any (Operand.readError p)) then
    (outputOf i).toList
  else []

end Sys2Proof.Machine
end

