-- ==== Sys2Proof/Machine/Add.lean ====
section
/-! DEFINITION. Element-wise sums: ADD33, ADD44, ADDV4 (45_add R210, R212, R214). -/

namespace Sys2Proof.Machine

/-- fadd on lanes 0 to n - 1 (45_add R210, R212, R214). -/
def addLanes (n : Nat) (draw : Nat → Word) (a b : Lanes) : Lanes :=
  (List.range n).map fun l => fadd (draw l) (lane a l) (lane b l)

/-- ADD33 (45_add R210). -/
def execAdd33 (dst a b : Word) (s : State) : Host.Outcome State Fault Refusal :=
  stagedBinary ⟨a, .m33⟩ ⟨b, .m33⟩ ⟨dst, .m33⟩ (addLanes 9) s

/-- ADD44 (45_add R212). -/
def execAdd44 (dst a b : Word) (s : State) : Host.Outcome State Fault Refusal :=
  stagedBinary ⟨a, .m44⟩ ⟨b, .m44⟩ ⟨dst, .m44⟩ (addLanes 16) s

/-- ADDV4 (45_add R214). -/
def execAddv4 (dst a b : Word) (s : State) : Host.Outcome State Fault Refusal :=
  stagedBinary ⟨a, .v4⟩ ⟨b, .v4⟩ ⟨dst, .v4⟩ (addLanes 4) s

end Sys2Proof.Machine
end

