-- ==== Sys2Proof/Machine/Control.lean ====
section
/-! DEFINITION. Command-list control: HALT and NOP (40_control R136, R138). -/

namespace Sys2Proof.Machine

/-- HALT: completes, then BUSY <- 0 and DONE <- 1 (40_control R131, R136). -/
def execHalt (s : State) : Host.Outcome State Fault Refusal := .next s.complete.halt

/-- NOP: completes (40_control R138). -/
def execNop (s : State) : Host.Outcome State Fault Refusal := .next s.complete

end Sys2Proof.Machine
end

