-- ==== Sys2Proof/Machine/Dot.lean ====
section
/-! DEFINITION. Dot products: DOT and DOTB (44_dot R200 to R204). -/

namespace Sys2Proof.Machine

/-- The 4-lane dot product, left to right, no FMA, operations op to op + 6 (44_dot R201). -/
def dot4 (draw : Nat → Word) (op : Nat) (a b : Lanes) : Word :=
  let p0 := fmul (draw op) (lane a 0) (lane b 0)
  let p1 := fmul (draw (op + 1)) (lane a 1) (lane b 1)
  let p2 := fmul (draw (op + 2)) (lane a 2) (lane b 2)
  let p3 := fmul (draw (op + 3)) (lane a 3) (lane b 3)
  fadd (draw (op + 6)) (fadd (draw (op + 5)) (fadd (draw (op + 4)) p0 p1) p2) p3

/-- DOT (44_dot R200). -/
def execDot (dst a b : Word) (s : State) : Host.Outcome State Fault Refusal :=
  stagedBinary ⟨a, .v4⟩ ⟨b, .v4⟩ ⟨dst, .f32⟩ (fun draw u v => [dot4 draw 0 u v]) s

/-- DOTB's loop (44_dot R202): `count` elements from element `i`, each read and then written. `vectors` and `dst` are
the bases of the arrays, `a` the resident vector. The address of an unwritten lane where there is one (20_memory R80). -/
def dotbLoop (draw : Nat → Word) (a : Lanes) (vectors dst : Nat) : Nat → Nat → Memory → Except Nat Memory
  | 0, _, m => .ok m
  | count + 1, i, m =>
    match m.loadLanes (vectors + 16 * i) 4 with
    | .error x => .error x
    | .ok v => dotbLoop draw a vectors dst count (i + 1) (m.writeWord (dst + 4 * i) (dot4 draw (7 * i) a v))

/-- DOTB with the resident vector `a`, where no read meets a bus error (44_dot R202). Where the write of an element does, the elements
up to it have been read and every byte of the output array is a draw (20_memory R89). -/
def dotbElements (dst vectors n : Word) (a : Lanes) (s : State) : Host.Outcome State Fault Refusal :=
  match dotbLoop s.nans a vectors.toNat dst.toNat (dotbReach s.platform dst.toNat vectors.toNat n.toNat) 0 s.mem with
  | .error x => .fault (.uninitialised x)
  | .ok m =>
    match firstElementError s.platform dst.toNat 4 1 n.toNat .write with
    | none => .next ({ s with mem := m }.complete).tick
    | some i =>
      .next ((s.tear ⟨dst.toNat, 4 * n.toNat⟩).raiseFault .busError (dst + BitVec.ofNat 32 (4 * i))).tick

/-- DOTB (44_dot R202). A bus error on a read comes before every write and leaves memory alone: A's first, then that of the first
element that has one (20_memory R89, 60_exceptions R232, R233). -/
def execDotb (dst a vectors n : Word) (s : State) : Host.Outcome State Fault Refusal :=
  match checkOperands s.platform.memSize
      [⟨a, .v4⟩, ⟨vectors, .v4Array n.toNat⟩, ⟨dst, .f32Array n.toNat⟩] with
  | some (code, addr) => .next (s.raiseFault code addr)
  | none =>
    if n = 0 then .next s.complete
    else if Operand.readError s.platform ⟨a, .v4⟩ then .next (s.raiseFault .busError a)
    else
      match firstElementError s.platform vectors.toNat 16 4 n.toNat .read with
      | some i => .next (s.raiseFault .busError (vectors + BitVec.ofNat 32 (16 * i)))
      | none =>
        match Operand.load s.mem ⟨a, .v4⟩ with
        | .error x => .fault (.uninitialised x)
        | .ok v => dotbElements dst vectors n v s

end Sys2Proof.Machine
end

