-- ==== Sys2Proof/Machine/Inverse.lean ====
section
/-! DEFINITION. INV44, the 4×4 inverse by 2×2 blocks (43_inverse R180 to R191). `draw` gives the NAN_RESULT of each of the
command's operations, numbered from the `op` each function is handed. -/

namespace Sys2Proof.Machine

/-- A 2×2 block [[p0, p1], [p2, p3]] (43_inverse R180). -/
structure Block where
  p0 : Word
  p1 : Word
  p2 : Word
  p3 : Word
  deriving DecidableEq, Repr

/-- The block of four lanes of an M44 (43_inverse R180). -/
def blockOf (m : Lanes) (l0 l1 l2 l3 : Nat) : Block := ⟨lane m l0, lane m l1, lane m l2, lane m l3⟩

/-- Top-left, top-right, bottom-left and bottom-right (43_inverse R180). -/
def blkA (m : Lanes) : Block := blockOf m 0 1 4 5

def blkB (m : Lanes) : Block := blockOf m 2 3 6 7

def blkC (m : Lanes) : Block := blockOf m 8 9 12 13

def blkD (m : Lanes) : Block := blockOf m 10 11 14 15

/-- Block determinant, operations op to op + 2 (43_inverse R181). -/
def det2 (draw : Nat → Word) (op : Nat) (p : Block) : Word :=
  fsub (draw (op + 2)) (fmul (draw op) p.p0 p.p3) (fmul (draw (op + 1)) p.p1 p.p2)

/-- Block adjugate, exact (43_inverse R181). -/
def adj2 (p : Block) : Block := ⟨p.p3, fneg p.p1, fneg p.p2, p.p0⟩

/-- fadd(fmul(x0, y0), fmul(x1, y1)), operations op to op + 2 (43_inverse R181). -/
def sumOfTwo (draw : Nat → Word) (op : Nat) (x0 y0 x1 y1 : Word) : Word :=
  fadd (draw (op + 2)) (fmul (draw op) x0 y0) (fmul (draw (op + 1)) x1 y1)

/-- Block product P·Q, operations op to op + 11 (43_inverse R181). -/
def mul2 (draw : Nat → Word) (op : Nat) (p q : Block) : Block :=
  ⟨sumOfTwo draw op p.p0 q.p0 p.p1 q.p2, sumOfTwo draw (op + 3) p.p0 q.p1 p.p1 q.p3,
   sumOfTwo draw (op + 6) p.p2 q.p0 p.p3 q.p2, sumOfTwo draw (op + 9) p.p2 q.p1 p.p3 q.p3⟩

/-- One partial block: d times each lane of P, less the same lane of M, operations op to op + 7 (43_inverse
R184). -/
def partialBlock (draw : Nat → Word) (op : Nat) (d : Word) (p m : Block) : Block :=
  ⟨fsub (draw (op + 1)) (fmul (draw op) d p.p0) m.p0, fsub (draw (op + 3)) (fmul (draw (op + 2)) d p.p1) m.p1,
   fsub (draw (op + 5)) (fmul (draw (op + 4)) d p.p2) m.p2, fsub (draw (op + 7)) (fmul (draw (op + 6)) d p.p3) m.p3⟩

/-- The trace of AB·DC without the product, pairwise, operations op to op + 6 (43_inverse R185). -/
def traceProduct (draw : Nat → Word) (op : Nat) (ab dc : Block) : Word :=
  let t0 := fmul (draw op) ab.p0 dc.p0
  let t1 := fmul (draw (op + 1)) ab.p1 dc.p2
  let t2 := fmul (draw (op + 2)) ab.p2 dc.p1
  let t3 := fmul (draw (op + 3)) ab.p3 dc.p3
  fadd (draw (op + 6)) (fadd (draw (op + 4)) t0 t1) (fadd (draw (op + 5)) t2 t3)

/-- The overall determinant, operations op to op + 3 (43_inverse R185). -/
def overallDet (draw : Nat → Word) (op : Nat) (dA dB dC dD tr : Word) : Word :=
  fsub (draw (op + 3)) (fadd (draw (op + 2)) (fmul (draw op) dA dD) (fmul (draw (op + 1)) dB dC)) tr

/-- +1.0 and -1.0 (00_scope R9). -/
def oneWord : Word := 0x3F800000

def minusOneWord : Word := 0xBF800000

/-- The signed reciprocal, one division per lane, operations op to op + 3 (43_inverse R186). -/
def signedReciprocal (draw : Nat → Word) (op : Nat) (det : Word) : Block :=
  ⟨fdiv (draw op) oneWord det, fdiv (draw (op + 1)) minusOneWord det,
   fdiv (draw (op + 2)) minusOneWord det, fdiv (draw (op + 3)) oneWord det⟩

/-- Lane-wise product of a partial block with r, operations op to op + 3 (43_inverse R187). -/
def scaleBlock (draw : Nat → Word) (op : Nat) (p r : Block) : Block :=
  ⟨fmul (draw op) p.p0 r.p0, fmul (draw (op + 1)) p.p1 r.p1,
   fmul (draw (op + 2)) p.p2 r.p2, fmul (draw (op + 3)) p.p3 r.p3⟩

/-- The four scaled blocks, each in adjugate position in its quarter (43_inverse R187). -/
def placeBlocks (x y z w : Block) : Lanes :=
  [x.p3, x.p1, y.p3, y.p1,
   x.p2, x.p0, y.p2, y.p0,
   z.p3, z.p1, w.p3, w.p1,
   z.p2, z.p0, w.p2, w.p0]

/-- The inverse from the four blocks (43_inverse R182 to R187). -/
def inverseOfBlocks (draw : Nat → Word) (a b c d : Block) : Lanes :=
  let dA := det2 draw 0 a
  let dB := det2 draw 3 b
  let dC := det2 draw 6 c
  let dD := det2 draw 9 d
  let ab := mul2 draw 12 (adj2 a) b
  let dc := mul2 draw 24 (adj2 d) c
  let x := partialBlock draw 36 dD a (mul2 draw 44 b dc)
  let w := partialBlock draw 56 dA d (mul2 draw 64 c ab)
  let y := partialBlock draw 76 dB c (mul2 draw 84 d (adj2 ab))
  let z := partialBlock draw 96 dC b (mul2 draw 104 a (adj2 dc))
  let det := overallDet draw 123 dA dB dC dD (traceProduct draw 116 ab dc)
  let r := signedReciprocal draw 127 det
  placeBlocks (scaleBlock draw 131 x r) (scaleBlock draw 135 y r) (scaleBlock draw 139 z r)
    (scaleBlock draw 143 w r)

/-- The lanes INV44 stores for the matrix m (43_inverse R190). No zero-determinant check (43_inverse R191). -/
def inverse44 (draw : Nat → Word) (m : Lanes) : Lanes :=
  inverseOfBlocks draw (blkA m) (blkB m) (blkC m) (blkD m)

/-- INV44 (43_inverse R190). -/
def execInv44 (dst a : Word) (s : State) : Host.Outcome State Fault Refusal :=
  stagedUnary ⟨a, .m44⟩ ⟨dst, .m44⟩ inverse44 s

end Sys2Proof.Machine
end

