-- ==== Sys2Proof/Machine/Multiply.lean ====
section
/-! DEFINITION. Matrix products: MUL33, MUL44, MUL44V (41_multiply R150, R152, R154). `draw k` is the NAN_RESULT of
the command's k-th operation. -/

namespace Sys2Proof.Machine

/-- The nine logical lanes of a 3×3 matrix from its elements (00_scope R21). -/
def lanes33 (f : Nat → Nat → Word) : Lanes := (List.range 9).map fun l => f (l / 3) (l % 3)

/-- The sixteen lanes of a 4×4 matrix from its elements (00_scope R21). -/
def lanes44 (f : Nat → Nat → Word) : Lanes := (List.range 16).map fun l => f (l / 4) (l % 4)

/-- The four lanes of a vector from its elements (00_scope R21). -/
def lanesV4 (f : Nat → Word) : Lanes := (List.range 4).map f

/-- Element (i, j) of a 3×3 matrix is lane 3i + j (00_scope R21). -/
def elem33 (m : Lanes) (i j : Nat) : Word := lane m (3 * i + j)

/-- Element (i, j) of a 4×4 matrix is lane 4i + j (00_scope R21). -/
def elem44 (m : Lanes) (i j : Nat) : Word := lane m (4 * i + j)

/-- x0·y0 rounded, then two fused multiply-adds, in increasing k (41_multiply R150). -/
def sumOfProducts3 (draw : Nat → Word) (op : Nat) (x y : Nat → Word) : Word :=
  let acc0 := fmul (draw op) (x 0) (y 0)
  let acc1 := ffma (draw (op + 1)) (x 1) (y 1) acc0
  ffma (draw (op + 2)) (x 2) (y 2) acc1

/-- x0·y0 rounded, then three fused multiply-adds, in increasing k (41_multiply R152, R154). -/
def sumOfProducts4 (draw : Nat → Word) (op : Nat) (x y : Nat → Word) : Word :=
  let acc0 := fmul (draw op) (x 0) (y 0)
  let acc1 := ffma (draw (op + 1)) (x 1) (y 1) acc0
  let acc2 := ffma (draw (op + 2)) (x 2) (y 2) acc1
  ffma (draw (op + 3)) (x 3) (y 3) acc2

/-- The logical lanes of the 3×3 product (41_multiply R150). -/
def product33 (draw : Nat → Word) (a b : Lanes) : Lanes :=
  lanes33 fun i j => sumOfProducts3 draw (3 * (3 * i + j)) (fun k => elem33 a i k) (fun k => elem33 b k j)

/-- The lanes of the 4×4 product (41_multiply R152). -/
def product44 (draw : Nat → Word) (a b : Lanes) : Lanes :=
  lanes44 fun i j => sumOfProducts4 draw (4 * (4 * i + j)) (fun k => elem44 a i k) (fun k => elem44 b k j)

/-- The lanes of the 4×4 matrix times 4-vector product (41_multiply R154). -/
def product44V (draw : Nat → Word) (a x : Lanes) : Lanes :=
  lanesV4 fun i => sumOfProducts4 draw (4 * i) (fun k => lane x k) (fun k => elem44 a i k)

/-- MUL33 (41_multiply R150). -/
def execMul33 (dst a b : Word) (s : State) : Host.Outcome State Fault Refusal :=
  stagedBinary ⟨a, .m33⟩ ⟨b, .m33⟩ ⟨dst, .m33⟩ product33 s

/-- MUL44 (41_multiply R152). -/
def execMul44 (dst a b : Word) (s : State) : Host.Outcome State Fault Refusal :=
  stagedBinary ⟨a, .m44⟩ ⟨b, .m44⟩ ⟨dst, .m44⟩ product44 s

/-- MUL44V (41_multiply R154). -/
def execMul44v (dst a x : Word) (s : State) : Host.Outcome State Fault Refusal :=
  stagedBinary ⟨a, .m44⟩ ⟨x, .v4⟩ ⟨dst, .v4⟩ product44V s

end Sys2Proof.Machine
end

