-- ==== Sys2Proof/Machine/ScalarMultiply.lean ====
section
/-! DEFINITION. Products with a scalar: SMUL33, SMUL44, SMULV4 (46_scalar_multiply R220, R222, R224). -/

namespace Sys2Proof.Machine

/-- fmul by `imm` on lanes 0 to n - 1; IMM's bits are the scalar (30_encoding R104). -/
def scaleLanes (n : Nat) (imm : Word) (draw : Nat → Word) (a : Lanes) : Lanes :=
  (List.range n).map fun l => fmul (draw l) (lane a l) imm

/-- SMUL33 (46_scalar_multiply R220). -/
def execSmul33 (dst a imm : Word) (s : State) : Host.Outcome State Fault Refusal :=
  stagedUnary ⟨a, .m33⟩ ⟨dst, .m33⟩ (scaleLanes 9 imm) s

/-- SMUL44 (46_scalar_multiply R222). -/
def execSmul44 (dst a imm : Word) (s : State) : Host.Outcome State Fault Refusal :=
  stagedUnary ⟨a, .m44⟩ ⟨dst, .m44⟩ (scaleLanes 16 imm) s

/-- SMULV4 (46_scalar_multiply R224). -/
def execSmulv4 (dst a imm : Word) (s : State) : Host.Outcome State Fault Refusal :=
  stagedUnary ⟨a, .v4⟩ ⟨dst, .v4⟩ (scaleLanes 4 imm) s

end Sys2Proof.Machine
end

