-- ==== Sys2Proof/Machine/Transpose.lean ====
section
/-! DEFINITION. Matrix transposes: TRN33, TRN44 (42_transpose R170, R172). Data movement only (00_scope R19). -/

namespace Sys2Proof.Machine

/-- The logical lanes of the 3×3 transpose (42_transpose R170). -/
def transpose33 (a : Lanes) : Lanes := lanes33 fun i j => elem33 a j i

/-- The lanes of the 4×4 transpose (42_transpose R172). -/
def transpose44 (a : Lanes) : Lanes := lanes44 fun i j => elem44 a j i

/-- TRN33 (42_transpose R170). -/
def execTrn33 (dst a : Word) (s : State) : Host.Outcome State Fault Refusal :=
  stagedUnary ⟨a, .m33⟩ ⟨dst, .m33⟩ (fun _ v => transpose33 v) s

/-- TRN44 (42_transpose R172). -/
def execTrn44 (dst a : Word) (s : State) : Host.Outcome State Fault Refusal :=
  stagedUnary ⟨a, .m44⟩ ⟨dst, .m44⟩ (fun _ v => transpose44 v) s

end Sys2Proof.Machine
end

