-- ==== Sys2Proof/Machine/Dispatch.lean ====
section
/-! DEFINITION. The one dispatch from a command to its meaning (30_encoding R105). -/

namespace Sys2Proof.Machine

/-- execute(cmd) with its operand checks and its completion (40_control R130 to R132): one arm per command. -/
def exec (i : Instr) (s : State) : Host.Outcome State Fault Refusal :=
  match i with
  | .halt => Sys2Proof.Machine.execHalt s
  | .nop => Sys2Proof.Machine.execNop s
  | .mul33 dst a b => Sys2Proof.Machine.execMul33 dst a b s
  | .mul44 dst a b => Sys2Proof.Machine.execMul44 dst a b s
  | .mul44v dst a x => Sys2Proof.Machine.execMul44v dst a x s
  | .trn33 dst a => Sys2Proof.Machine.execTrn33 dst a s
  | .trn44 dst a => Sys2Proof.Machine.execTrn44 dst a s
  | .inv44 dst a => Sys2Proof.Machine.execInv44 dst a s
  | .dot dst a b => Sys2Proof.Machine.execDot dst a b s
  | .dotb dst a vectors n => Sys2Proof.Machine.execDotb dst a vectors n s
  | .add33 dst a b => Sys2Proof.Machine.execAdd33 dst a b s
  | .add44 dst a b => Sys2Proof.Machine.execAdd44 dst a b s
  | .addv4 dst a b => Sys2Proof.Machine.execAddv4 dst a b s
  | .smul33 dst a imm => Sys2Proof.Machine.execSmul33 dst a imm s
  | .smul44 dst a imm => Sys2Proof.Machine.execSmul44 dst a imm s
  | .smulv4 dst a imm => Sys2Proof.Machine.execSmulv4 dst a imm s

end Sys2Proof.Machine
end

