-- ==== Sys2Proof/Machine/Fetch.lean ====
section
/-! DEFINITION. The fetch of a command (40_control R130, 20_memory R86), what a run reads and writes (20_memory R83), and
placing a command where the next fetch finds it. -/

namespace Sys2Proof.Machine

/-- What a fetch at CMD_PTR gives. -/
inductive Fetched where
  /-- A fault of the fetch or of the decoder (40_control R130). -/
  | trap (code : FaultCode) (addr : Word)
  /-- A byte of the command was never written (20_memory R80). -/
  | unwritten (addr : Nat)
  /-- A byte of the command was written by the host during the run (20_memory R83: no such move). -/
  | dutyBroken
  /-- The command. -/
  | command (i : Instr)
  deriving DecidableEq, Repr

/-- The host wrote a byte of this region during the current run. -/
def State.hostWroteIn (s : State) (r : Region) : Bool := s.hostWrote.any fun a => r.contains a

/-- The fetch: alignment, range, bus error, MemRead(a, 32), decode, in that order (40_control R130). -/
def State.fetch (s : State) : Fetched :=
  if s.cmdPtr.toNat % 32 ≠ 0 then .trap .fetchMisaligned s.cmdPtr
  else if s.platform.memSize < s.cmdPtr.toNat + 32 then .trap .fetchRange s.cmdPtr
  else if busErrorAt s.platform s.cmdPtr.toNat 32 .read then .trap .busError s.cmdPtr
  else if s.hostWroteIn ⟨s.cmdPtr.toNat, 32⟩ then .dutyBroken
  else
    match s.mem.loadLanes s.cmdPtr.toNat 8 with
    | .error x => .unwritten x
    | .ok ws =>
      match RawCommand.ofWords ws with
      | none => .unwritten s.cmdPtr.toNat
      | some c =>
        match decode c with
        | .ok i => .command i
        | .error e => .trap (faultOfDecode e) s.cmdPtr

/-- The command reads or writes a byte the host has written during the run, which 20_memory R83 says the host does not do. -/
def State.breaksDuty (s : State) (i : Instr) : Bool :=
  (readsOf s.platform i ++ writesOf s.platform i).any s.hostWroteIn

/-- Record what the command at `ptr` read and wrote: for the rest of the run, and, of what it wrote, until the host sees the end of
a run (20_memory R83; entries 6 and 9). -/
def State.noteRun (s : State) (ptr : Word) (i : Instr) : State :=
  { s with runTouched := ⟨ptr.toNat, 32⟩ :: (readsOf s.platform i ++ (writesOf s.platform i ++ s.runTouched)),
           unseenWrote := writesOf s.platform i ++ s.unseenWrote }

/-! ### The command in progress -/

/-- The command the hardware finds at CMD_PTR where some of its bytes were never written: those bytes are draws (20_memory R80). -/
def State.drawnCommand (s : State) : RawCommand :=
  let byte := fun k => (s.mem.read (s.cmdPtr.toNat + k)).getD (Config.unwrittenByte s.draws k)
  let word := fun k => wordOfBytes (byte (4 * k)) (byte (4 * k + 1)) (byte (4 * k + 2)) (byte (4 * k + 3))
  ⟨word 0, word 1, word 2, word 3, word 4, word 5, word 6, word 7⟩

/-- The command in progress between two steps of a run, if there may be one: the command at CMD_PTR may already have begun (10_state
R47, 70_reset R270; DEDUCED, entry 10). A command whose bytes the host wrote during the run has not begun, since the host kept its
duty (20_memory R83). -/
def State.commandInProgress (s : State) : Option Instr :=
  if s.running then
    match s.fetch with
    | .trap _ _ | .dutyBroken => none
    | .command i => some i
    | .unwritten _ =>
      match decode s.drawnCommand with
      | .ok i => some i
      | .error _ => none
  else none

/-- The output footprint of the command in progress; none where its operand checks fail (70_reset R270). -/
def State.outputInProgress (s : State) : Option Region :=
  match s.commandInProgress with
  | none => none
  | some i => if (checkOperands s.platform.memSize (operandsOf i)).isNone then outputOf i else none

/-- What the command in progress writes (20_memory R83). -/
def State.writesInProgress (s : State) : List Region :=
  match s.commandInProgress with
  | none => []
  | some i => writesOf s.platform i

/-! ### Placing a command -/

/-- CMD_PTR if a fetch there passes the alignment and range checks, else 0. -/
def State.fetchable (s : State) : Word :=
  if s.cmdPtr.toNat % 32 = 0 ∧ s.cmdPtr.toNat + 32 ≤ s.platform.memSize then s.cmdPtr else 0

/-- The state with these bytes as the command at CMD_PTR, the engine running and next to move: what the host does by its
writes of memory, CMD_PTR and START (70_reset R273), with no other move in between. -/
def State.placeCommand (s : State) (bytes : List Byte) : State :=
  let r := if s.running then s else s.start
  { r with mem := r.mem.writeBytes s.fetchable.toNat bytes, cmdPtr := s.fetchable, schedule := [], phase := .operating,
           hostWrote := [] }

end Sys2Proof.Machine
end

