-- ==== Sys2Proof/Machine/Flags.lean ====
section
/-! DEFINITION. The status word, the control word and the interrupt line. MEFS has no condition codes and no
floating-point flags (10_state R57, 00_scope R17); these are all its flags. -/

namespace Sys2Proof.Machine

/-- The irq output: level-sensitive, a function of the state (10_state R56). -/
def State.irq (s : State) : Bool := s.irqEn && (s.done || s.err)

/-- STATUS as the host reads it (10_state R46). -/
def State.statusWord (s : State) : Word :=
  0#16 ++ s.errCode ++ 0#5 ++ BitVec.ofBool s.err ++ BitVec.ofBool s.done ++ BitVec.ofBool s.busy

/-- CTRL as the host reads it: START and SOFT_RESET read 0 (10_state R45). -/
def State.ctrlWord (s : State) : Word := 0#30 ++ BitVec.ofBool s.irqEn ++ 0#1

/-- ID, constant (10_state R44). -/
def idWord : Word := 0x4D450100

end Sys2Proof.Machine
end

