-- ==== Sys2Proof/Machine/Host.lean ====
section
/-! DEFINITION. The host's moves, the reset input and loss of power: the register block (10_state R43 to R56), SOFT_RESET and
hardware reset (70_reset R270, R271), power removal (60_exceptions R255), host reads and writes of the data space (20_memory R82, R83; 70_reset R283, R284). -/

namespace Sys2Proof.Machine

/-- The registers of the block (10_state R43). -/
inductive Reg where
  | id
  | ctrl
  | status
  | cmdPtr
  | errAddr
  | cmdCount
  | reserved
  deriving DecidableEq, Repr

/-- The register at a byte offset of the block (10_state R43, R50). -/
def regAtOffset (off : Nat) : Reg :=
  if off = 0x00 then .id
  else if off = 0x04 then .ctrl
  else if off = 0x08 then .status
  else if off = 0x0C then .cmdPtr
  else if off = 0x10 then .errAddr
  else if off = 0x14 then .cmdCount
  else .reserved

/-- The register word `w` of the block is (10_state R43). -/
def regAtWord (w : Fin 64) : Reg := regAtOffset (4 * w.val)

/-- What a host read of a register returns. While BUSY = 1, CMD_PTR reads as the current or the next command's address, a
draw (10_state R44 to R50; entry 10). -/
def State.regValue (s : State) : Reg → Word
  | .id => idWord
  | .ctrl => s.ctrlWord
  | .status => s.statusWord
  | .cmdPtr => if s.busy && Config.choice s.draws then s.cmdPtr + 32 else s.cmdPtr
  | .errAddr => s.errAddr
  | .cmdCount => s.cmdCount
  | .reserved => 0

/-! ### Reset and loss of power -/

/-- The run, if there is one, is abandoned: every byte of the output footprint of the command in progress becomes a draw, and nothing
else in memory changes (70_reset R270). -/
def State.abandonRun (s : State) : State :=
  match s.outputInProgress with
  | none => s
  | some r => s.tear r

/-- What a reset does, in any state (70_reset R270, R271). -/
def State.resetBlock (s : State) : State := s.abandonRun.resetRegisters.tick

/-- The reset input becomes asserted: the block is reset and held so, whatever its state, power lost included (70_reset R270,
60_exceptions R255; entry 19). -/
def State.assertReset (s : State) : State := { s.resetBlock with phase := .inReset }

/-- The reset input is released: the block operates, idle. Of a block not in reset it changes nothing (70_reset R270). -/
def State.releaseReset (s : State) : State := if s.phase = .inReset then { s with phase := .operating } else s

/-- Power is removed: a run is abandoned as at a reset, and the register state is lost until the next hardware reset
(60_exceptions R255; entry 20). Of power removed while the reset input is held, where 70_reset R270 keeps the registers at their reset
values and R255 loses them, the spec says nothing: the model loses them and forgets that the input was held, so that releasing it does
nothing and only asserting it anew resets the block (DESIGN CHOICE, entry 20). -/
def State.losePower (s : State) : State := s.abandonRun.loseRegisters.tick

/-! ### Register writes -/

/-- A host write to CTRL (10_state R45, R52, R53). -/
def State.writeCtrl (s : State) (v : Word) : State :=
  if v.getLsbD 2 then s.resetBlock
  else
    let s' := { s with irqEn := v.getLsbD 1 }
    if v.getLsbD 0 && !s.busy then s'.start else s'

/-- A host write to STATUS: write 1 to clear DONE and ERR (10_state R46). -/
def State.writeStatus (s : State) (v : Word) : State :=
  { s with done := s.done && !v.getLsbD 1, err := s.err && !v.getLsbD 2 }

/-- A host write to a register (10_state R44 to R50). A block held in reset keeps its reset values (70_reset R270; DEDUCED, entry 19),
and one without power does not answer (DESIGN CHOICE, entry 20). -/
def State.writeReg (s : State) (v : Word) (r : Reg) : State :=
  if s.phase = .operating then
    match r with
    | .ctrl => s.writeCtrl v
    | .status => s.writeStatus v
    | .cmdPtr => if s.busy then s else { s with cmdPtr := v }
    | .id | .errAddr | .cmdCount | .reserved => s
  else s

/-! ### The data space -/

/-- The `n` bytes a host read returns from offset `k` on: in a racing region a draw, elsewhere the byte in memory
(20_memory R80, R83; entry 9). -/
def hostBytes (s : State) (racing : List Region) (addr : Nat) : Nat → Nat → Except Nat (List Byte)
  | 0, _ => .ok []
  | n + 1, k =>
    match (if racing.any (fun r => r.contains (addr + k)) then some (Config.racedByte s.draws k)
           else s.mem.read (addr + k)) with
    | none => .error (addr + k)
    | some b =>
      match hostBytes s racing addr n (k + 1) with
      | .error x => .error x
      | .ok bs => .ok (b :: bs)

/-- The regions a host data read races with: what the command in progress writes, and what the engine has written since the host
last read STATUS showing DONE or ERR, during the run and after its end (20_memory R83, 70_reset R283; entry 9). -/
def State.racing (s : State) : List Region := s.writesInProgress ++ s.unseenWrote

/-- A host read of the data space (20_memory R70). BUS_ERROR is of the engine's accesses alone (DEDUCED, entry 15). -/
def State.readMem (s : State) (addr len : Nat) : Host.Outcome State Fault Refusal :=
  if s.platform.memSize < addr + len then .refused .beyondDataSpace
  else
    match hostBytes s s.racing addr len 0 with
    | .error x => .fault (.uninitialised x)
    | .ok bs => .next { s with hostRead := some (.bytes bs) }.tick

/-- A host write of the data space. During a run it may write only bytes the run neither reads nor writes (20_memory R83,
70_reset R284): a byte an earlier command touched is refused here, and one a later command touches is refused when
that command comes (`State.fetch`, `State.breaksDuty`). A byte the engine wrote and the host writes again before it has seen the end
of the run: 20_memory R83 does not say what a host read of it then returns. Memory holds the host's value, and the host's reads of the
byte stay free until a read of STATUS shows DONE or ERR, or a reset (DESIGN CHOICE, entry 9). -/
def State.writeMem (s : State) (addr : Nat) (bytes : List Byte) : Host.Outcome State Fault Refusal :=
  if s.platform.memSize < addr + bytes.length then .refused .beyondDataSpace
  else
    let written := (List.range bytes.length).map (addr + ·)
    if s.running then
      if written.any (fun a => s.runTouched.any fun r => r.contains a) then .refused .hostDutyBroken
      else .next { s with mem := s.mem.writeBytes addr bytes, hostWrote := written ++ s.hostWrote }
    else .next { s with mem := s.mem.writeBytes addr bytes }

/-- The host has read register `r`: a read of STATUS that shows DONE or ERR makes the engine's writes visible to the host's later
reads (20_memory R83, R84; entry 9). -/
def State.sawRegister (s : State) (r : Reg) : State :=
  if r = .status ∧ s.showsEnd then { s with unseenWrote := [] } else s

/-- A host read of a word of the register block: no register is changed (10_state R51). -/
def State.readRegAt (s : State) (w : Fin 64) : State :=
  ({ s with hostRead := some (.word (s.regValue (regAtWord w))) }.sawRegister (regAtWord w)).tick

/-- A host write of a word of the register block. -/
def State.writeRegAt (s : State) (w : Fin 64) (v : Word) : State := s.writeReg v (regAtWord w)

end Sys2Proof.Machine
end

