-- ==== Sys2Proof/Machine/Engine.lean ====
section
/-! DEFINITION. One turn of an agent: the engine's command cycle (40_control R130), and every other move. -/

namespace Sys2Proof.Machine

/-- The engine's turn: with BUSY = 0, in reset or without power nothing happens (60_exceptions R255, 70_reset R270); else one command
is fetched, decoded and executed (40_control R130), and what it read and wrote is recorded (20_memory R83). -/
def engineTurn (s : State) : Host.Outcome State Fault Refusal :=
  if s.running then
    match s.fetch with
    | .trap code addr => .next (s.raiseFault code addr)
    | .unwritten x => .fault (.uninitialised x)
    | .dutyBroken => .refused .hostDutyBroken
    | .command i =>
      if s.breaksDuty i then .refused .hostDutyBroken
      else
        match exec i s with
        | .next t => .next (t.noteRun s.cmdPtr i)
        | .fault f => .fault f
        | .refused r => .refused r
  else .next s

/-- One move (entry 4). -/
def moveTurn (m : Move) (s : State) : Host.Outcome State Fault Refusal :=
  match m with
  | .engine => engineTurn s
  | .assertReset => .next s.assertReset
  | .releaseReset => .next s.releaseReset
  | .losePower => .next s.losePower
  | .readReg w => .next (s.readRegAt w)
  | .writeReg w v => .next (s.writeRegAt w v)
  | .readMem addr len => s.readMem addr len
  | .writeMem addr bytes => s.writeMem addr bytes

/-- The next move of the schedule; with none left, the engine's turn (entry 4). -/
def nextTurn (s : State) : Host.Outcome State Fault Refusal :=
  match s.schedule with
  | [] => engineTurn s
  | m :: rest => moveTurn m { s with schedule := rest }

end Sys2Proof.Machine
end

