-- ==== Sys2Proof/Machine/Step.lean ====
section
/-! DEFINITION. One step of the machine, and placing a command for its next step. -/

namespace Sys2Proof.Machine

/-- One step: the next move (entry 4). -/
def step (s : State) : Host.Outcome State Fault Refusal := nextTurn s

/-- `s` with the command whose low `nbits` bits are `w` (the others 0) as the one its next step runs. -/
def State.withFetchWord (s : State) (nbits w : Nat) : State := s.placeCommand (tableBytes nbits w)

end Sys2Proof.Machine
end

