-- ==== Sys2Proof/Safety.lean ====
section
/-! DEFINITION. What holds of every state a machine reaches: the invariant claims about steps are stated under. -/

namespace Sys2Proof.Machine

/-- What STATUS and the fault registers satisfy in every reachable state whose registers are not lost (10_state R46, R52; 40_control
R131; 60_exceptions R230, R231, R241). -/
structure State.StatusOk (s : State) : Prop where
  /-- BUSY = 1 implies DONE = 0 and ERR = 0 (10_state R46). -/
  busyNotDone : s.busy = true → s.done = false ∧ s.err = false
  /-- DONE and ERR are never both 1 (10_state R46, 60_exceptions R241). -/
  doneXorErr : ¬ (s.done = true ∧ s.err = true)
  /-- During a run ERR_CODE and ERR_ADDR are 0 (40_control R131, 10_state R52). -/
  busyNoFault : s.busy = true → s.errCode = 0 ∧ s.errAddr = 0
  /-- A run that ended by HALT left no fault code (10_state R46). -/
  doneNoFault : s.done = true → s.errCode = 0 ∧ s.errAddr = 0
  /-- ERR = 1 comes with a fault code (60_exceptions R230, R231). -/
  errHasCode : s.err = true → s.errCode ≠ 0
  /-- Codes 0x08 to 0xFF are never reported (60_exceptions R231). -/
  codeReported : s.errCode.toNat ≤ 7

/-- Every register is at its reset value (70_reset R270). -/
structure State.AtReset (s : State) : Prop where
  irqEn : s.irqEn = false
  busy : s.busy = false
  done : s.done = false
  err : s.err = false
  errCode : s.errCode = 0
  cmdPtr : s.cmdPtr = 0
  errAddr : s.errAddr = 0
  cmdCount : s.cmdCount = 0

/-- The machine's invariant: memory in canonical form and inside the data space (20_memory R70), the registers sound while the block
has power, at their reset values while it is held in reset, and a platform inside its bounds (00_scope R6). -/
structure State.Inv (s : State) : Prop where
  /-- Memory is in its canonical form. -/
  memCanonical : s.mem.wf
  /-- Every byte ever written is at an engine address below MEM_SIZE (20_memory R70, R75). -/
  memInRange : ∀ c ∈ s.mem, c.1 < s.platform.memSize
  /-- STATUS and the fault registers, unless power was removed (60_exceptions R255). -/
  status : s.phase ≠ .unpowered → s.StatusOk
  /-- While the reset input is asserted every register is at its reset value (70_reset R270). -/
  heldInReset : s.phase = .inReset → s.AtReset
  /-- MEM_SIZE and MMIO_BASE are inside the bounds of 00_scope R6. -/
  platformOk : s.platform.wf

end Sys2Proof.Machine
end

