-- ==== Sys2Proof/Certificates/Slice0/Obligations.lean ====
section
/-! DEFINITION. The statements for the provers. Each `def Obligations.<Name> : Prop` names what it states; its docstring says
which rule of spec/ it formalises. Addresses of stores are the command's DST field, absolute (30_encoding R103). Free values
(NAN_RESULT, PAD_RESULT) appear as an existential draw or not at all. -/

namespace Sys2Proof.Claims

open Sys2Proof.Machine

/-! ### Hypotheses about the state and the operands -/

/-- The address is a multiple of `align` and `len` bytes from it are inside the data space (20_memory R75, R76). -/
def Fits (s : State) (a : Word) (align len : Nat) : Prop :=
  a.toNat % align = 0 ∧ a.toNat + len ≤ s.platform.memSize

/-- None of the `n` 4-byte lane accesses from `a` meets a bus error (20_memory R73, R74, R89). -/
def NoBusError (s : State) (a : Word) (n : Nat) (acc : Access) : Prop :=
  ∀ k < n, busErrorAt s.platform (a.toNat + 4 * k) 4 acc = false

/-- The `n` words from address `a` are written and hold `v` (20_memory R71, R73). -/
def Holds (m : Memory) (a n : Nat) (v : Nat → Word) : Prop := ∀ k < n, m.readWord (a + 4 * k) = some (v k)

/-- A source operand that can be read: aligned, in range, no bus error in its `lanes` lanes, its first `values` lanes holding
`v`. An M33 has 10 lanes and 9 values: lane 9 may be unwritten (20_memory R80). -/
structure Source (s : State) (a : Word) (align lanes values : Nat) (v : Nat → Word) : Prop where
  fits : Fits s a align (4 * lanes)
  clean : NoBusError s a lanes .read
  holds : Holds s.mem a.toNat values v

/-- An output operand that can be written: aligned, in range, no bus error. -/
structure Target (s : State) (d : Word) (align lanes : Nat) : Prop where
  fits : Fits s d align (4 * lanes)
  clean : NoBusError s d lanes .write

/-! ### Conclusions: what a command leaves -/

/-- `t` is `s` after a command other than HALT completed with an output of `len` bytes at `d`: CMD_COUNT and CMD_PTR as
40_control R131 says, no other register changed, and EVERY byte of memory outside the output as it was. -/
structure Completed (s t : State) (d len : Nat) : Prop where
  cmdCount : t.cmdCount = s.cmdCount + 1
  cmdPtr : t.cmdPtr = s.cmdPtr + 32
  irqEn : t.irqEn = s.irqEn
  busy : t.busy = s.busy
  done : t.done = s.done
  err : t.err = s.err
  errCode : t.errCode = s.errCode
  errAddr : t.errAddr = s.errAddr
  platform : t.platform = s.platform
  schedule : t.schedule = s.schedule
  phase : t.phase = s.phase
  hostRead : t.hostRead = s.hostRead
  runTouched : t.runTouched = s.runTouched
  unseenWrote : t.unseenWrote = s.unseenWrote
  hostWrote : t.hostWrote = s.hostWrote
  memory : ∀ x, x < d ∨ d + len ≤ x → t.mem.read x = s.mem.read x

/-- `t` is `s` after a fault: the registers of 60_exceptions R230, no other register changed, and every byte of memory outside
`len` bytes at `d` as it was. -/
structure Faulted (s t : State) (code : BitVec 8) (addr : Word) (d len : Nat) : Prop where
  errCode : t.errCode = code
  errAddr : t.errAddr = addr
  err : t.err = true
  busy : t.busy = false
  done : t.done = s.done
  cmdPtr : t.cmdPtr = s.cmdPtr
  cmdCount : t.cmdCount = s.cmdCount
  irqEn : t.irqEn = s.irqEn
  platform : t.platform = s.platform
  schedule : t.schedule = s.schedule
  phase : t.phase = s.phase
  hostRead : t.hostRead = s.hostRead
  runTouched : t.runTouched = s.runTouched
  unseenWrote : t.unseenWrote = s.unseenWrote
  hostWrote : t.hostWrote = s.hostWrote
  memory : ∀ x, x < d ∨ d + len ≤ x → t.mem.read x = s.mem.read x

/-- Two results are the same bits, or both are quiet NaNs whose bits are separate draws (00_scope R16). -/
def SameOrNaN (x y : Word) : Prop := x = y ∨ (isQuietNaN x = true ∧ isQuietNaN y = true)

/-! ### Values of words, by their bits (00_scope R9) -/

/-- Bits 30:0. -/
def pattern (x : Word) : Nat := x.toNat % 2 ^ 31

def IsNaN (x : Word) : Prop := 0x7F800000 < pattern x

def IsInf (x : Word) : Prop := pattern x = 0x7F800000

def IsFinite (x : Word) : Prop := pattern x < 0x7F800000

def IsZero (x : Word) : Prop := pattern x = 0

/-- A finite word's exact value in units of 2^-149. -/
def exactValue (x : Word) : Int := if x.msb then -(magOf (pattern x) : Int) else magOf (pattern x)

/-! ### The 4×4 inverse, in matrix form (43_inverse R180 to R187) -/

/-- Element (i, j) of the block whose top-left element is (R, K) (43_inverse R180). -/
def blk (u : Nat → Word) (R K : Nat) (i j : Nat) : Word := u (4 * (R + i) + (K + j))

/-- Block determinant (43_inverse R181). -/
def blkDet (draw : Nat → Word) (op : Nat) (P : Nat → Nat → Word) : Word :=
  fsub (draw (op + 2)) (fmul (draw op) (P 0 0) (P 1 1)) (fmul (draw (op + 1)) (P 0 1) (P 1 0))

/-- Block adjugate (43_inverse R181). -/
def blkAdj (P : Nat → Nat → Word) (i j : Nat) : Word := if i = j then P (1 - i) (1 - j) else fneg (P i j)

/-- Block product (43_inverse R181). -/
def blkMul (draw : Nat → Word) (op : Nat) (P Q : Nat → Nat → Word) (i j : Nat) : Word :=
  fadd (draw (op + 3 * (2 * i + j) + 2)) (fmul (draw (op + 3 * (2 * i + j))) (P i 0) (Q 0 j))
    (fmul (draw (op + 3 * (2 * i + j) + 1)) (P i 1) (Q 1 j))

/-- A partial block: d·P - M, element by element (43_inverse R184). -/
def blkPartial (draw : Nat → Word) (op : Nat) (d : Word) (P M : Nat → Nat → Word) (i j : Nat) : Word :=
  fsub (draw (op + 2 * (2 * i + j) + 1)) (fmul (draw (op + 2 * (2 * i + j))) d (P i j)) (M i j)

/-- A partial block scaled by the signed reciprocal and placed in adjugate position: element (i, j) of the output block
(43_inverse R186, R187). -/
def blkPlaced (draw : Nat → Word) (op : Nat) (P : Nat → Nat → Word) (r : Nat → Nat → Word) (i j : Nat) : Word :=
  if i = j then fmul (draw (op + 3 * (1 - i))) (P (1 - i) (1 - j)) (r (1 - i) (1 - j))
  else fmul (draw (op + (2 * i + j))) (P i j) (r i j)

/-- Element (i, j) of the inverse of the matrix with lanes `u` (43_inverse R190). -/
def inverseElement (draw : Nat → Word) (u : Nat → Word) (i j : Nat) : Word :=
  let A := blk u 0 0
  let B := blk u 0 2
  let C := blk u 2 0
  let D := blk u 2 2
  let dA := blkDet draw 0 A
  let dB := blkDet draw 3 B
  let dC := blkDet draw 6 C
  let dD := blkDet draw 9 D
  let AB := blkMul draw 12 (blkAdj A) B
  let DC := blkMul draw 24 (blkAdj D) C
  let X := blkPartial draw 36 dD A (blkMul draw 44 B DC)
  let W := blkPartial draw 56 dA D (blkMul draw 64 C AB)
  let Y := blkPartial draw 76 dB C (blkMul draw 84 D (blkAdj AB))
  let Z := blkPartial draw 96 dC B (blkMul draw 104 A (blkAdj DC))
  let tr := fadd (draw 122)
    (fadd (draw 120) (fmul (draw 116) (AB 0 0) (DC 0 0)) (fmul (draw 117) (AB 0 1) (DC 1 0)))
    (fadd (draw 121) (fmul (draw 118) (AB 1 0) (DC 0 1)) (fmul (draw 119) (AB 1 1) (DC 1 1)))
  let det := fsub (draw 126) (fadd (draw 125) (fmul (draw 123) dA dD) (fmul (draw 124) dB dC)) tr
  let r := fun i j => fdiv (draw (127 + (2 * i + j))) (if i = j then 0x3F800000 else 0xBF800000) det
  if i < 2 then (if j < 2 then blkPlaced draw 131 X r i j else blkPlaced draw 135 Y r i (j - 2))
  else (if j < 2 then blkPlaced draw 139 Z r (i - 2) j else blkPlaced draw 143 W r (i - 2) (j - 2))

/-- The dot product of 44_dot R201: four rounded products, summed left to right, no FMA. -/
def dotOf (draw : Nat → Word) (u v : Nat → Word) : Word :=
  fadd (draw 6)
    (fadd (draw 5) (fadd (draw 4) (fmul (draw 0) (u 0) (v 0)) (fmul (draw 1) (u 1) (v 1))) (fmul (draw 2) (u 2) (v 2)))
    (fmul (draw 3) (u 3) (v 3))

/-- The words of a raw command stand at an address. -/
def CommandAt (m : Memory) (a : Nat) (c : RawCommand) : Prop :=
  m.readWord a = some c.w0 ∧ m.readWord (a + 4) = some c.w1 ∧ m.readWord (a + 8) = some c.w2 ∧
  m.readWord (a + 12) = some c.w3 ∧ m.readWord (a + 16) = some c.w4 ∧ m.readWord (a + 20) = some c.w5 ∧
  m.readWord (a + 24) = some c.w6 ∧ m.readWord (a + 28) = some c.w7

/-- The engine has the next turn in `s`, with no move scheduled or its own turn next in the schedule, and takes it in `u` (entry 4). -/
def EngineTurnIn (s u : State) : Prop :=
  (s.schedule = [] ∧ u = s) ∨ ∃ rest, s.schedule = .engine :: rest ∧ u = { s with schedule := rest }

/-- A run goes on and its fetch reaches the decoder with the words `c`: the first lines of 40_control R130, and the host has kept its
duty for these bytes (20_memory R83). -/
structure FetchReads (s : State) (c : RawCommand) : Prop where
  busy : s.busy = true
  operating : s.phase = .operating
  aligned : s.cmdPtr.toNat % 32 = 0
  inRange : s.cmdPtr.toNat + 32 ≤ s.platform.memSize
  clean : busErrorAt s.platform s.cmdPtr.toNat 32 .read = false
  duty : s.hostWroteIn ⟨s.cmdPtr.toNat, 32⟩ = false
  words : CommandAt s.mem s.cmdPtr.toNat c

/-- Memory in `t` is that of `s` after its run, if there is one, was abandoned: unchanged outside the output in progress (70_reset R270).
What is in progress between two steps is the model's inference (entry 10): the output of the command the fetch at CMD_PTR finds, or, where
some bytes of that command were never written, of the command they make with free values for those bytes. -/
structure Abandoned (s t : State) : Prop where
  idle : s.busy = false → t.mem = s.mem
  noOutput : s.outputInProgress = none → t.mem = s.mem
  output : ∀ r, s.outputInProgress = some r → ∀ x, x < r.base ∨ r.base + r.len ≤ x → t.mem.read x = s.mem.read x
  trapped : ∀ code addr, s.fetch = .trap code addr → t.mem = s.mem
  known : ∀ i, s.fetch = .command i →
    ∀ x, (∀ r, outputOf i = some r → x < r.base ∨ r.base + r.len ≤ x) → t.mem.read x = s.mem.read x
  drawn : ∀ y i, s.fetch = .unwritten y → decode s.drawnCommand = .ok i →
    ∀ x, (∀ r, outputOf i = some r → x < r.base ∨ r.base + r.len ≤ x) → t.mem.read x = s.mem.read x

end Sys2Proof.Claims

open Sys2Proof Sys2Proof.Machine Sys2Proof.Claims

/-! ## Encoding -/

/-- Every command, with every value of every field, decodes from its own encoding, as words and as bytes (30_encoding
R100 to R105). -/
def Obligations.DecodeInvertsEncode : Prop :=
  ∀ i : Instr, decode (encode i) = .ok i ∧ decodeBytes (encodeBytes i) = .ok i

/-- A raw command that decodes is the encoding of what it decodes to: no two raw commands mean the same command
(30_encoding R101, R102). -/
def Obligations.EncodeInvertsDecode : Prop :=
  ∀ (c : RawCommand) (i : Instr), decode c = .ok i → encode i = c

/-- 30_encoding R106: an unassigned OPC is fault 0x03, whatever the other fields; an assigned OPC with a nonzero reserved or MBZ
field is fault 0x04; anything else is one of the sixteen commands with its fields. ERR_ADDR is CMD_PTR. -/
def Obligations.DecoderRejectsInOrder : Prop :=
  ∀ (s u : State) (c : RawCommand), EngineTurnIn s u → FetchReads u c →
    (fieldUse (c.w0.toNat % 256) = none →
      ∃ t, step s = .next t ∧ Faulted u t 0x03 u.cmdPtr 0 0) ∧
    (fieldUse (c.w0.toNat % 256) ≠ none → c.wellFormed = false →
      ∃ t, step s = .next t ∧ Faulted u t 0x04 u.cmdPtr 0 0) ∧
    (c.wellFormed = true → ∃ i, decode c = .ok i ∧ encode i = c)

/-- 30_encoding R110: the spec's own encoding examples: each command has the words of its row, the words decode to the command, and
the MUL44 command's bytes are the listed ones. -/
def Obligations.SpecEncodingsDecode : Prop :=
  (encode (.mul44 0x2080 0x2000 0x2040) = ⟨0x11, 0x2080, 0x2000, 0x2040, 0, 0, 0, 0⟩ ∧
    decode ⟨0x11, 0x2080, 0x2000, 0x2040, 0, 0, 0, 0⟩ = .ok (.mul44 0x2080 0x2000 0x2040)) ∧
  (encode (.dotb 0x3000 0x2000 0x2100 50) = ⟨0x41, 0x3000, 0x2000, 0x2100, 0x32, 0, 0, 0⟩ ∧
    decode ⟨0x41, 0x3000, 0x2000, 0x2100, 0x32, 0, 0, 0⟩ = .ok (.dotb 0x3000 0x2000 0x2100 50)) ∧
  (encode (.smul33 0x2040 0x2000 0x40000000) = ⟨0x60, 0x2040, 0x2000, 0x40000000, 0, 0, 0, 0⟩ ∧
    decode ⟨0x60, 0x2040, 0x2000, 0x40000000, 0, 0, 0, 0⟩ = .ok (.smul33 0x2040 0x2000 0x40000000)) ∧
  (encode .halt = ⟨0, 0, 0, 0, 0, 0, 0, 0⟩ ∧ decode ⟨0, 0, 0, 0, 0, 0, 0, 0⟩ = .ok .halt) ∧
  encodeBytes (.mul44 0x2080 0x2000 0x2040) =
    [0x11, 0, 0, 0, 0x80, 0x20, 0, 0, 0, 0x20, 0, 0, 0x40, 0x20, 0, 0,
     0, 0, 0, 0, 0, 0, 0, 0, 0, 0, 0, 0, 0, 0, 0, 0]

/-- A command is well-formed exactly when some platform's data space accepts its operands, and an ill-formed one faults with
0x05 or 0x06 on every platform, writing nothing (20_memory R72, R75, R76; 40_control R132). -/
def Obligations.WellFormedIffSomePlatformAccepts : Prop :=
  (∀ i : Instr, i.wellFormed = true ↔ checkOperands (2 ^ 32) (operandsOf i) = none) ∧
  (∀ (i : Instr) (s : State), s.platform.wf → i.wellFormed = false →
    ∃ t code addr, exec i s = .next t ∧ (code = 0x05 ∨ code = 0x06) ∧ Faulted s t code addr 0 0)

/-! ## The engine step -/

/-- When the engine has the next turn and the words at CMD_PTR decode to a command, a step is exec of it, with what the command read and
wrote recorded (40_control R130; entries 4, 6 and 9). -/
def Obligations.StepRunsDecodedCommand : Prop :=
  ∀ (s u : State) (c : RawCommand) (i : Instr), EngineTurnIn s u → FetchReads u c → decode c = .ok i →
    u.breaksDuty i = false →
    step s =
      match exec i u with
      | .next t => .next (t.noteRun u.cmdPtr i)
      | .fault f => .fault f
      | .refused r => .refused r

/-- The fetch's own faults, in the order of 40_control R130: a misaligned CMD_PTR 0x01, a CMD_PTR past the data space 0x02, a bus
error 0x07; ERR_ADDR is CMD_PTR and no memory changes (60_exceptions R231, R233). -/
def Obligations.FetchFaultsInOrder : Prop :=
  ∀ s u : State, EngineTurnIn s u → u.busy = true → u.phase = .operating →
    (u.cmdPtr.toNat % 32 ≠ 0 → ∃ t, step s = .next t ∧ Faulted u t 0x01 u.cmdPtr 0 0) ∧
    (u.cmdPtr.toNat % 32 = 0 → u.platform.memSize < u.cmdPtr.toNat + 32 →
      ∃ t, step s = .next t ∧ Faulted u t 0x02 u.cmdPtr 0 0) ∧
    (u.cmdPtr.toNat % 32 = 0 → u.cmdPtr.toNat + 32 ≤ u.platform.memSize →
      busErrorAt u.platform u.cmdPtr.toNat 32 .read = true →
      ∃ t, step s = .next t ∧ Faulted u t 0x07 u.cmdPtr 0 0)

/-- 60_exceptions R255: with BUSY = 0 the engine fetches nothing and changes no state; nor does it while the block is held in reset or
without power (entries 19 and 20). -/
def Obligations.IdleEngineChangesNothing : Prop :=
  ∀ s u : State, EngineTurnIn s u → (u.busy = false ∨ u.phase ≠ .operating) → step s = .next u

/-- A command placed for the next step is the one its fetch finds, on every platform that answers that fetch without an error (the
model's own operation, entry 7). -/
def Obligations.PlacedCommandIsFetched : Prop :=
  ∀ (s : State) (nbits w : Nat) (i : Instr), s.platform.wf →
    busErrorAt s.platform s.fetchable.toNat 32 .read = false → decodeTableWord nbits w = some i →
    (s.withFetchWord nbits w).fetch = .command i ∧ (s.withFetchWord nbits w).busy = true ∧
    (s.withFetchWord nbits w).phase = .operating ∧ (s.withFetchWord nbits w).schedule = [] ∧
    (s.withFetchWord nbits w).breaksDuty i = false

/-! ## Invariants -/

/-- Every step keeps the invariant: memory canonical and inside the data space, the STATUS invariants of 10_state R46 in a block with
power, every register at its reset value while the block is held in reset (70_reset R270), and the platform inside its bounds. -/
def Obligations.StepKeepsInvariant : Prop :=
  ∀ s t : State, s.Inv → step s = .next t → t.Inv

/-- The state after reset meets the invariant, on every platform inside its bounds (70_reset R270, 00_scope R6). -/
def Obligations.ResetMeetsInvariant : Prop :=
  State.reset.Inv ∧ ∀ p : Platform, p.wf → (State.resetOn p).Inv

/-- 70_reset R270: the value of every register after reset, the irq line low, and the ID a host then reads. -/
def Obligations.ResetValues : Prop :=
  ∀ p : Platform,
    (State.resetOn p).irqEn = false ∧ (State.resetOn p).busy = false ∧ (State.resetOn p).done = false ∧
    (State.resetOn p).err = false ∧ (State.resetOn p).errCode = 0 ∧ (State.resetOn p).cmdPtr = 0 ∧
    (State.resetOn p).errAddr = 0 ∧ (State.resetOn p).cmdCount = 0 ∧ (State.resetOn p).irq = false ∧
    (State.resetOn p).regValue .id = 0x4D450100 ∧ (State.resetOn p).mem = []

/-- 70_reset R274: an accepted START sets BUSY, and from then on STATUS never shows BUSY = DONE = ERR = 0, whatever moves, but for a
reset, a loss of power (entry 20) and a host write that clears the DONE or ERR that is set. -/
def Obligations.EndOfRunIsNotMissed : Prop :=
  (∀ (s : State) (w : Fin 64) (v : Word) (rest : List Move), s.phase = .operating →
    s.platform.regAddr w = s.platform.mmioBase + 0x04 → s.schedule = .writeReg w v :: rest → v.getLsbD 0 = true → v.getLsbD 2 = false →
    ∃ t, step s = .next t ∧ t.statusWord.getLsbD 0 = true) ∧
  ∀ s t : State, step s = .next t → s.statusWord.extractLsb' 0 3 ≠ 0 →
    (∀ rest, s.schedule ≠ .assertReset :: rest ∧ s.schedule ≠ .losePower :: rest) →
    (∀ w v rest, s.platform.regAddr w = s.platform.mmioBase + 0x04 → s.schedule = .writeReg w v :: rest →
      v.getLsbD 2 = false) →
    (∀ w v rest, s.platform.regAddr w = s.platform.mmioBase + 0x08 → s.schedule = .writeReg w v :: rest →
      ¬ (v.getLsbD 1 = true ∧ s.done = true) ∧ ¬ (v.getLsbD 2 = true ∧ s.err = true)) →
    t.statusWord.extractLsb' 0 3 ≠ 0

/-! ## Whole-machine rules over all commands -/

/-- 40_control R131, R135: a command that answers a next state changed the registers by completion or by fault entry and in no
other way, and never the platform, IRQ_EN or what belongs to the host. -/
def Obligations.RegistersChangeOnlyByCompletionOrFault : Prop :=
  ∀ (i : Instr) (s t : State), exec i s = .next t →
    (t.irqEn = s.irqEn ∧ t.platform = s.platform ∧ t.schedule = s.schedule ∧ t.phase = s.phase ∧
      t.hostRead = s.hostRead ∧ t.runTouched = s.runTouched ∧ t.unseenWrote = s.unseenWrote ∧ t.hostWrote = s.hostWrote) ∧
    ((t.cmdCount = s.cmdCount + 1 ∧ t.cmdPtr = s.cmdPtr + 32 ∧ t.err = s.err ∧ t.errCode = s.errCode ∧
        t.errAddr = s.errAddr ∧
        (i = .halt → t.busy = false ∧ t.done = true) ∧ (i ≠ .halt → t.busy = s.busy ∧ t.done = s.done)) ∨
      (t.cmdCount = s.cmdCount ∧ t.cmdPtr = s.cmdPtr ∧ t.err = true ∧ t.busy = false ∧ t.done = s.done ∧
        (t.errCode = 0x05 ∨ t.errCode = 0x06 ∨ t.errCode = 0x07)))

/-- No command changes a byte of memory outside its output operand, and HALT and NOP change none (00_scope R3, 20_memory
R74). -/
def Obligations.CommandsWriteOnlyTheirOutput : Prop :=
  ∀ (i : Instr) (s t : State), exec i s = .next t →
    ∀ x, (∀ r, outputOf i = some r → x < r.base ∨ r.base + r.len ≤ x) → t.mem.read x = s.mem.read x

/-- 60_exceptions R232: a command that raises a fault leaves CMD_PTR at itself and is not counted; unless the fault is a bus
error it has changed no byte of memory. -/
def Obligations.FaultsArePrecise : Prop :=
  ∀ (i : Instr) (s t : State), exec i s = .next t → s.err = false → t.err = true →
    t.cmdPtr = s.cmdPtr ∧ t.cmdCount = s.cmdCount ∧ t.busy = false ∧ t.done = s.done ∧
    (t.errCode ≠ 0x07 → t.mem = s.mem)

/-- 00_scope R3, 40_control R135: what a command does to memory depends on memory, the platform and the draws alone: no data value
persists in the engine and no register of the block is read. -/
def Obligations.CommandsIgnoreTheRegisters : Prop :=
  ∀ (i : Instr) (s s' : State), s.mem = s'.mem → s.platform = s'.platform → s.draws = s'.draws →
    (∀ t, exec i s = .next t → ∃ t', exec i s' = .next t' ∧ t'.mem = t.mem ∧ t'.draws = t.draws) ∧
    (∀ f, exec i s = .fault f → exec i s' = .fault f)

/-- Every command answers a next state, unless a lane it uses of a source operand was never written (20_memory R80); no command is
refused. -/
def Obligations.CommandsStopOnlyOnUnwrittenInput : Prop :=
  ∀ (i : Instr) (s : State),
    (∃ t, exec i s = .next t) ∨
    (∃ x o k, exec i s = .fault (.uninitialised x) ∧ s.mem.readWord x = none ∧
      o ∈ (operandsOf i).dropLast ∧ k < o.kind.valueLanes ∧ x = o.base.toNat + 4 * k)

/-! ## Operand faults and bus errors -/

/-- 40_control R132: the operands are checked in the order SRCA, SRCB, DST, each for alignment and then range; the first that fails
gives 0x05 or 0x06 with its address field in ERR_ADDR, and nothing is written. -/
def Obligations.OperandFaultsInOrder : Prop :=
  ∀ (i : Instr) (s : State) (pre post : List Operand) (o : Operand), operandsOf i = pre ++ o :: post →
    (∀ p ∈ pre, Fits s p.base p.kind.align p.kind.footprint) →
    (o.base.toNat % o.kind.align ≠ 0 → ∃ t, exec i s = .next t ∧ Faulted s t 0x05 o.base 0 0) ∧
    (o.base.toNat % o.kind.align = 0 → s.platform.memSize < o.base.toNat + o.kind.footprint →
      ∃ t, exec i s = .next t ∧ Faulted s t 0x06 o.base 0 0)

/-- 20_memory R89: where a source operand's read meets a bus error, every command but DOTB faults with 0x07 before any write, with the
base of a source operand that met one in ERR_ADDR. -/
def Obligations.SourceBusErrorFaultsBeforeAnyWrite : Prop :=
  ∀ (i : Instr) (s : State), (∀ d a v n, i ≠ .dotb d a v n) →
    (∀ o ∈ operandsOf i, Fits s o.base o.kind.align o.kind.footprint) →
    (∃ o ∈ (operandsOf i).dropLast, ¬ NoBusError s o.base o.kind.footprintLanes .read) →
    ∃ t o, exec i s = .next t ∧ o ∈ (operandsOf i).dropLast ∧
      ¬ NoBusError s o.base o.kind.footprintLanes .read ∧ Faulted s t 0x07 o.base 0 0

/-- 20_memory R89: where the store meets a bus error, every command but DOTB faults with 0x07 and the output's base in ERR_ADDR;
only bytes of the output may have changed. -/
def Obligations.OutputBusErrorTearsOnlyTheOutput : Prop :=
  ∀ (i : Instr) (s : State) (srcs : List Operand) (dst : Operand), (∀ d a v n, i ≠ .dotb d a v n) →
    operandsOf i = srcs ++ [dst] →
    (∀ o ∈ operandsOf i, Fits s o.base o.kind.align o.kind.footprint) →
    (∀ o ∈ srcs, NoBusError s o.base o.kind.footprintLanes .read) →
    (∀ o ∈ srcs, ∀ k < o.kind.valueLanes, (s.mem.readWord (o.base.toNat + 4 * k)).isSome) →
    ¬ NoBusError s dst.base dst.kind.footprintLanes .write →
    ∃ t, exec i s = .next t ∧ Faulted s t 0x07 dst.base dst.base.toNat dst.kind.footprint

/-- DOTB's bus errors. One in A gives A's base; else one in the read of a vector gives the first such vector, also where an earlier
element's write would meet one; neither leaves anything written. Else one in the write of an element gives the first such element, and only
the output array may have changed. That read errors come first and change no memory is 20_memory R89, 60_exceptions R232 and R233, what
ERR_ADDR holds of an erring element R231. Which of several errors of one kind is reported (A before the vectors, the first vector, the
first write) is the model's inference from the order of 44_dot R202 (DEDUCED, entry 12). -/
def Obligations.DotbBusErrorsNameTheElement : Prop :=
  ∀ (s : State) (d a v n : Word), s.platform.wf → n ≠ 0 →
    Fits s a 16 16 → Fits s v 16 (16 * n.toNat) → Fits s d 4 (4 * n.toNat) →
    (¬ NoBusError s a 4 .read → ∃ t, exec (.dotb d a v n) s = .next t ∧ Faulted s t 0x07 a 0 0) ∧
    (NoBusError s a 4 .read → ∀ i < n.toNat,
      (∀ j < i, NoBusError s (v + BitVec.ofNat 32 (16 * j)) 4 .read) →
      ¬ NoBusError s (v + BitVec.ofNat 32 (16 * i)) 4 .read →
      ∃ t, exec (.dotb d a v n) s = .next t ∧ Faulted s t 0x07 (v + BitVec.ofNat 32 (16 * i)) 0 0) ∧
    (∀ u : Nat → Word, NoBusError s a 4 .read → Holds s.mem a.toNat 4 u →
      (∀ j < n.toNat, NoBusError s (v + BitVec.ofNat 32 (16 * j)) 4 .read) → ∀ i < n.toNat,
      (∀ j < i, NoBusError s (d + BitVec.ofNat 32 (4 * j)) 1 .write) →
      ¬ NoBusError s (d + BitVec.ofNat 32 (4 * i)) 1 .write →
      (∀ k < 4 * (i + 1), (s.mem.readWord (v.toNat + 4 * k)).isSome) →
      ∃ t, exec (.dotb d a v n) s = .next t ∧
        Faulted s t 0x07 (d + BitVec.ofNat 32 (4 * i)) d.toNat (4 * n.toNat))

/-! ## The commands: results, completion and frame -/

/-- HALT completes and ends the run; memory and every other register stay (40_control R131, R136). -/
def Obligations.HaltEndsTheRun : Prop :=
  ∀ s : State, exec .halt s =
    .next { s with cmdCount := s.cmdCount + 1, cmdPtr := s.cmdPtr + 32, busy := false, done := true }

/-- NOP completes and does nothing else (40_control R138). -/
def Obligations.NopOnlyCompletes : Prop :=
  ∀ s : State, exec .nop s = .next { s with cmdCount := s.cmdCount + 1, cmdPtr := s.cmdPtr + 32 }

/-- MUL33: lane 3i + j is fmul, then two ffma, in increasing k; lane 9 gets some value (41_multiply R150). The inputs are read as they
stood before, so the output may overlap them (20_memory R77). -/
def Obligations.Mul33ComputesTheProduct : Prop :=
  ∀ (s : State) (d a b : Word) (u v : Nat → Word),
    Source s a 32 10 9 u → Source s b 32 10 9 v → Target s d 32 10 →
    ∃ (t : State) (draw : Nat → Nat → Word), exec (.mul33 d a b) s = .next t ∧ Completed s t d.toNat 40 ∧
      (t.mem.readWord (d.toNat + 36)).isSome ∧
      ∀ i < 3, ∀ j < 3, t.mem.readWord (d.toNat + 4 * (3 * i + j)) =
        some (ffma (draw (3 * i + j) 2) (u (3 * i + 2)) (v (6 + j))
          (ffma (draw (3 * i + j) 1) (u (3 * i + 1)) (v (3 + j))
            (fmul (draw (3 * i + j) 0) (u (3 * i)) (v j))))

/-- MUL44: lane 4i + j is fmul, then three ffma, in increasing k (41_multiply R152). -/
def Obligations.Mul44ComputesTheProduct : Prop :=
  ∀ (s : State) (d a b : Word) (u v : Nat → Word),
    Source s a 16 16 16 u → Source s b 16 16 16 v → Target s d 16 16 →
    ∃ (t : State) (draw : Nat → Nat → Word), exec (.mul44 d a b) s = .next t ∧ Completed s t d.toNat 64 ∧
      ∀ i < 4, ∀ j < 4, t.mem.readWord (d.toNat + 4 * (4 * i + j)) =
        some (ffma (draw (4 * i + j) 3) (u (4 * i + 3)) (v (12 + j))
          (ffma (draw (4 * i + j) 2) (u (4 * i + 2)) (v (8 + j))
            (ffma (draw (4 * i + j) 1) (u (4 * i + 1)) (v (4 + j))
              (fmul (draw (4 * i + j) 0) (u (4 * i)) (v j)))))

/-- MUL44V: lane i is fmul(x0, a[i][0]), then ffma(xk, a[i][k], acc) in increasing k (41_multiply R154). -/
def Obligations.Mul44vComputesTheProduct : Prop :=
  ∀ (s : State) (d a x : Word) (u v : Nat → Word),
    Source s a 16 16 16 u → Source s x 16 4 4 v → Target s d 16 4 →
    ∃ (t : State) (draw : Nat → Nat → Word), exec (.mul44v d a x) s = .next t ∧ Completed s t d.toNat 16 ∧
      ∀ i < 4, t.mem.readWord (d.toNat + 4 * i) =
        some (ffma (draw i 3) (v 3) (u (4 * i + 3))
          (ffma (draw i 2) (v 2) (u (4 * i + 2))
            (ffma (draw i 1) (v 1) (u (4 * i + 1))
              (fmul (draw i 0) (v 0) (u (4 * i))))))

/-- TRN33 moves lanes by the map of 42_transpose R171, bit for bit; lane 9 gets some value (00_scope R19, R22). -/
def Obligations.Trn33MovesLanes : Prop :=
  ∀ (s : State) (d a : Word) (u : Nat → Word), Source s a 32 10 9 u → Target s d 32 10 →
    ∃ t, exec (.trn33 d a) s = .next t ∧ Completed s t d.toNat 40 ∧
      Holds t.mem d.toNat 9 (fun l => u ([0, 3, 6, 1, 4, 7, 2, 5, 8].getD l 0)) ∧
      (t.mem.readWord (d.toNat + 36)).isSome

/-- TRN44 moves lanes by the map of 42_transpose R173, bit for bit (00_scope R19). -/
def Obligations.Trn44MovesLanes : Prop :=
  ∀ (s : State) (d a : Word) (u : Nat → Word), Source s a 16 16 16 u → Target s d 16 16 →
    ∃ t, exec (.trn44 d a) s = .next t ∧ Completed s t d.toNat 64 ∧
      Holds t.mem d.toNat 16 (fun l => u (4 * (l % 4) + l / 4))

/-- INV44 stores the sequence of 43_inverse R180 to R187, whatever the values: no singular or non-finite input stops it
(43_inverse R191). -/
def Obligations.Inv44ComputesTheBlockInverse : Prop :=
  ∀ (s : State) (d a : Word) (u : Nat → Word), Source s a 16 16 16 u → Target s d 16 16 →
    ∃ (t : State) (draw : Nat → Word), exec (.inv44 d a) s = .next t ∧ Completed s t d.toNat 64 ∧
      ∀ i < 4, ∀ j < 4, t.mem.readWord (d.toNat + 4 * (4 * i + j)) = some (inverseElement draw u i j)

/-- DOT stores the left-to-right dot product of 44_dot R201 at DST (44_dot R200). -/
def Obligations.DotComputesTheSum : Prop :=
  ∀ (s : State) (d a b : Word) (u v : Nat → Word),
    Source s a 16 4 4 u → Source s b 16 4 4 v → Target s d 4 1 →
    ∃ (t : State) (draw : Nat → Word), exec (.dot d a b) s = .next t ∧ Completed s t d.toNat 4 ∧
      t.mem.readWord d.toNat = some (dotOf draw u v)

/-- DOTB with N = 0 completes with no memory access, its three addresses still checked (44_dot R202). -/
def Obligations.DotbOfNothingCompletes : Prop :=
  ∀ (s : State) (d a v : Word), Fits s a 16 16 → Fits s v 16 0 → Fits s d 4 0 →
    ∃ t, exec (.dotb d a v 0) s = .next t ∧ Completed s t d.toNat 0 ∧ t.mem = s.mem

/-- DOTB reads A once, then reads element i and writes element i, in increasing order, each element read from the memory that the
earlier writes left, whatever the overlap (44_dot R201, R202). -/
def Obligations.DotbRunsInElementOrder : Prop :=
  ∀ (s : State) (d a v n : Word) (u : Nat → Word), n ≠ 0 → Source s a 16 4 4 u →
    Fits s v 16 (16 * n.toNat) → NoBusError s v (4 * n.toNat) .read →
    (∀ k < 4 * n.toNat, (s.mem.readWord (v.toNat + 4 * k)).isSome) →
    Target s d 4 n.toNat →
    ∃ (t : State) (draw : Nat → Nat → Word) (ms : Nat → Memory) (el : Nat → Nat → Word),
      exec (.dotb d a v n) s = .next t ∧ Completed s t d.toNat (4 * n.toNat) ∧
      ms 0 = s.mem ∧ ms n.toNat = t.mem ∧
      ∀ i < n.toNat, Holds (ms i) (v.toNat + 16 * i) 4 (el i) ∧
        ms (i + 1) = (ms i).writeWord (d.toNat + 4 * i) (dotOf (draw i) u (el i))

/-- ADD33: lanes 0 to 8 are the sums of the same lanes; lane 9 gets some value (45_add R210). -/
def Obligations.Add33AddsLanes : Prop :=
  ∀ (s : State) (d a b : Word) (u v : Nat → Word),
    Source s a 32 10 9 u → Source s b 32 10 9 v → Target s d 32 10 →
    ∃ (t : State) (draw : Nat → Word), exec (.add33 d a b) s = .next t ∧ Completed s t d.toNat 40 ∧
      Holds t.mem d.toNat 9 (fun l => fadd (draw l) (u l) (v l)) ∧ (t.mem.readWord (d.toNat + 36)).isSome

/-- ADD44: each lane is the sum of the same lanes (45_add R212). -/
def Obligations.Add44AddsLanes : Prop :=
  ∀ (s : State) (d a b : Word) (u v : Nat → Word),
    Source s a 16 16 16 u → Source s b 16 16 16 v → Target s d 16 16 →
    ∃ (t : State) (draw : Nat → Word), exec (.add44 d a b) s = .next t ∧ Completed s t d.toNat 64 ∧
      Holds t.mem d.toNat 16 (fun l => fadd (draw l) (u l) (v l))

/-- ADDV4: each lane is the sum of the same lanes (45_add R214). -/
def Obligations.Addv4AddsLanes : Prop :=
  ∀ (s : State) (d a b : Word) (u v : Nat → Word),
    Source s a 16 4 4 u → Source s b 16 4 4 v → Target s d 16 4 →
    ∃ (t : State) (draw : Nat → Word), exec (.addv4 d a b) s = .next t ∧ Completed s t d.toNat 16 ∧
      Holds t.mem d.toNat 4 (fun l => fadd (draw l) (u l) (v l))

/-- SMUL33: lanes 0 to 8 times the immediate; lane 9 gets some value (46_scalar_multiply R220). -/
def Obligations.Smul33ScalesLanes : Prop :=
  ∀ (s : State) (d a imm : Word) (u : Nat → Word), Source s a 32 10 9 u → Target s d 32 10 →
    ∃ (t : State) (draw : Nat → Word), exec (.smul33 d a imm) s = .next t ∧ Completed s t d.toNat 40 ∧
      Holds t.mem d.toNat 9 (fun l => fmul (draw l) (u l) imm) ∧ (t.mem.readWord (d.toNat + 36)).isSome

/-- SMUL44: each lane times the immediate (46_scalar_multiply R222). -/
def Obligations.Smul44ScalesLanes : Prop :=
  ∀ (s : State) (d a imm : Word) (u : Nat → Word), Source s a 16 16 16 u → Target s d 16 16 →
    ∃ (t : State) (draw : Nat → Word), exec (.smul44 d a imm) s = .next t ∧ Completed s t d.toNat 64 ∧
      Holds t.mem d.toNat 16 (fun l => fmul (draw l) (u l) imm)

/-- SMULV4: each lane times the immediate (46_scalar_multiply R224). -/
def Obligations.Smulv4ScalesLanes : Prop :=
  ∀ (s : State) (d a imm : Word) (u : Nat → Word), Source s a 16 4 4 u → Target s d 16 4 →
    ∃ (t : State) (draw : Nat → Word), exec (.smulv4 d a imm) s = .next t ∧ Completed s t d.toNat 16 ∧
      Holds t.mem d.toNat 4 (fun l => fmul (draw l) (u l) imm)

/-! ## Laws the spec states of the results -/

/-- 42_transpose R174: a transpose of a transpose gives the matrix back bit for bit, in lanes 0 to 15 of an M44 and 0 to 8 of an M33
(whose lane 9 then holds some value), wherever the two results are put. -/
def Obligations.TransposeTwiceIsIdentity : Prop :=
  (∀ (s : State) (e d a : Word) (u : Nat → Word), Source s a 16 16 16 u → Target s d 16 16 →
    NoBusError s d 16 .read → Target s e 16 16 →
    ∃ t t', exec (.trn44 d a) s = .next t ∧ exec (.trn44 e d) t = .next t' ∧ Holds t'.mem e.toNat 16 u) ∧
  (∀ (s : State) (e d a : Word) (u : Nat → Word), Source s a 32 10 9 u → Target s d 32 10 →
    NoBusError s d 10 .read → Target s e 32 10 →
    ∃ t t', exec (.trn33 d a) s = .next t ∧ exec (.trn33 e d) t = .next t' ∧ Holds t'.mem e.toNat 9 u ∧
      (t'.mem.readWord (e.toNat + 36)).isSome)

/-- 41_multiply R155: MUL44V with x agrees with column 0 of a MUL44 whose second matrix has x as column 0, but for the bits of
NaNs. -/
def Obligations.MatrixVectorIsAColumnOfTheProduct : Prop :=
  ∀ (s t t' : State) (d d' a b x : Word) (v w : Nat → Word),
    exec (.mul44 d a b) s = .next t → exec (.mul44v d' a x) s = .next t' →
    Completed s t d.toNat 64 → Completed s t' d'.toNat 16 →
    Holds s.mem b.toNat 16 v → Holds s.mem x.toNat 4 w → (∀ k < 4, v (4 * k) = w k) →
    ∀ i < 4, ∃ y y', t.mem.readWord (d.toNat + 16 * i) = some y ∧ t'.mem.readWord (d'.toNat + 4 * i) = some y' ∧
      SameOrNaN y y'

/-- 45_add R216: swapping the inputs of an add gives the same bits in every lane that is not NaN, and a NaN stays NaN. -/
def Obligations.AddIsCommutative : Prop :=
  ∀ (s t t' : State) (d a b : Word) (i j : Instr) (lanes : Nat),
    ((i = .add33 d a b ∧ j = .add33 d b a ∧ lanes = 9) ∨ (i = .add44 d a b ∧ j = .add44 d b a ∧ lanes = 16) ∨
      (i = .addv4 d a b ∧ j = .addv4 d b a ∧ lanes = 4)) →
    exec i s = .next t → exec j s = .next t' → t.cmdPtr ≠ s.cmdPtr → t'.cmdPtr ≠ s.cmdPtr →
    ∀ l < lanes, ∃ y y', t.mem.readWord (d.toNat + 4 * l) = some y ∧ t'.mem.readWord (d.toNat + 4 * l) = some y' ∧
      SameOrNaN y y'

/-- 42_transpose R175, of the functions TRN44, MUL44, TRN33 and MUL33 apply to their staged lanes: the product of the transposes is
the transpose of the product in the other order, but for the bits of NaNs. -/
def Obligations.TransposeReversesTheProduct : Prop :=
  (∀ (draw draw' : Nat → Word) (a b : Lanes), ∀ l < 16,
    SameOrNaN (lane (product44 draw (transpose44 a) (transpose44 b)) l) (lane (transpose44 (product44 draw' b a)) l)) ∧
  (∀ (draw draw' : Nat → Word) (a b : Lanes), ∀ l < 9,
    SameOrNaN (lane (product33 draw (transpose33 a) (transpose33 b)) l) (lane (transpose33 (product33 draw' b a)) l))

/-- 41_multiply R156, of the functions MUL44 and MUL33 apply to their staged lanes: for a matrix of finite entries, the product with
the identity, on either side, is the matrix bit for bit, except that an entry -0 may come out as +0. -/
def Obligations.IdentityLawForFiniteMatrices : Prop :=
  (∀ (draw : Nat → Word) (m : Lanes), (∀ l < 16, IsFinite (lane m l)) →
    ∀ l < 16, ∀ y, (y = lane (product44 draw m [0x3F800000, 0, 0, 0, 0, 0x3F800000, 0, 0, 0, 0, 0x3F800000, 0, 0, 0, 0, 0x3F800000]) l ∨
        y = lane (product44 draw [0x3F800000, 0, 0, 0, 0, 0x3F800000, 0, 0, 0, 0, 0x3F800000, 0, 0, 0, 0, 0x3F800000] m) l) →
      y = lane m l ∨ (lane m l = 0x80000000 ∧ y = 0)) ∧
  (∀ (draw : Nat → Word) (m : Lanes), (∀ l < 9, IsFinite (lane m l)) →
    ∀ l < 9, ∀ y, (y = lane (product33 draw m [0x3F800000, 0, 0, 0, 0x3F800000, 0, 0, 0, 0x3F800000]) l ∨
        y = lane (product33 draw [0x3F800000, 0, 0, 0, 0x3F800000, 0, 0, 0, 0x3F800000] m) l) →
      y = lane m l ∨ (lane m l = 0x80000000 ∧ y = 0))

/-- 44_dot R203: if DOTB's output does not overlap its vector array, each element is what DOT with that vector would have written
before the DOTB ran, but for the bits of NaNs. -/
def Obligations.DotbAgreesWithDot : Prop :=
  ∀ (s t t' : State) (d d' a v n b : Word) (i : Nat), i < n.toNat →
    exec (.dotb d a v n) s = .next t → t.cmdPtr ≠ s.cmdPtr →
    b.toNat = v.toNat + 16 * i →
    (d.toNat + 4 * n.toNat ≤ v.toNat ∨ v.toNat + 16 * n.toNat ≤ d.toNat) →
    exec (.dot d' a b) s = .next t' → t'.cmdPtr ≠ s.cmdPtr →
    ∃ y y', t.mem.readWord (d.toNat + 4 * i) = some y ∧ t'.mem.readWord d'.toNat = some y' ∧ SameOrNaN y y'

/-! ## Binary32 arithmetic -/

/-- 00_scope R10: the rounded magnitude of n / d (in units of 2^-149) is the nearest binary32 magnitude, a tie going to the even one;
it is infinite exactly from the point half way past the largest finite value on. -/
def Obligations.RoundingIsToNearestEven : Prop :=
  ∀ n d : Nat, 0 < d →
    (roundedPattern n d = 0x7F800000 ↔ (2 ^ 25 - 1) * 2 ^ 252 * d ≤ n) ∧
    (roundedPattern n d < 0x7F800000 → ∀ p < 0x7F800000,
      ((n : Int) - magOf (roundedPattern n d) * d).natAbs < ((n : Int) - magOf p * d).natAbs ∨
      (((n : Int) - magOf (roundedPattern n d) * d).natAbs = ((n : Int) - magOf p * d).natAbs ∧
        (p = roundedPattern n d ∨ roundedPattern n d % 2 = 0)))

/-- 00_scope R16: whenever an operation's result is a NaN it is the quiet NaN of its own draw, bits 30:22 all ones, and every quiet NaN
is that of some draw. -/
def Obligations.NaNResultsAreTheirDraw : Prop :=
  (∀ draw a b c : Word,
    (IsNaN (fmul draw a b) → fmul draw a b = quietNaN draw) ∧ (IsNaN (fadd draw a b) → fadd draw a b = quietNaN draw) ∧
    (IsNaN (ffma draw a b c) → ffma draw a b c = quietNaN draw) ∧
    (IsNaN (fdiv draw a b) → fdiv draw a b = quietNaN draw) ∧
    IsNaN (quietNaN draw) ∧ ∀ k, 22 ≤ k → k ≤ 30 → (quietNaN draw).getLsbD k = true) ∧
  (∀ q : Word, (∀ k, 22 ≤ k → k ≤ 30 → q.getLsbD k = true) → quietNaN q = q)

/-- 00_scope R11: multiplication. NaN for a NaN operand or ∞ × 0; else an infinite operand gives an infinity; else the rounded exact
product; the sign of a non-NaN result is the exclusive-or of the operands'. -/
def Obligations.MultiplicationFollowsItsCases : Prop :=
  ∀ draw a b : Word,
    (IsNaN (fmul draw a b) ↔ IsNaN a ∨ IsNaN b ∨ (IsInf a ∧ IsZero b) ∨ (IsZero a ∧ IsInf b)) ∧
    (¬ IsNaN (fmul draw a b) → (fmul draw a b).msb = (a.msb ^^ b.msb)) ∧
    (¬ IsNaN (fmul draw a b) → (IsInf a ∨ IsInf b) → IsInf (fmul draw a b)) ∧
    (IsFinite a → IsFinite b →
      pattern (fmul draw a b) = roundedPattern (magOf (pattern a) * magOf (pattern b)) (2 ^ 149))

/-- 00_scope R12: addition and subtraction. NaN for a NaN operand or opposite infinities; else an infinite operand is the result; a zero
sum is -0 if both operands are -0 and +0 otherwise; else the rounded exact sum with its sign. -/
def Obligations.AdditionFollowsItsCases : Prop :=
  ∀ draw a b : Word,
    (IsNaN (fadd draw a b) ↔ IsNaN a ∨ IsNaN b ∨ (IsInf a ∧ IsInf b ∧ a.msb ≠ b.msb)) ∧
    (¬ IsNaN (fadd draw a b) → (IsInf a → fadd draw a b = a) ∧ (IsInf b → fadd draw a b = b)) ∧
    (IsFinite a → IsFinite b → exactValue a + exactValue b = 0 →
      fadd draw a b = if a = 0x80000000 ∧ b = 0x80000000 then 0x80000000 else 0) ∧
    (IsFinite a → IsFinite b → exactValue a + exactValue b ≠ 0 →
      (fadd draw a b).msb = decide (exactValue a + exactValue b < 0) ∧
      pattern (fadd draw a b) = roundedPattern (exactValue a + exactValue b).natAbs 1) ∧
    fsub draw a b = fadd draw a (fneg b)

/-- 00_scope R13: the fused multiply-add. NaN for a NaN operand, for ∞ × 0 whatever c is, and for opposite infinities; else an infinite
product or c; else a × b + c exactly, rounded once, a zero result signed by the rule of addition. -/
def Obligations.FusedMultiplyAddFollowsItsCases : Prop :=
  ∀ draw a b c : Word,
    (IsNaN (ffma draw a b c) ↔ IsNaN a ∨ IsNaN b ∨ IsNaN c ∨ (IsInf a ∧ IsZero b) ∨ (IsZero a ∧ IsInf b) ∨
      ((IsInf a ∨ IsInf b) ∧ IsInf c ∧ (a.msb ^^ b.msb) ≠ c.msb)) ∧
    (¬ IsNaN (ffma draw a b c) → (IsInf a ∨ IsInf b) →
      IsInf (ffma draw a b c) ∧ (ffma draw a b c).msb = (a.msb ^^ b.msb)) ∧
    (¬ IsNaN (ffma draw a b c) → IsInf c → ffma draw a b c = c) ∧
    (IsFinite a → IsFinite b → IsFinite c → exactValue a * exactValue b + exactValue c * 2 ^ 149 = 0 →
      ffma draw a b c =
        if (a.msb ^^ b.msb) = true ∧ c.msb = true then 0x80000000 else 0) ∧
    (IsFinite a → IsFinite b → IsFinite c → exactValue a * exactValue b + exactValue c * 2 ^ 149 ≠ 0 →
      (ffma draw a b c).msb = decide (exactValue a * exactValue b + exactValue c * 2 ^ 149 < 0) ∧
      pattern (ffma draw a b c) =
        roundedPattern (exactValue a * exactValue b + exactValue c * 2 ^ 149).natAbs (2 ^ 149))

/-- 00_scope R14: division. NaN for a NaN operand, 0 / 0 and ∞ / ∞; x / 0 is an infinity for any other x; a finite over an infinite value
is a zero; else the rounded exact quotient; the sign of a non-NaN result is the exclusive-or of the operands'. That an infinity over
a finite value is an infinity is DEDUCED (entry 14). -/
def Obligations.DivisionFollowsItsCases : Prop :=
  ∀ draw a b : Word,
    (IsNaN (fdiv draw a b) ↔ IsNaN a ∨ IsNaN b ∨ (IsZero a ∧ IsZero b) ∨ (IsInf a ∧ IsInf b)) ∧
    (¬ IsNaN (fdiv draw a b) → (fdiv draw a b).msb = (a.msb ^^ b.msb)) ∧
    (¬ IsNaN (fdiv draw a b) → (IsZero b ∨ IsInf a) → IsInf (fdiv draw a b)) ∧
    (IsFinite a → IsInf b → IsZero (fdiv draw a b)) ∧
    (IsFinite a → IsFinite b → ¬ IsZero b →
      pattern (fdiv draw a b) = roundedPattern (magOf (pattern a) * 2 ^ 149) (magOf (pattern b))) ∧
    fdiv draw 0x3F800000 0 = 0x7F800000 ∧ fdiv draw 0x3F800000 0x80000000 = 0xFF800000

/-- 00_scope R15: fneg inverts bit 31 and changes no other bit, so it makes no NaN of its own. -/
def Obligations.NegationFlipsTheSignBit : Prop :=
  ∀ a : Word, (∀ k < 31, (fneg a).getLsbD k = a.getLsbD k) ∧ (fneg a).msb = !a.msb ∧ (IsNaN (fneg a) ↔ IsNaN a)

/-! ## The host, the reset input and loss of power -/

/-- 10_state R52: a host write of START (bit 0 = 1, bit 2 = 0) to CTRL. With BUSY = 0 a run begins; with BUSY = 1 only IRQ_EN is
written. It makes none of the engine's writes visible (20_memory R84; `unseenWrote`, entry 9). -/
def Obligations.StartBeginsARun : Prop :=
  ∀ (s : State) (w : Fin 64) (v : Word) (rest : List Move), s.phase = .operating →
    s.platform.regAddr w = s.platform.mmioBase + 0x04 → s.schedule = .writeReg w v :: rest → v.getLsbD 0 = true → v.getLsbD 2 = false →
    ∃ t, step s = .next t ∧ t.irqEn = v.getLsbD 1 ∧ t.mem = s.mem ∧ t.cmdPtr = s.cmdPtr ∧
      t.platform = s.platform ∧ t.schedule = rest ∧ t.phase = s.phase ∧ t.unseenWrote = s.unseenWrote ∧
      (s.busy = false → t.busy = true ∧ t.done = false ∧ t.err = false ∧ t.errCode = 0 ∧ t.errAddr = 0 ∧
        t.cmdCount = 0) ∧
      (s.busy = true → t.busy = true ∧ t.done = s.done ∧ t.err = s.err ∧ t.errCode = s.errCode ∧
        t.errAddr = s.errAddr ∧ t.cmdCount = s.cmdCount)

/-- 10_state R53, 70_reset R270, R271: the reset input, and a host write to CTRL with bit 2 = 1 whatever its other bits, put every
register at its reset value: the reset input in any state, the host write in a block that operates. Memory changes at most in the output
footprint of the command in progress (`Abandoned`; entry 10). The reset input then holds the block until it is released (entry 19).
Removing power leaves a block whose registers are lost until the next hardware reset (60_exceptions R255). The model's choices in this: that
a release of an input that is not asserted changes nothing (DESIGN CHOICE, entry 19); that a block without power stays so when the input is
released, also where the input was held when power went, so that only asserting it anew brings the block back (DESIGN CHOICE, unsafe, entry
20); and that removing power changes memory as a reset does (DEDUCED, entry 20), since R255 says nothing of a run in progress. -/
def Obligations.ResetsPutTheResetValues : Prop :=
  (∀ (s : State) (m : Move) (rest : List Move),
    (m = .assertReset ∨
      (s.phase = .operating ∧ ∃ (w : Fin 64) (v : Word), s.platform.regAddr w = s.platform.mmioBase + 0x04 ∧
        v.getLsbD 2 = true ∧ m = .writeReg w v)) →
    s.schedule = m :: rest →
    ∃ t, step s = .next t ∧ t.irqEn = false ∧ t.busy = false ∧ t.done = false ∧ t.err = false ∧ t.errCode = 0 ∧
      t.cmdPtr = 0 ∧ t.errAddr = 0 ∧ t.cmdCount = 0 ∧ t.irq = false ∧ t.platform = s.platform ∧ t.schedule = rest ∧
      t.phase = (if m = .assertReset then .inReset else .operating) ∧ Abandoned s t) ∧
  (∀ (s : State) (rest : List Move), s.schedule = .releaseReset :: rest →
    step s = .next { s with schedule := rest, phase := if s.phase = .inReset then .operating else s.phase }) ∧
  ∀ (s : State) (rest : List Move), s.schedule = .losePower :: rest →
    ∃ t, step s = .next t ∧ t.phase = .unpowered ∧ t.platform = s.platform ∧ t.schedule = rest ∧ Abandoned s t

/-- 10_state R46: a host write to STATUS clears DONE by bit 1 and ERR by bit 2, and changes nothing else. -/
def Obligations.StatusWriteOnlyClears : Prop :=
  ∀ (s : State) (w : Fin 64) (v : Word) (rest : List Move), s.phase = .operating →
    s.platform.regAddr w = s.platform.mmioBase + 0x08 → s.schedule = .writeReg w v :: rest →
    step s = .next { s with schedule := rest, done := if v.getLsbD 1 then false else s.done,
                            err := if v.getLsbD 2 then false else s.err }

/-- 10_state R43 to R51: the host reaches the register block at its aligned 32-bit words alone, each by one word of the move (an aligned
address of the block is `Platform.regAddr` of exactly one, and no other address is), and what a host read of each returns. CMD_PTR reads while BUSY = 1 as the current or the next command's
address. No register and no byte of memory changes; a read of STATUS that shows DONE or ERR makes the engine's writes visible to the
host (20_memory R83; `unseenWrote`, entry 9). The model's choices in this: that the value read is recorded (entry 5), that a block held in
reset answers reads of every register as 10_state R44 says of ID (entry 19), and that one without power answers with its free values, ID and
0 (DESIGN CHOICE, entry 20). -/
def Obligations.RegisterReadsReturnTheirFields : Prop :=
  (∀ (p : Platform) (a : Nat), p.wf →
    ((∃ w, p.regAddr w = a) ↔ p.mmioBase ≤ a ∧ a < p.mmioBase + 256 ∧ a % 4 = 0) ∧
    ∀ w w', p.regAddr w = a → p.regAddr w' = a → w = w') ∧
  ∀ (s : State) (i : Fin 64) (off : Nat) (rest : List Move), s.platform.regAddr i = s.platform.mmioBase + off →
    s.schedule = .readReg i :: rest →
    ∃ w : Word, step s = .next { s with
        schedule := rest, draws := s.draws + 1, hostRead := some (.word w),
        unseenWrote := if off = 0x08 ∧ s.busy = false ∧ (s.done = true ∨ s.err = true) ∧ s.phase = .operating then []
          else s.unseenWrote } ∧
      (off = 0x00 → w = 0x4D450100) ∧
      (off = 0x04 → w.toNat = 2 * s.irqEn.toNat) ∧
      (off = 0x08 → w.toNat = s.busy.toNat + 2 * s.done.toNat + 4 * s.err.toNat + 256 * s.errCode.toNat) ∧
      (off = 0x0C → w = s.cmdPtr ∨ (s.busy = true ∧ w = s.cmdPtr + 32)) ∧
      (off = 0x10 → w = s.errAddr) ∧
      (off = 0x14 → w = s.cmdCount) ∧
      (0x18 ≤ off → w = 0)

/-- 10_state R44, R45, R47 to R50: a host write to ID, ERR_ADDR, CMD_COUNT or a reserved offset is ignored, a write to CMD_PTR is ignored
while BUSY = 1 and writes all 32 bits while BUSY = 0, and a write to CTRL with neither START nor SOFT_RESET sets IRQ_EN to bit 1 and changes
nothing else, busy or not. While the block is held in reset or without power every write is ignored
(entries 19 and 20). -/
def Obligations.OtherRegisterWrites : Prop :=
  ∀ (s : State) (w : Fin 64) (off : Nat) (v : Word) (rest : List Move),
    s.platform.regAddr w = s.platform.mmioBase + off → s.schedule = .writeReg w v :: rest →
    ((off = 0x00 ∨ 0x10 ≤ off) → step s = .next { s with schedule := rest }) ∧
    (off = 0x0C → s.phase = .operating →
      step s = .next { s with schedule := rest, cmdPtr := if s.busy then s.cmdPtr else v }) ∧
    (off = 0x04 → s.phase = .operating → v.getLsbD 0 = false → v.getLsbD 2 = false →
      step s = .next { s with schedule := rest, irqEn := v.getLsbD 1 }) ∧
    (s.phase ≠ .operating → step s = .next { s with schedule := rest })

/-- 10_state R56: irq is IRQ_EN and (DONE or ERR); a fault and a HALT raise it when IRQ_EN = 1, and clearing DONE and ERR, or clearing
IRQ_EN, lowers it. -/
def Obligations.IrqFollowsStatus : Prop :=
  ∀ s : State, (s.irq = true ↔ s.irqEn = true ∧ (s.done = true ∨ s.err = true)) ∧
    (∀ t, exec .halt s = .next t → t.irq = s.irqEn) ∧
    (∀ code addr, (s.raiseFault code addr).irq = s.irqEn) ∧
    (∀ v : Word, v.getLsbD 1 = true → v.getLsbD 2 = true → (s.writeStatus v).irq = false) ∧
    (∀ v : Word, v.getLsbD 1 = false → v.getLsbD 2 = false → (s.writeCtrl v).irq = false)

/-- Host reads of the data space (20_memory R70, R71, R83; 70_reset R283, R284). In any state, BUSY = 1 included, a read inside the data
space returns the bytes in memory, lowest address first, but for bytes that the engine has written and the host has not yet seen the end
of a run for, or that the command at CMD_PTR writes, which may be anything; and no register and no memory changes. After a read of STATUS that
shows DONE or ERR it returns the bytes in memory. While no run goes on, a host write stores its bytes and changes nothing else, also over
bytes of the engine's that the host has not yet seen the end of a run for, and the host reads back what it wrote unless one of the bytes is
such a byte, which still reads as anything (DESIGN CHOICE, entry 9). The model's choices in this: that no
such read meets a bus error (entry 15), that the state records what was read (entry 5), and which bytes may be anything (entries 9
and 10; where some bytes of the command at CMD_PTR were never written, it is the one they make with free values for those bytes), and that the
data space answers while the block is held in reset or without power (entries 19 and 20). -/
def Obligations.HostReadsOfTheDataSpace : Prop :=
  (∀ (s : State) (addr len : Nat) (rest : List Move), addr + len ≤ s.platform.memSize →
    s.schedule = .readMem addr len :: rest →
    (∀ k < len, (∀ r ∈ s.racing, addr + k < r.base ∨ r.base + r.len ≤ addr + k) → (s.mem.read (addr + k)).isSome) →
    ∃ bs : List Byte, bs.length = len ∧
      step s = .next { s with schedule := rest, draws := s.draws + 1, hostRead := some (.bytes bs) } ∧
      ∀ k < len, (∀ r ∈ s.unseenWrote, addr + k < r.base ∨ r.base + r.len ≤ addr + k) →
        (s.busy = true → ∀ i, (s.fetch = .command i ∨ ∃ y, s.fetch = .unwritten y ∧ decode s.drawnCommand = .ok i) →
          ∀ r ∈ writesOf s.platform i, addr + k < r.base ∨ r.base + r.len ≤ addr + k) →
        bs[k]? = s.mem.read (addr + k)) ∧
  (∀ (s : State) (w : Fin 64) (addr len : Nat) (rest : List Move), addr + len ≤ s.platform.memSize → s.phase = .operating →
    s.busy = false → (s.done = true ∨ s.err = true) → s.platform.regAddr w = s.platform.mmioBase + 0x08 →
    s.schedule = .readReg w :: .readMem addr len :: rest →
    (∀ k < len, (s.mem.read (addr + k)).isSome) →
    ∃ t t' bs, step s = .next t ∧ step t = .next t' ∧ t'.hostRead = some (.bytes bs) ∧ bs.length = len ∧
      ∀ k < len, bs[k]? = s.mem.read (addr + k)) ∧
  ∀ (s : State) (addr : Nat) (bs : List Byte) (rest : List Move), (s.busy = false ∨ s.phase ≠ .operating) →
    addr + bs.length ≤ s.platform.memSize → s.schedule = .writeMem addr bs :: rest →
    ∃ t, step s = .next t ∧ t = { s with schedule := rest, mem := t.mem } ∧
      (∀ k < bs.length, t.mem.read (addr + k) = bs[k]?) ∧
      (∀ x, x < addr ∨ addr + bs.length ≤ x → t.mem.read x = s.mem.read x) ∧
      ∀ rest', rest = .readMem addr bs.length :: rest' →
        (∀ k < bs.length, ∀ r ∈ s.unseenWrote, addr + k < r.base ∨ r.base + r.len ≤ addr + k) →
        step t = .next { t with schedule := rest', draws := t.draws + 1, hostRead := some (.bytes bs) }

/-- Host writes of the data space during a run (20_memory R83, 70_reset R283, R284): a write of a byte an earlier command of the run has
touched is no move of the host, which the model says by a refusal; a write of bytes none has touched is performed. The model's choices in
this: that it is performed on every platform, bus errors or not (DEDUCED, entry 15), and that the bytes are remembered, so that a later
command that touches one is stopped (DESIGN CHOICE, entry 6). -/
def Obligations.HostWritesDuringARun : Prop :=
  ∀ (s : State) (addr : Nat) (bs : List Byte) (rest : List Move), s.busy = true → s.phase = .operating →
    addr + bs.length ≤ s.platform.memSize → s.schedule = .writeMem addr bs :: rest →
    ((∃ k < bs.length, ∃ r ∈ s.runTouched, r.base ≤ addr + k ∧ addr + k < r.base + r.len) →
      step s = .refused .hostDutyBroken) ∧
    ((∀ k < bs.length, ∀ r ∈ s.runTouched, addr + k < r.base ∨ r.base + r.len ≤ addr + k) →
      ∃ t, step s = .next t ∧ (∀ k < bs.length, t.mem.read (addr + k) = bs[k]?) ∧
        (∀ x, x < addr ∨ addr + bs.length ≤ x → t.mem.read x = s.mem.read x) ∧
        (∀ r : Region, t.hostWroteIn r = true ↔
          s.hostWroteIn r = true ∨ ∃ k < bs.length, r.base ≤ addr + k ∧ addr + k < r.base + r.len) ∧
        t = { s with schedule := rest, mem := t.mem, hostWrote := t.hostWrote })
end

