-- ==== Sys2Proof/Laws/Memory.lean ====
section
/-! SUPPORT. The laws of memory: a read after a write, the canonical form kept, words and lanes (20_memory R71, R73, R74). -/

namespace Sys2Proof.Machine

/-! ### Bytes of a word -/

@[simp] theorem wordOfBytes_bytes (w : Word) :
    wordOfBytes (byteOfWord w 0) (byteOfWord w 1) (byteOfWord w 2) (byteOfWord w 3) = w := by
  apply BitVec.eq_of_getLsbD_eq
  intro i hi
  simp only [wordOfBytes, byteOfWord, BitVec.getLsbD_append, BitVec.getLsbD_extractLsb']
  by_cases h1 : i < 8
  · simp [h1]
  · by_cases h2 : i < 16
    · have : 8 + (i - 8) = i := by omega
      simp [h1, show i - 8 < 8 by omega, this]
    · by_cases h3 : i < 24
      · have : 16 + (i - 8 - 8) = i := by omega
        simp [h1, show ¬ i - 8 < 8 by omega, show i - 8 - 8 < 8 by omega, this]
      · have : 24 + (i - 8 - 8 - 8) = i := by omega
        simp [h1, show ¬ i - 8 < 8 by omega, show ¬ i - 8 - 8 < 8 by omega, show i - 8 - 8 - 8 < 8 by omega, this]

@[simp] theorem wordBytes_length (w : Word) : (wordBytes w).length = 4 := rfl

/-! ### One byte -/

theorem Memory.read_write (m : Memory) (a b : Nat) (v : Byte) :
    (m.write a v).read b = if a = b then some v else m.read b := by
  induction m with
  | nil => simp [Memory.write, Memory.read]
  | cons c rest ih =>
    obtain ⟨k, w⟩ := c
    simp only [Memory.write]
    split
    · simp [Memory.read]
    · split
      · next h => subst h; by_cases hb : a = b <;> simp [Memory.read, hb]
      · next h =>
        simp only [Memory.read, ih]
        by_cases hk : k = b
        · simp [hk, show a ≠ b by omega]
        · simp [hk]

@[simp] theorem Memory.read_write_same (m : Memory) (a : Nat) (v : Byte) : (m.write a v).read a = some v := by
  simp [Memory.read_write]

theorem Memory.read_write_other (m : Memory) {a b : Nat} (v : Byte) (h : a ≠ b) :
    (m.write a v).read b = m.read b := by
  simp [Memory.read_write, h]

theorem Memory.mem_write {m : Memory} {a : Nat} {v : Byte} {c : Host.Cell} (h : c ∈ m.write a v) :
    c.1 = a ∨ c ∈ m := by
  induction m with
  | nil => simp [Memory.write] at h; simp [h]
  | cons d rest ih =>
    obtain ⟨k, w⟩ := d
    simp only [Memory.write] at h
    split at h
    · rcases List.mem_cons.1 h with rfl | h
      · exact .inl rfl
      · exact .inr h
    · split at h
      · rcases List.mem_cons.1 h with rfl | h
        · exact .inl rfl
        · exact .inr (List.mem_cons_of_mem _ h)
      · rcases List.mem_cons.1 h with rfl | h
        · exact .inr (List.mem_cons_self ..)
        · exact (ih h).imp id (List.mem_cons_of_mem _)

theorem Memory.write_wf {m : Memory} (h : m.wf) (a : Nat) (v : Byte) : (m.write a v).wf := by
  induction m with
  | nil => simp [Memory.write, Memory.wf]
  | cons d rest ih =>
    obtain ⟨k, w⟩ := d
    have h' := List.pairwise_cons.1 h
    simp only [Memory.write]
    split
    · next hlt =>
      refine List.pairwise_cons.2 ⟨fun y hy => ?_, h⟩
      rcases List.mem_cons.1 hy with rfl | hy
      · exact hlt
      · exact Nat.lt_trans hlt (h'.1 y hy)
    · split
      · next heq => subst heq; exact List.pairwise_cons.2 ⟨h'.1, h'.2⟩
      · refine List.pairwise_cons.2 ⟨fun y hy => ?_, ih h'.2⟩
        rcases Memory.mem_write hy with hy | hy
        · show k < y.1; omega
        · exact h'.1 y hy

/-! ### Consecutive bytes -/

theorem Memory.read_writeBytes_outside (bs : List Byte) :
    ∀ (m : Memory) (a x : Nat), x < a ∨ a + bs.length ≤ x → (m.writeBytes a bs).read x = m.read x := by
  induction bs with
  | nil => intro m a x _; rfl
  | cons b bs ih =>
    intro m a x h
    simp only [List.length_cons] at h
    rw [Memory.writeBytes, ih _ _ _ (by omega), Memory.read_write_other _ _ (by omega)]

theorem Memory.read_writeBytes_inside (bs : List Byte) :
    ∀ (m : Memory) (a k : Nat), k < bs.length → (m.writeBytes a bs).read (a + k) = bs[k]? := by
  induction bs with
  | nil => intro m a k h; simp at h
  | cons b bs ih =>
    intro m a k h
    rw [Memory.writeBytes]
    cases k with
    | zero => rw [Memory.read_writeBytes_outside _ _ _ _ (by omega)]; simp
    | succ k =>
      rw [show a + (k + 1) = a + 1 + k by omega, ih _ _ _ (by simpa using h)]
      simp

theorem Memory.writeBytes_wf (bs : List Byte) : ∀ {m : Memory}, m.wf → ∀ a, (m.writeBytes a bs).wf := by
  induction bs with
  | nil => intro m h a; exact h
  | cons b bs ih => intro m h a; exact ih (Memory.write_wf h a b) _

theorem Memory.mem_writeBytes (bs : List Byte) :
    ∀ {m : Memory} {a : Nat} {c : Host.Cell}, c ∈ m.writeBytes a bs → (a ≤ c.1 ∧ c.1 < a + bs.length) ∨ c ∈ m := by
  induction bs with
  | nil => intro m a c h; exact .inr h
  | cons b bs ih =>
    intro m a c h
    rcases ih h with h | h
    · left; simp only [List.length_cons]; omega
    · rcases Memory.mem_write h with h | h
      · left; simp only [List.length_cons]; omega
      · exact .inr h

/-! ### Words -/

@[simp] theorem Memory.readWord_writeWord_same (m : Memory) (a : Nat) (w : Word) :
    (m.writeWord a w).readWord a = some w := by
  have h := fun k hk => Memory.read_writeBytes_inside (wordBytes w) m a k hk
  have h0 : (m.writeWord a w).read a = some (byteOfWord w 0) := h 0 (by simp)
  have h1 : (m.writeWord a w).read (a + 1) = some (byteOfWord w 1) := h 1 (by simp)
  have h2 : (m.writeWord a w).read (a + 2) = some (byteOfWord w 2) := h 2 (by simp)
  have h3 : (m.writeWord a w).read (a + 3) = some (byteOfWord w 3) := h 3 (by simp)
  simp [Memory.readWord, h0, h1, h2, h3]

theorem Memory.read_writeWord_outside (m : Memory) {a x : Nat} (w : Word) (h : x < a ∨ a + 4 ≤ x) :
    (m.writeWord a w).read x = m.read x :=
  Memory.read_writeBytes_outside _ _ _ _ (by simpa using h)

/-- A word reads the same from two memories that agree on its four bytes. -/
theorem Memory.readWord_congr {m m' : Memory} {a : Nat} (h : ∀ k < 4, m.read (a + k) = m'.read (a + k)) :
    m.readWord a = m'.readWord a := by
  have h0 := h 0 (by decide); have h1 := h 1 (by decide); have h2 := h 2 (by decide); have h3 := h 3 (by decide)
  simp only [Nat.add_zero] at h0
  simp [Memory.readWord, h0, h1, h2, h3]

theorem Memory.readWord_writeWord_outside (m : Memory) {a b : Nat} (w : Word) (h : b + 4 ≤ a ∨ a + 4 ≤ b) :
    (m.writeWord a w).readWord b = m.readWord b :=
  Memory.readWord_congr fun k hk => Memory.read_writeWord_outside _ _ (by omega)

/-- A word that is readable before a write is readable after it, whatever it then holds. -/
theorem Memory.readWord_isSome_iff (m : Memory) (a : Nat) :
    (m.readWord a).isSome ↔ ∀ k < 4, (m.read (a + k)).isSome := by
  constructor
  · intro h k hk
    simp only [Memory.readWord] at h
    split at h
    · next h0 h1 h2 h3 =>
      rcases (by omega : k = 0 ∨ k = 1 ∨ k = 2 ∨ k = 3) with rfl | rfl | rfl | rfl <;> simp [*]
    · cases h
  · intro h
    have h0 := h 0 (by decide); have h1 := h 1 (by decide); have h2 := h 2 (by decide); have h3 := h 3 (by decide)
    simp only [Nat.add_zero, Option.isSome_iff_exists] at h0 h1 h2 h3
    obtain ⟨_, h0⟩ := h0; obtain ⟨_, h1⟩ := h1; obtain ⟨_, h2⟩ := h2; obtain ⟨_, h3⟩ := h3
    simp [Memory.readWord, h0, h1, h2, h3]

theorem Memory.read_writeBytes_isSome {m : Memory} {x : Nat} (h : (m.read x).isSome) (a : Nat) (bs : List Byte) :
    ((m.writeBytes a bs).read x).isSome := by
  by_cases hx : x < a ∨ a + bs.length ≤ x
  · rwa [Memory.read_writeBytes_outside _ _ _ _ hx]
  · have hk : x - a < bs.length := by omega
    have := Memory.read_writeBytes_inside bs m a (x - a) hk
    rw [show a + (x - a) = x by omega] at this
    simp [this, hk]

/-- What is unreadable after a write was unreadable before it. -/
theorem Memory.readWord_none_of_writeWord {m : Memory} {a x : Nat} {w : Word}
    (h : (m.writeWord a w).readWord x = none) : m.readWord x = none := by
  refine Option.not_isSome_iff_eq_none.1 fun hs => ?_
  have : ((m.writeWord a w).readWord x).isSome :=
    (Memory.readWord_isSome_iff _ _).2 fun k hk =>
      Memory.read_writeBytes_isSome ((Memory.readWord_isSome_iff _ _).1 hs k hk) _ _
  rw [h] at this
  cases this

/-! ### Lanes -/

theorem Memory.storeLanes_read_outside (ws : Lanes) :
    ∀ (m : Memory) (a x : Nat), x < a ∨ a + 4 * ws.length ≤ x → (m.storeLanes a ws).read x = m.read x := by
  induction ws with
  | nil => intro m a x _; rfl
  | cons w ws ih =>
    intro m a x h
    simp only [List.length_cons] at h
    rw [Memory.storeLanes, ih _ _ _ (by omega), Memory.read_writeWord_outside _ _ (by omega)]

theorem Memory.storeLanes_readWord_inside (ws : Lanes) :
    ∀ (m : Memory) (a k : Nat), k < ws.length → (m.storeLanes a ws).readWord (a + 4 * k) = some (lane ws k) := by
  induction ws with
  | nil => intro m a k h; simp at h
  | cons w ws ih =>
    intro m a k h
    rw [Memory.storeLanes]
    cases k with
    | zero =>
      rw [Memory.readWord_congr (m' := m.writeWord a w)
        (fun j hj => Memory.storeLanes_read_outside _ _ _ _ (by omega))]
      simp [lane]
    | succ k =>
      rw [show a + 4 * (k + 1) = a + 4 + 4 * k by omega, ih _ _ _ (by simpa using h)]
      simp [lane]

theorem Memory.writeBytes_append (xs ys : List Byte) :
    ∀ (m : Memory) (a : Nat), m.writeBytes a (xs ++ ys) = (m.writeBytes a xs).writeBytes (a + xs.length) ys := by
  induction xs with
  | nil => intro m a; rfl
  | cons x xs ih =>
    intro m a
    simp only [List.cons_append, Memory.writeBytes, ih, List.length_cons]
    congr 1; omega

/-- Writing the bytes of words is storing the words. -/
theorem Memory.writeBytes_words (ws : Lanes) :
    ∀ (m : Memory) (a : Nat), m.writeBytes a (ws.flatMap wordBytes) = m.storeLanes a ws := by
  induction ws with
  | nil => intro m a; rfl
  | cons w ws ih =>
    intro m a
    rw [List.flatMap_cons, Memory.writeBytes_append, ih]
    rfl

theorem Memory.storeLanes_wf (ws : Lanes) : ∀ {m : Memory}, m.wf → ∀ a, (m.storeLanes a ws).wf := by
  induction ws with
  | nil => intro m h a; exact h
  | cons w ws ih => intro m h a; exact ih (Memory.writeBytes_wf _ h a) _

theorem Memory.mem_storeLanes (ws : Lanes) :
    ∀ {m : Memory} {a : Nat} {c : Host.Cell}, c ∈ m.storeLanes a ws → (a ≤ c.1 ∧ c.1 < a + 4 * ws.length) ∨ c ∈ m := by
  induction ws with
  | nil => intro m a c h; exact .inr h
  | cons w ws ih =>
    intro m a c h
    rcases ih h with h | h
    · left; simp only [List.length_cons]; omega
    · rcases Memory.mem_writeBytes _ h with h | h
      · left; simp only [List.length_cons, wordBytes_length] at h ⊢; omega
      · exact .inr h

/-- The lanes of a load that succeeds. -/
theorem Memory.loadLanes_ok (m : Memory) :
    ∀ (n a : Nat) {ws : Lanes}, m.loadLanes a n = .ok ws →
      ws.length = n ∧ ∀ k < n, m.readWord (a + 4 * k) = some (lane ws k) := by
  intro n
  induction n with
  | zero => intro a ws h; cases h; simp
  | succ n ih =>
    intro a ws h
    simp only [Memory.loadLanes] at h
    split at h
    · cases h
    · next w hw =>
      split at h
      · cases h
      · next vs hvs =>
        cases h
        obtain ⟨hlen, hk⟩ := ih _ hvs
        refine ⟨by simp [hlen], fun k hk' => ?_⟩
        cases k with
        | zero => simpa [lane] using hw
        | succ k =>
          rw [show a + 4 * (k + 1) = a + 4 + 4 * k by omega, hk k (by omega)]
          simp [lane]

/-- A load whose lanes are all written succeeds. -/
theorem Memory.loadLanes_of_readWord (m : Memory) (v : Nat → Word) :
    ∀ (n a : Nat), (∀ k < n, m.readWord (a + 4 * k) = some (v k)) → m.loadLanes a n = .ok ((List.range n).map v) := by
  intro n
  induction n generalizing v with
  | zero => intro a _; rfl
  | succ n ih =>
    intro a h
    have h0 := h 0 (by omega)
    rw [Nat.mul_zero, Nat.add_zero] at h0
    have ht := ih (fun k => v (k + 1)) (a + 4) (fun k hk => by
      have := h (k + 1) (by omega)
      rwa [show a + 4 * (k + 1) = a + 4 + 4 * k by omega] at this)
    simp only [Memory.loadLanes, h0, ht]
    rw [List.range_succ_eq_map]
    simp [Function.comp_def]

/-- The load of the words a list of lanes stores gives them back. -/
theorem Memory.loadLanes_storeLanes (m : Memory) (a : Nat) (ws : Lanes) :
    (m.storeLanes a ws).loadLanes a ws.length = .ok ws := by
  rw [Memory.loadLanes_of_readWord _ (lane ws) _ _ fun k hk => Memory.storeLanes_readWord_inside ws m a k hk]
  congr 1
  exact List.ext_getElem (by simp) fun i _ h => by simp [lane, h]

/-- A load that fails names a lane of its range with an unwritten byte. -/
theorem Memory.loadLanes_error (m : Memory) :
    ∀ (n a : Nat) {x : Nat}, m.loadLanes a n = .error x → m.readWord x = none ∧ ∃ k < n, x = a + 4 * k := by
  intro n
  induction n with
  | zero => intro a x h; cases h
  | succ n ih =>
    intro a x h
    simp only [Memory.loadLanes] at h
    split at h
    · next hn => cases h; exact ⟨hn, 0, by omega, by omega⟩
    · split at h
      · next y hy =>
        cases h
        obtain ⟨hr, k, hk, rfl⟩ := ih _ hy
        exact ⟨hr, k + 1, by omega, by omega⟩
      · cases h

@[simp] theorem lane_map_range (v : Nat → Word) {n k : Nat} (h : k < n) : lane ((List.range n).map v) k = v k := by
  simp [lane, h]

end Sys2Proof.Machine
end

