-- ==== Sys2Proof/Laws/State.lean ====
section
/-! SUPPORT. One lemma per field of State for each named update, so that no later proof unfolds a record update. -/

namespace Sys2Proof.Machine

variable (s : State)

/-! one drawing event -/

@[simp] theorem State.tick_mem : s.tick.mem = s.mem := rfl
@[simp] theorem State.tick_irqEn : s.tick.irqEn = s.irqEn := rfl
@[simp] theorem State.tick_busy : s.tick.busy = s.busy := rfl
@[simp] theorem State.tick_done : s.tick.done = s.done := rfl
@[simp] theorem State.tick_err : s.tick.err = s.err := rfl
@[simp] theorem State.tick_errCode : s.tick.errCode = s.errCode := rfl
@[simp] theorem State.tick_cmdPtr : s.tick.cmdPtr = s.cmdPtr := rfl
@[simp] theorem State.tick_errAddr : s.tick.errAddr = s.errAddr := rfl
@[simp] theorem State.tick_cmdCount : s.tick.cmdCount = s.cmdCount := rfl
@[simp] theorem State.tick_platform : s.tick.platform = s.platform := rfl
@[simp] theorem State.tick_draws : s.tick.draws = s.draws + 1 := rfl
@[simp] theorem State.tick_schedule : s.tick.schedule = s.schedule := rfl
@[simp] theorem State.tick_phase : s.tick.phase = s.phase := rfl
@[simp] theorem State.tick_hostRead : s.tick.hostRead = s.hostRead := rfl
@[simp] theorem State.tick_runTouched : s.tick.runTouched = s.runTouched := rfl
@[simp] theorem State.tick_unseenWrote : s.tick.unseenWrote = s.unseenWrote := rfl
@[simp] theorem State.tick_hostWrote : s.tick.hostWrote = s.hostWrote := rfl

/-! a region of draws -/

@[simp] theorem State.tear_mem (r : Region) : (s.tear r).mem = s.mem.writeBytes r.base ((List.range r.len).map (Config.tornByte s.draws)) := rfl
@[simp] theorem State.tear_irqEn (r : Region) : (s.tear r).irqEn = s.irqEn := rfl
@[simp] theorem State.tear_busy (r : Region) : (s.tear r).busy = s.busy := rfl
@[simp] theorem State.tear_done (r : Region) : (s.tear r).done = s.done := rfl
@[simp] theorem State.tear_err (r : Region) : (s.tear r).err = s.err := rfl
@[simp] theorem State.tear_errCode (r : Region) : (s.tear r).errCode = s.errCode := rfl
@[simp] theorem State.tear_cmdPtr (r : Region) : (s.tear r).cmdPtr = s.cmdPtr := rfl
@[simp] theorem State.tear_errAddr (r : Region) : (s.tear r).errAddr = s.errAddr := rfl
@[simp] theorem State.tear_cmdCount (r : Region) : (s.tear r).cmdCount = s.cmdCount := rfl
@[simp] theorem State.tear_platform (r : Region) : (s.tear r).platform = s.platform := rfl
@[simp] theorem State.tear_draws (r : Region) : (s.tear r).draws = s.draws := rfl
@[simp] theorem State.tear_schedule (r : Region) : (s.tear r).schedule = s.schedule := rfl
@[simp] theorem State.tear_phase (r : Region) : (s.tear r).phase = s.phase := rfl
@[simp] theorem State.tear_hostRead (r : Region) : (s.tear r).hostRead = s.hostRead := rfl
@[simp] theorem State.tear_runTouched (r : Region) : (s.tear r).runTouched = s.runTouched := rfl
@[simp] theorem State.tear_unseenWrote (r : Region) : (s.tear r).unseenWrote = s.unseenWrote := rfl
@[simp] theorem State.tear_hostWrote (r : Region) : (s.tear r).hostWrote = s.hostWrote := rfl

/-! the end of a command (40_control R131) -/

@[simp] theorem State.complete_mem : s.complete.mem = s.mem := rfl
@[simp] theorem State.complete_irqEn : s.complete.irqEn = s.irqEn := rfl
@[simp] theorem State.complete_busy : s.complete.busy = s.busy := rfl
@[simp] theorem State.complete_done : s.complete.done = s.done := rfl
@[simp] theorem State.complete_err : s.complete.err = s.err := rfl
@[simp] theorem State.complete_errCode : s.complete.errCode = s.errCode := rfl
@[simp] theorem State.complete_cmdPtr : s.complete.cmdPtr = s.cmdPtr + 32 := rfl
@[simp] theorem State.complete_errAddr : s.complete.errAddr = s.errAddr := rfl
@[simp] theorem State.complete_cmdCount : s.complete.cmdCount = s.cmdCount + 1 := rfl
@[simp] theorem State.complete_platform : s.complete.platform = s.platform := rfl
@[simp] theorem State.complete_draws : s.complete.draws = s.draws := rfl
@[simp] theorem State.complete_schedule : s.complete.schedule = s.schedule := rfl
@[simp] theorem State.complete_phase : s.complete.phase = s.phase := rfl
@[simp] theorem State.complete_hostRead : s.complete.hostRead = s.hostRead := rfl
@[simp] theorem State.complete_runTouched : s.complete.runTouched = s.runTouched := rfl
@[simp] theorem State.complete_unseenWrote : s.complete.unseenWrote = s.unseenWrote := rfl
@[simp] theorem State.complete_hostWrote : s.complete.hostWrote = s.hostWrote := rfl

/-! HALT (40_control R136) -/

@[simp] theorem State.halt_mem : s.halt.mem = s.mem := rfl
@[simp] theorem State.halt_irqEn : s.halt.irqEn = s.irqEn := rfl
@[simp] theorem State.halt_busy : s.halt.busy = false := rfl
@[simp] theorem State.halt_done : s.halt.done = true := rfl
@[simp] theorem State.halt_err : s.halt.err = s.err := rfl
@[simp] theorem State.halt_errCode : s.halt.errCode = s.errCode := rfl
@[simp] theorem State.halt_cmdPtr : s.halt.cmdPtr = s.cmdPtr := rfl
@[simp] theorem State.halt_errAddr : s.halt.errAddr = s.errAddr := rfl
@[simp] theorem State.halt_cmdCount : s.halt.cmdCount = s.cmdCount := rfl
@[simp] theorem State.halt_platform : s.halt.platform = s.platform := rfl
@[simp] theorem State.halt_draws : s.halt.draws = s.draws := rfl
@[simp] theorem State.halt_schedule : s.halt.schedule = s.schedule := rfl
@[simp] theorem State.halt_phase : s.halt.phase = s.phase := rfl
@[simp] theorem State.halt_hostRead : s.halt.hostRead = s.hostRead := rfl
@[simp] theorem State.halt_runTouched : s.halt.runTouched = s.runTouched := rfl
@[simp] theorem State.halt_unseenWrote : s.halt.unseenWrote = s.unseenWrote := rfl
@[simp] theorem State.halt_hostWrote : s.halt.hostWrote = s.hostWrote := rfl

/-! fault entry (60_exceptions R230) -/

@[simp] theorem State.raiseFault_mem (code : FaultCode) (addr : Word) : (s.raiseFault code addr).mem = s.mem := rfl
@[simp] theorem State.raiseFault_irqEn (code : FaultCode) (addr : Word) : (s.raiseFault code addr).irqEn = s.irqEn := rfl
@[simp] theorem State.raiseFault_busy (code : FaultCode) (addr : Word) : (s.raiseFault code addr).busy = false := rfl
@[simp] theorem State.raiseFault_done (code : FaultCode) (addr : Word) : (s.raiseFault code addr).done = s.done := rfl
@[simp] theorem State.raiseFault_err (code : FaultCode) (addr : Word) : (s.raiseFault code addr).err = true := rfl
@[simp] theorem State.raiseFault_errCode (code : FaultCode) (addr : Word) : (s.raiseFault code addr).errCode = code.byte := rfl
@[simp] theorem State.raiseFault_cmdPtr (code : FaultCode) (addr : Word) : (s.raiseFault code addr).cmdPtr = s.cmdPtr := rfl
@[simp] theorem State.raiseFault_errAddr (code : FaultCode) (addr : Word) : (s.raiseFault code addr).errAddr = addr := rfl
@[simp] theorem State.raiseFault_cmdCount (code : FaultCode) (addr : Word) : (s.raiseFault code addr).cmdCount = s.cmdCount := rfl
@[simp] theorem State.raiseFault_platform (code : FaultCode) (addr : Word) : (s.raiseFault code addr).platform = s.platform := rfl
@[simp] theorem State.raiseFault_draws (code : FaultCode) (addr : Word) : (s.raiseFault code addr).draws = s.draws := rfl
@[simp] theorem State.raiseFault_schedule (code : FaultCode) (addr : Word) : (s.raiseFault code addr).schedule = s.schedule := rfl
@[simp] theorem State.raiseFault_phase (code : FaultCode) (addr : Word) : (s.raiseFault code addr).phase = s.phase := rfl
@[simp] theorem State.raiseFault_hostRead (code : FaultCode) (addr : Word) : (s.raiseFault code addr).hostRead = s.hostRead := rfl
@[simp] theorem State.raiseFault_runTouched (code : FaultCode) (addr : Word) : (s.raiseFault code addr).runTouched = s.runTouched := rfl
@[simp] theorem State.raiseFault_unseenWrote (code : FaultCode) (addr : Word) : (s.raiseFault code addr).unseenWrote = s.unseenWrote := rfl
@[simp] theorem State.raiseFault_hostWrote (code : FaultCode) (addr : Word) : (s.raiseFault code addr).hostWrote = s.hostWrote := rfl

/-! an accepted START (10_state R52) -/

@[simp] theorem State.start_mem : s.start.mem = s.mem := rfl
@[simp] theorem State.start_irqEn : s.start.irqEn = s.irqEn := rfl
@[simp] theorem State.start_busy : s.start.busy = true := rfl
@[simp] theorem State.start_done : s.start.done = false := rfl
@[simp] theorem State.start_err : s.start.err = false := rfl
@[simp] theorem State.start_errCode : s.start.errCode = 0 := rfl
@[simp] theorem State.start_cmdPtr : s.start.cmdPtr = s.cmdPtr := rfl
@[simp] theorem State.start_errAddr : s.start.errAddr = 0 := rfl
@[simp] theorem State.start_cmdCount : s.start.cmdCount = 0 := rfl
@[simp] theorem State.start_platform : s.start.platform = s.platform := rfl
@[simp] theorem State.start_draws : s.start.draws = s.draws := rfl
@[simp] theorem State.start_schedule : s.start.schedule = s.schedule := rfl
@[simp] theorem State.start_phase : s.start.phase = s.phase := rfl
@[simp] theorem State.start_hostRead : s.start.hostRead = s.hostRead := rfl
@[simp] theorem State.start_runTouched : s.start.runTouched = [] := rfl
@[simp] theorem State.start_unseenWrote : s.start.unseenWrote = s.unseenWrote := rfl
@[simp] theorem State.start_hostWrote : s.start.hostWrote = [] := rfl

/-! reset of the registers (70_reset R270) -/

@[simp] theorem State.resetRegisters_mem : s.resetRegisters.mem = s.mem := rfl
@[simp] theorem State.resetRegisters_irqEn : s.resetRegisters.irqEn = false := rfl
@[simp] theorem State.resetRegisters_busy : s.resetRegisters.busy = false := rfl
@[simp] theorem State.resetRegisters_done : s.resetRegisters.done = false := rfl
@[simp] theorem State.resetRegisters_err : s.resetRegisters.err = false := rfl
@[simp] theorem State.resetRegisters_errCode : s.resetRegisters.errCode = 0 := rfl
@[simp] theorem State.resetRegisters_cmdPtr : s.resetRegisters.cmdPtr = 0 := rfl
@[simp] theorem State.resetRegisters_errAddr : s.resetRegisters.errAddr = 0 := rfl
@[simp] theorem State.resetRegisters_cmdCount : s.resetRegisters.cmdCount = 0 := rfl
@[simp] theorem State.resetRegisters_platform : s.resetRegisters.platform = s.platform := rfl
@[simp] theorem State.resetRegisters_draws : s.resetRegisters.draws = s.draws := rfl
@[simp] theorem State.resetRegisters_schedule : s.resetRegisters.schedule = s.schedule := rfl
@[simp] theorem State.resetRegisters_phase : s.resetRegisters.phase = s.phase := rfl
@[simp] theorem State.resetRegisters_hostRead : s.resetRegisters.hostRead = s.hostRead := rfl
@[simp] theorem State.resetRegisters_runTouched : s.resetRegisters.runTouched = [] := rfl
@[simp] theorem State.resetRegisters_unseenWrote : s.resetRegisters.unseenWrote = [] := rfl
@[simp] theorem State.resetRegisters_hostWrote : s.resetRegisters.hostWrote = [] := rfl

/-! loss of the registers (60_exceptions R255) -/

@[simp] theorem State.loseRegisters_mem : s.loseRegisters.mem = s.mem := rfl
@[simp] theorem State.loseRegisters_irqEn : s.loseRegisters.irqEn = (Config.lostRegister s.draws 0).getLsbD 0 := rfl
@[simp] theorem State.loseRegisters_busy : s.loseRegisters.busy = (Config.lostRegister s.draws 0).getLsbD 1 := rfl
@[simp] theorem State.loseRegisters_done : s.loseRegisters.done = (Config.lostRegister s.draws 0).getLsbD 2 := rfl
@[simp] theorem State.loseRegisters_err : s.loseRegisters.err = (Config.lostRegister s.draws 0).getLsbD 3 := rfl
@[simp] theorem State.loseRegisters_errCode : s.loseRegisters.errCode = (Config.lostRegister s.draws 0).extractLsb' 8 8 := rfl
@[simp] theorem State.loseRegisters_cmdPtr : s.loseRegisters.cmdPtr = Config.lostRegister s.draws 1 := rfl
@[simp] theorem State.loseRegisters_errAddr : s.loseRegisters.errAddr = Config.lostRegister s.draws 2 := rfl
@[simp] theorem State.loseRegisters_cmdCount : s.loseRegisters.cmdCount = Config.lostRegister s.draws 3 := rfl
@[simp] theorem State.loseRegisters_platform : s.loseRegisters.platform = s.platform := rfl
@[simp] theorem State.loseRegisters_draws : s.loseRegisters.draws = s.draws := rfl
@[simp] theorem State.loseRegisters_schedule : s.loseRegisters.schedule = s.schedule := rfl
@[simp] theorem State.loseRegisters_phase : s.loseRegisters.phase = .unpowered := rfl
@[simp] theorem State.loseRegisters_hostRead : s.loseRegisters.hostRead = s.hostRead := rfl
@[simp] theorem State.loseRegisters_runTouched : s.loseRegisters.runTouched = [] := rfl
@[simp] theorem State.loseRegisters_unseenWrote : s.loseRegisters.unseenWrote = s.unseenWrote := rfl
@[simp] theorem State.loseRegisters_hostWrote : s.loseRegisters.hostWrote = [] := rfl

/-! what a run touched (20_memory R83) -/

@[simp] theorem State.noteRun_mem (ptr : Word) (i : Instr) : (s.noteRun ptr i).mem = s.mem := rfl
@[simp] theorem State.noteRun_irqEn (ptr : Word) (i : Instr) : (s.noteRun ptr i).irqEn = s.irqEn := rfl
@[simp] theorem State.noteRun_busy (ptr : Word) (i : Instr) : (s.noteRun ptr i).busy = s.busy := rfl
@[simp] theorem State.noteRun_done (ptr : Word) (i : Instr) : (s.noteRun ptr i).done = s.done := rfl
@[simp] theorem State.noteRun_err (ptr : Word) (i : Instr) : (s.noteRun ptr i).err = s.err := rfl
@[simp] theorem State.noteRun_errCode (ptr : Word) (i : Instr) : (s.noteRun ptr i).errCode = s.errCode := rfl
@[simp] theorem State.noteRun_cmdPtr (ptr : Word) (i : Instr) : (s.noteRun ptr i).cmdPtr = s.cmdPtr := rfl
@[simp] theorem State.noteRun_errAddr (ptr : Word) (i : Instr) : (s.noteRun ptr i).errAddr = s.errAddr := rfl
@[simp] theorem State.noteRun_cmdCount (ptr : Word) (i : Instr) : (s.noteRun ptr i).cmdCount = s.cmdCount := rfl
@[simp] theorem State.noteRun_platform (ptr : Word) (i : Instr) : (s.noteRun ptr i).platform = s.platform := rfl
@[simp] theorem State.noteRun_draws (ptr : Word) (i : Instr) : (s.noteRun ptr i).draws = s.draws := rfl
@[simp] theorem State.noteRun_schedule (ptr : Word) (i : Instr) : (s.noteRun ptr i).schedule = s.schedule := rfl
@[simp] theorem State.noteRun_phase (ptr : Word) (i : Instr) : (s.noteRun ptr i).phase = s.phase := rfl
@[simp] theorem State.noteRun_hostRead (ptr : Word) (i : Instr) : (s.noteRun ptr i).hostRead = s.hostRead := rfl
@[simp] theorem State.noteRun_runTouched (ptr : Word) (i : Instr) : (s.noteRun ptr i).runTouched = ⟨ptr.toNat, 32⟩ :: (readsOf s.platform i ++ (writesOf s.platform i ++ s.runTouched)) := rfl
@[simp] theorem State.noteRun_unseenWrote (ptr : Word) (i : Instr) : (s.noteRun ptr i).unseenWrote = writesOf s.platform i ++ s.unseenWrote := rfl
@[simp] theorem State.noteRun_hostWrote (ptr : Word) (i : Instr) : (s.noteRun ptr i).hostWrote = s.hostWrote := rfl

/-! a host write to STATUS (10_state R46) -/

@[simp] theorem State.writeStatus_mem (v : Word) : (s.writeStatus v).mem = s.mem := rfl
@[simp] theorem State.writeStatus_irqEn (v : Word) : (s.writeStatus v).irqEn = s.irqEn := rfl
@[simp] theorem State.writeStatus_busy (v : Word) : (s.writeStatus v).busy = s.busy := rfl
@[simp] theorem State.writeStatus_done (v : Word) : (s.writeStatus v).done = (s.done && !v.getLsbD 1) := rfl
@[simp] theorem State.writeStatus_err (v : Word) : (s.writeStatus v).err = (s.err && !v.getLsbD 2) := rfl
@[simp] theorem State.writeStatus_errCode (v : Word) : (s.writeStatus v).errCode = s.errCode := rfl
@[simp] theorem State.writeStatus_cmdPtr (v : Word) : (s.writeStatus v).cmdPtr = s.cmdPtr := rfl
@[simp] theorem State.writeStatus_errAddr (v : Word) : (s.writeStatus v).errAddr = s.errAddr := rfl
@[simp] theorem State.writeStatus_cmdCount (v : Word) : (s.writeStatus v).cmdCount = s.cmdCount := rfl
@[simp] theorem State.writeStatus_platform (v : Word) : (s.writeStatus v).platform = s.platform := rfl
@[simp] theorem State.writeStatus_draws (v : Word) : (s.writeStatus v).draws = s.draws := rfl
@[simp] theorem State.writeStatus_schedule (v : Word) : (s.writeStatus v).schedule = s.schedule := rfl
@[simp] theorem State.writeStatus_phase (v : Word) : (s.writeStatus v).phase = s.phase := rfl
@[simp] theorem State.writeStatus_hostRead (v : Word) : (s.writeStatus v).hostRead = s.hostRead := rfl
@[simp] theorem State.writeStatus_runTouched (v : Word) : (s.writeStatus v).runTouched = s.runTouched := rfl
@[simp] theorem State.writeStatus_unseenWrote (v : Word) : (s.writeStatus v).unseenWrote = s.unseenWrote := rfl
@[simp] theorem State.writeStatus_hostWrote (v : Word) : (s.writeStatus v).hostWrote = s.hostWrote := rfl

/-! a run goes on -/

theorem State.running_iff : s.running = true ↔ s.busy = true ∧ s.phase = .operating := by
  simp only [State.running, Bool.and_eq_true, decide_eq_true_eq, and_comm]

theorem State.showsEnd_iff :
    s.showsEnd = true ↔ s.busy = false ∧ (s.done = true ∨ s.err = true) ∧ s.phase = .operating := by
  simp only [State.showsEnd, Bool.and_eq_true, decide_eq_true_eq, Bool.not_eq_true', Bool.or_eq_true]
  constructor
  · exact fun ⟨h, h', h''⟩ => ⟨h', h'', h⟩
  · exact fun ⟨h, h', h''⟩ => ⟨h'', h, h'⟩

end Sys2Proof.Machine
end

