-- ==== Sys2Proof/Laws/Operands.lean ====
section
/-! SUPPORT. What the operand checks, the loads, the store and a staged command can do (40_control R132, 20_memory R73 to R77,
R89). -/

namespace Sys2Proof.Machine

theorem OperandKind.valueLanes_le (k : OperandKind) : k.valueLanes ≤ k.footprintLanes := by
  cases k <;> simp [OperandKind.valueLanes, OperandKind.footprintLanes]

/-- An operand that passes both checks of 40_control R132. -/
def Operand.accessible (memSize : Nat) (o : Operand) : Prop :=
  o.base.toNat % o.kind.align = 0 ∧ o.base.toNat + o.kind.footprint ≤ memSize

theorem checkOperands_none_iff (memSize : Nat) (l : List Operand) :
    checkOperands memSize l = none ↔ ∀ o ∈ l, o.accessible memSize := by
  induction l with
  | nil => simp [checkOperands]
  | cons o l ih =>
    simp only [checkOperands, List.forall_mem_cons, Operand.accessible]
    split
    · next h => simp [h]
    · next h =>
      split
      · next h' => simp only [reduceCtorEq, false_iff]; omega
      · next h' => rw [ih]; simp only [ne_eq, Decidable.not_not] at h; constructor
                   · intro hl; exact ⟨⟨h, by omega⟩, hl⟩
                   · exact fun hl => hl.2

/-- A failed check names the first operand that fails one. -/
theorem checkOperands_append (memSize : Nat) {pre : List Operand} (h : ∀ o ∈ pre, o.accessible memSize)
    (l : List Operand) : checkOperands memSize (pre ++ l) = checkOperands memSize l := by
  induction pre with
  | nil => rfl
  | cons o pre ih =>
    have ho := h o (List.mem_cons_self ..)
    simp only [List.cons_append, checkOperands]
    rw [if_neg (by simpa using ho.1), if_neg (by have := ho.2; omega)]
    exact ih fun o' ho' => h o' (List.mem_cons_of_mem _ ho')

/-- A failed check is one of the two operand faults, of one of the operands. -/
theorem checkOperands_some {memSize : Nat} {l : List Operand} {code : FaultCode} {addr : Word}
    (h : checkOperands memSize l = some (code, addr)) :
    (code = .operandMisaligned ∨ code = .operandRange) ∧ ∃ o ∈ l, addr = o.base := by
  induction l with
  | nil => cases h
  | cons o l ih =>
    simp only [checkOperands] at h
    split at h
    · cases h; exact ⟨.inl rfl, o, List.mem_cons_self .., rfl⟩
    · split at h
      · cases h; exact ⟨.inr rfl, o, List.mem_cons_self .., rfl⟩
      · obtain ⟨hc, o', ho', he⟩ := ih h
        exact ⟨hc, o', List.mem_cons_of_mem _ ho', he⟩

/-- No lane access meets a bus error. -/
theorem lanesError_false_iff (p : Platform) (a n : Nat) (acc : Access) :
    lanesError p a n acc = false ↔ ∀ k < n, busErrorAt p (a + 4 * k) 4 acc = false := by
  simp [lanesError]

theorem sourceError_none_iff (s : State) (srcs : List Operand) :
    sourceError s srcs = none ↔ ∀ o ∈ srcs, o.readError s.platform = false := by
  rw [sourceError]
  have key : srcs.filter (Operand.readError s.platform) = [] ↔ ∀ o ∈ srcs, o.readError s.platform = false := by
    simp [List.filter_eq_nil_iff]
  rw [← key]
  split <;> simp_all

/-- A source read error is reported at the base of a source that has one (60_exceptions R231). -/
theorem sourceError_some {s : State} {srcs : List Operand} {addr : Word} (h : sourceError s srcs = some addr) :
    ∃ o ∈ srcs, o.readError s.platform = true ∧ addr = o.base := by
  have hm : ∀ o ∈ srcs.filter (Operand.readError s.platform), o ∈ srcs ∧ o.readError s.platform = true :=
    fun o ho => List.mem_filter.1 ho
  rw [sourceError] at h
  split at h
  · cases h
  · next o ho =>
    cases h
    have := hm o (by simp [ho])
    exact ⟨o, this.1, this.2, rfl⟩
  · next o o' rest ho =>
    cases h
    have h1 := hm o (by simp [ho])
    have h2 := hm o' (by simp [ho])
    by_cases hc : Config.choice s.draws = true
    · exact ⟨o, h1.1, h1.2, by simp [hc]⟩
    · exact ⟨o', h2.1, h2.2, by simp [hc]⟩

/-! ### Loads -/

theorem Operand.load_ok {m : Memory} {o : Operand} {v : Lanes} (h : o.load m = .ok v) :
    v.length = o.kind.valueLanes ∧
      ∀ k < o.kind.valueLanes, m.readWord (o.base.toNat + 4 * k) = some (lane v k) :=
  Memory.loadLanes_ok m _ _ h

theorem Operand.load_of_readWord {m : Memory} {o : Operand} (v : Nat → Word)
    (h : ∀ k < o.kind.valueLanes, m.readWord (o.base.toNat + 4 * k) = some (v k)) :
    o.load m = .ok ((List.range o.kind.valueLanes).map v) :=
  Memory.loadLanes_of_readWord m v _ _ h

theorem Operand.load_error {m : Memory} {o : Operand} {x : Nat} (h : o.load m = .error x) :
    m.readWord x = none ∧ ∃ k < o.kind.valueLanes, x = o.base.toNat + 4 * k :=
  Memory.loadLanes_error m _ _ h

theorem loadAll_error {m : Memory} {srcs : List Operand} {x : Nat} (h : loadAll m srcs = .error x) :
    m.readWord x = none ∧ ∃ o ∈ srcs, ∃ k < o.kind.valueLanes, x = o.base.toNat + 4 * k := by
  induction srcs with
  | nil => cases h
  | cons o srcs ih =>
    simp only [loadAll] at h
    split at h
    · next hx =>
      cases h
      obtain ⟨hr, hk⟩ := Operand.load_error hx
      exact ⟨hr, o, List.mem_cons_self .., hk⟩
    · split at h
      · next hx =>
        cases h
        obtain ⟨hr, o', ho', hk⟩ := ih hx
        exact ⟨hr, o', List.mem_cons_of_mem _ ho', hk⟩
      · cases h

/-! ### The store -/

theorem storedLanes_length {s : State} {k : OperandKind} {result : Lanes} (h : result.length = k.valueLanes) :
    (storedLanes s k result).length = k.footprintLanes := by
  cases k <;> simp [storedLanes, OperandKind.valueLanes, OperandKind.footprintLanes] at h ⊢ <;> exact h

theorem lane_storedLanes (s : State) (k : OperandKind) {result : Lanes} {j : Nat} (h : j < result.length) :
    lane (storedLanes s k result) j = lane result j := by
  unfold storedLanes lane
  split
  · simp [List.getElem?_append_left h]
  · rfl

/-- A store that meets no bus error (20_memory R74, 40_control R131). -/
theorem State.storeResult_clean {s : State} {dst : Operand} (h : dst.writeError s.platform = false) (result : Lanes) :
    s.storeResult dst result =
      ({ s with mem := s.mem.storeLanes dst.base.toNat (storedLanes s dst.kind result) }.complete).tick := by
  simp [State.storeResult, h]

/-- A store that meets a bus error (20_memory R89). -/
theorem State.storeResult_error {s : State} {dst : Operand} (h : dst.writeError s.platform = true) (result : Lanes) :
    s.storeResult dst result = ((s.tear dst.region).raiseFault .busError dst.base).tick := by
  simp [State.storeResult, h]

/-! ### A staged command -/

/-- Everything a staged command can do (20_memory R77, 40_control R132). -/
theorem staged_cases (srcs : List Operand) (dst : Operand) (f : (Nat → Word) → List Lanes → Lanes) (s : State) :
    (∃ code addr, checkOperands s.platform.memSize (srcs ++ [dst]) = some (code, addr) ∧
      staged srcs dst f s = .next (s.raiseFault code addr)) ∨
    (checkOperands s.platform.memSize (srcs ++ [dst]) = none ∧
      ((∃ addr, sourceError s srcs = some addr ∧ staged srcs dst f s = .next (s.raiseFault .busError addr).tick) ∨
       (sourceError s srcs = none ∧
        ((∃ x, loadAll s.mem srcs = .error x ∧ staged srcs dst f s = .fault (.uninitialised x)) ∨
         (∃ vs, loadAll s.mem srcs = .ok vs ∧ staged srcs dst f s = .next (s.storeResult dst (f s.nans vs))))))) := by
  unfold staged
  cases h : checkOperands s.platform.memSize (srcs ++ [dst]) with
  | some p => exact .inl ⟨p.1, p.2, rfl, rfl⟩
  | none =>
    refine .inr ⟨rfl, ?_⟩
    cases h' : sourceError s srcs with
    | some addr => exact .inl ⟨addr, rfl, rfl⟩
    | none =>
      refine .inr ⟨rfl, ?_⟩
      cases h'' : loadAll s.mem srcs with
      | error x => exact .inl ⟨x, rfl, rfl⟩
      | ok vs => exact .inr ⟨vs, rfl, rfl⟩

/-- A staged command whose checks pass, that meets no bus error and whose inputs are loaded, completes. -/
theorem staged_completes {srcs : List Operand} {dst : Operand} (f : (Nat → Word) → List Lanes → Lanes) {s : State}
    {vs : List Lanes} (hc : checkOperands s.platform.memSize (srcs ++ [dst]) = none) (hr : sourceError s srcs = none)
    (hl : loadAll s.mem srcs = .ok vs) (hw : dst.writeError s.platform = false) :
    staged srcs dst f s = .next
      ({ s with mem := s.mem.storeLanes dst.base.toNat (storedLanes s dst.kind (f s.nans vs)) }.complete).tick := by
  simp [staged, hc, hr, hl, State.storeResult_clean hw]

end Sys2Proof.Machine
end

