-- ==== Sys2Proof/Laws/Dot.lean ====
section
/-! SUPPORT. What DOTB can do (44_dot R202). -/

namespace Sys2Proof.Machine

/-! ### The loop -/

/-- The loop, from element `i`, writes nothing but the bytes of the elements it has yet to write. -/
theorem dotbLoop_read_outside (draw : Nat → Word) (a : Lanes) (vectors dst : Nat) :
    ∀ (count i : Nat) (m : Memory) {m' : Memory}, dotbLoop draw a vectors dst count i m = .ok m' →
      ∀ x, x < dst + 4 * i ∨ dst + 4 * (i + count) ≤ x → m'.read x = m.read x := by
  intro count
  induction count with
  | zero => intro i m m' h x _; cases h; rfl
  | succ count ih =>
    intro i m m' h x hx
    simp only [dotbLoop] at h
    split at h
    · cases h
    · rw [ih _ _ h x (by omega), Memory.read_writeWord_outside _ _ (by omega)]

theorem dotbLoop_wf (draw : Nat → Word) (a : Lanes) (vectors dst : Nat) :
    ∀ (count i : Nat) {m m' : Memory}, m.wf → dotbLoop draw a vectors dst count i m = .ok m' → m'.wf := by
  intro count
  induction count with
  | zero => intro i m m' hm h; cases h; exact hm
  | succ count ih =>
    intro i m m' hm h
    simp only [dotbLoop] at h
    split at h
    · cases h
    · exact ih _ (Memory.writeBytes_wf _ hm _) h

theorem dotbLoop_mem (draw : Nat → Word) (a : Lanes) (vectors dst : Nat) :
    ∀ (count i : Nat) {m m' : Memory}, dotbLoop draw a vectors dst count i m = .ok m' →
      ∀ c ∈ m', (dst ≤ c.1 ∧ c.1 < dst + 4 * (i + count)) ∨ c ∈ m := by
  intro count
  induction count with
  | zero => intro i m m' h c hc; cases h; exact .inr hc
  | succ count ih =>
    intro i m m' h c hc
    simp only [dotbLoop] at h
    split at h
    · cases h
    · rcases ih _ h c hc with h' | h'
      · left; omega
      · rcases Memory.mem_writeBytes _ h' with h' | h'
        · left; simp only [wordBytes_length] at h'; omega
        · exact .inr h'

/-- A lane the loop finds unwritten was unwritten before it. -/
theorem dotbLoop_uninitialised (draw : Nat → Word) (a : Lanes) (vectors dst : Nat) :
    ∀ (count i : Nat) (m : Memory) {x : Nat}, dotbLoop draw a vectors dst count i m = .error x →
      m.readWord x = none ∧ ∃ j k, j < i + count ∧ k < 4 ∧ x = vectors + 16 * j + 4 * k := by
  intro count
  induction count with
  | zero => intro i m x h; cases h
  | succ count ih =>
    intro i m x h
    simp only [dotbLoop] at h
    split at h
    · next hx =>
      cases h
      obtain ⟨hr, k, hk, rfl⟩ := Memory.loadLanes_error _ _ _ hx
      exact ⟨hr, i, k, by omega, hk, rfl⟩
    · obtain ⟨hr, j, k, hj, hk, rfl⟩ := ih _ _ h
      exact ⟨Memory.readWord_none_of_writeWord hr, j, k, by omega, hk, rfl⟩

/-! ### The elements a bus error stops -/

theorem firstElementError_none_iff (p : Platform) (base stride lanes n : Nat) (access : Access) :
    firstElementError p base stride lanes n access = none ↔
      ∀ i < n, lanesError p (base + stride * i) lanes access = false := by
  simp [firstElementError]

/-- The first element that errs does, and none before it. -/
theorem firstElementError_some {p : Platform} {base stride lanes n i : Nat} {access : Access}
    (h : firstElementError p base stride lanes n access = some i) :
    i < n ∧ lanesError p (base + stride * i) lanes access = true ∧
      ∀ j < i, lanesError p (base + stride * j) lanes access = false := by
  rw [firstElementError, List.find?_range_eq_some] at h
  simpa [and_assoc, and_comm, and_left_comm] using h

theorem dotbReach_le (p : Platform) (dst vectors n : Nat) : dotbReach p dst vectors n ≤ n := by
  unfold dotbReach
  split
  · next h => exact (firstElementError_some h).1
  · split
    · next h => exact (firstElementError_some h).1
    · exact Nat.le_refl _

/-- With no bus error DOTB reaches every element. -/
theorem dotbReach_clean {p : Platform} {dst vectors n : Nat} (hr : firstElementError p vectors 16 4 n .read = none)
    (hw : firstElementError p dst 4 1 n .write = none) : dotbReach p dst vectors n = n := by
  simp [dotbReach, hr, hw]

end Sys2Proof.Machine
end

