-- ==== Sys2Proof/Laws/Exec.lean ====
section
/-! SUPPORT. Everything a command can do to the state, said once (40_control R131, R132; 60_exceptions R230). -/

namespace Sys2Proof.Machine

/-! ### Every command but HALT, NOP and DOTB is a staged command -/

/-- `i` is the staged command with these operands and this function of the inputs, whose result fills the output's lanes. -/
structure IsStaged (i : Instr) (srcs : List Operand) (dst : Operand) (f : (Nat → Word) → List Lanes → Lanes) : Prop where
  operands : operandsOf i = srcs ++ [dst]
  meaning : ∀ s, exec i s = staged srcs dst f s
  length : ∀ draw vs, (f draw vs).length = dst.kind.valueLanes

@[simp] theorem lanes33_length (f : Nat → Nat → Word) : (lanes33 f).length = 9 := by simp [lanes33]

@[simp] theorem lanes44_length (f : Nat → Nat → Word) : (lanes44 f).length = 16 := by simp [lanes44]

@[simp] theorem lanesV4_length (f : Nat → Word) : (lanesV4 f).length = 4 := by simp [lanesV4]

@[simp] theorem addLanes_length (n : Nat) (draw : Nat → Word) (a b : Lanes) : (addLanes n draw a b).length = n := by
  simp [addLanes]

@[simp] theorem scaleLanes_length (n : Nat) (imm : Word) (draw : Nat → Word) (a : Lanes) :
    (scaleLanes n imm draw a).length = n := by
  simp [scaleLanes]

@[simp] theorem inverse44_length (draw : Nat → Word) (m : Lanes) : (inverse44 draw m).length = 16 := rfl

@[simp] theorem product33_length (draw : Nat → Word) (a b : Lanes) : (product33 draw a b).length = 9 := by
  simp [product33]

@[simp] theorem product44_length (draw : Nat → Word) (a b : Lanes) : (product44 draw a b).length = 16 := by
  simp [product44]

@[simp] theorem product44V_length (draw : Nat → Word) (a x : Lanes) : (product44V draw a x).length = 4 := by
  simp [product44V]

@[simp] theorem transpose33_length (a : Lanes) : (transpose33 a).length = 9 := by simp [transpose33]

@[simp] theorem transpose44_length (a : Lanes) : (transpose44 a).length = 16 := by simp [transpose44]

theorem IsStaged.unary {i : Instr} {src dst : Operand} {f : (Nat → Word) → Lanes → Lanes}
    (ho : operandsOf i = [src, dst]) (hm : ∀ s, exec i s = stagedUnary src dst f s)
    (hl : ∀ draw a, (f draw a).length = dst.kind.valueLanes) :
    ∃ srcs dst f, IsStaged i srcs dst f :=
  ⟨[src], dst, fun draw vs => f draw (vs.getD 0 []), ho, hm, fun _ _ => hl _ _⟩

theorem IsStaged.binary {i : Instr} {srcA srcB dst : Operand} {f : (Nat → Word) → Lanes → Lanes → Lanes}
    (ho : operandsOf i = [srcA, srcB, dst]) (hm : ∀ s, exec i s = stagedBinary srcA srcB dst f s)
    (hl : ∀ draw a b, (f draw a b).length = dst.kind.valueLanes) :
    ∃ srcs dst f, IsStaged i srcs dst f :=
  ⟨[srcA, srcB], dst, fun draw vs => f draw (vs.getD 0 []) (vs.getD 1 []), ho, hm, fun _ _ => hl _ _ _⟩

theorem exec_staged (i : Instr) (hh : i ≠ .halt) (hn : i ≠ .nop) (hd : ∀ d a v n, i ≠ .dotb d a v n) :
    ∃ srcs dst f, IsStaged i srcs dst f := by
  cases i with
  | halt => exact absurd rfl hh
  | nop => exact absurd rfl hn
  | dotb d a v n => exact absurd rfl (hd d a v n)
  | mul33 d a b => exact IsStaged.binary rfl (fun _ => rfl) product33_length
  | mul44 d a b => exact IsStaged.binary rfl (fun _ => rfl) product44_length
  | mul44v d a x => exact IsStaged.binary rfl (fun _ => rfl) product44V_length
  | trn33 d a => exact IsStaged.unary (f := fun _ v => transpose33 v) rfl (fun _ => rfl) fun _ v => transpose33_length v
  | trn44 d a => exact IsStaged.unary (f := fun _ v => transpose44 v) rfl (fun _ => rfl) fun _ v => transpose44_length v
  | inv44 d a => exact IsStaged.unary rfl (fun _ => rfl) inverse44_length
  | dot d a b => exact IsStaged.binary (f := fun draw u v => [dot4 draw 0 u v]) rfl (fun _ => rfl) fun _ _ _ => rfl
  | add33 d a b => exact IsStaged.binary rfl (fun _ => rfl) (addLanes_length 9)
  | add44 d a b => exact IsStaged.binary rfl (fun _ => rfl) (addLanes_length 16)
  | addv4 d a b => exact IsStaged.binary rfl (fun _ => rfl) (addLanes_length 4)
  | smul33 d a imm => exact IsStaged.unary rfl (fun _ => rfl) (scaleLanes_length 9 imm)
  | smul44 d a imm => exact IsStaged.unary rfl (fun _ => rfl) (scaleLanes_length 16 imm)
  | smulv4 d a imm => exact IsStaged.unary rfl (fun _ => rfl) (scaleLanes_length 4 imm)

/-! ### What a command writes -/

/-- `m` differs from the memory of `s` only in the bytes of a region inside the data space. -/
structure WritesOnly (s : State) (r : Region) (m : Memory) : Prop where
  wf : s.mem.wf → m.wf
  outside : ∀ x, r.contains x = false → m.read x = s.mem.read x
  inRange : ∀ c ∈ m, c ∈ s.mem ∨ c.1 < s.platform.memSize

theorem Region.contains_false_iff (r : Region) (x : Nat) : r.contains x = false ↔ x < r.base ∨ r.base + r.len ≤ x := by
  simp only [Region.contains, Bool.and_eq_false_iff, decide_eq_false_iff_not]
  omega

theorem WritesOnly.refl (s : State) (r : Region) : WritesOnly s r s.mem := ⟨id, fun _ _ => rfl, fun _ h => .inl h⟩

/-- Tearing bytes of a region after writing only that region. -/
theorem WritesOnly.tear {s : State} {r q : Region} {m : Memory} (h : WritesOnly s r m) (draws : Nat)
    (hb : r.base ≤ q.base) (hl : q.base + q.len ≤ r.base + r.len) (hr : r.base + r.len ≤ s.platform.memSize) :
    WritesOnly s r (m.writeBytes q.base ((List.range q.len).map (Config.tornByte draws))) where
  wf hs := Memory.writeBytes_wf _ (h.wf hs) _
  outside x hx := by
    rw [← h.outside x hx, Memory.read_writeBytes_outside _ _ _ _ ?_]
    rw [Region.contains_false_iff] at hx
    simp only [List.length_map, List.length_range]
    omega
  inRange c hc := by
    rcases Memory.mem_writeBytes _ hc with hc | hc
    · right; simp only [List.length_map, List.length_range] at hc; omega
    · exact h.inRange c hc

/-- What a command that answers a next state did: it completed, it halted, or it raised a fault; the memory differs from
the old one only in the output region, and not at all for a fault other than a bus error. -/
inductive ExecResult (i : Instr) (s t : State) : Prop
  | completed (m : Memory) (k : Nat) (r : Region) (h : t = { { s with mem := m }.complete with draws := k })
      (hi : i ≠ .halt) (ho : outputOf i = some r ∨ m = s.mem) (hm : WritesOnly s r m)
  | halted (hi : i = .halt) (h : t = s.complete.halt)
  | faulted (m : Memory) (code : FaultCode) (addr : Word) (k : Nat) (r : Region)
      (h : t = { { s with mem := m }.raiseFault code addr with draws := k })
      (ho : outputOf i = some r ∨ m = s.mem) (hm : WritesOnly s r m)
      (hc : code = .busError ∨
        ((code = .operandMisaligned ∨ code = .operandRange) ∧ m = s.mem ∧ ∃ o ∈ operandsOf i, addr = o.base))

theorem outputOf_staged {i : Instr} {srcs : List Operand} {dst : Operand} {f : (Nat → Word) → List Lanes → Lanes}
    (h : IsStaged i srcs dst f) : outputOf i = some dst.region := by
  simp [outputOf, h.operands]

theorem dst_in_range {memSize : Nat} {srcs : List Operand} {dst : Operand}
    (h : checkOperands memSize (srcs ++ [dst]) = none) : dst.region.base + dst.region.len ≤ memSize :=
  ((checkOperands_none_iff _ _).1 h dst (by simp)).2

theorem staged_result {i : Instr} {srcs : List Operand} {dst : Operand} {f : (Nat → Word) → List Lanes → Lanes}
    (hi : IsStaged i srcs dst f) (hne : i ≠ .halt) {s t : State} (h : exec i s = .next t) : ExecResult i s t := by
  rw [hi.meaning] at h
  rcases staged_cases srcs dst f s with ⟨code, addr, hc, he⟩ | ⟨hc, ⟨addr, -, he⟩ | ⟨-, ⟨x, -, he⟩ | ⟨vs, -, he⟩⟩⟩
  · rw [he] at h; cases h
    obtain ⟨hcode, ho⟩ := checkOperands_some hc
    exact .faulted s.mem code addr s.draws dst.region rfl (.inr rfl) (.refl _ _)
      (.inr ⟨hcode, rfl, by rw [hi.operands]; exact ho⟩)
  · rw [he] at h; cases h
    exact .faulted s.mem .busError addr (s.draws + 1) dst.region rfl (.inr rfl) (.refl _ _) (.inl rfl)
  · rw [he] at h; cases h
  · rw [he] at h; cases h
    have hr := dst_in_range hc
    cases hw : dst.writeError s.platform with
    | true =>
      rw [State.storeResult_error hw]
      exact .faulted _ .busError dst.base (s.draws + 1) dst.region rfl (.inl (outputOf_staged hi))
        ((WritesOnly.refl s dst.region).tear s.draws (Nat.le_refl _) (Nat.le_refl _) hr) (.inl rfl)
    | false =>
      rw [State.storeResult_clean hw]
      have hlen := storedLanes_length (s := s) (hi.length s.nans vs)
      refine .completed _ (s.draws + 1) dst.region rfl hne (.inl (outputOf_staged hi)) ⟨?_, ?_, ?_⟩
      · exact fun hs => Memory.storeLanes_wf _ hs _
      · intro x hx
        rw [Region.contains_false_iff] at hx
        exact Memory.storeLanes_read_outside _ _ _ _ (by rw [hlen]; exact hx)
      · intro c hc'
        rcases Memory.mem_storeLanes _ hc' with hc' | hc'
        · right; rw [hlen] at hc'; exact Nat.lt_of_lt_of_le hc'.2 hr
        · exact .inl hc'

/-- Everything DOTB's elements can do once no read meets a bus error (44_dot R202). -/
theorem dotbElements_result {d a v n : Word} {la : Lanes} {s t : State}
    (hr : d.toNat + 4 * n.toNat ≤ s.platform.memSize) (h : dotbElements d v n la s = .next t) :
    ExecResult (.dotb d a v n) s t := by
  have hout : outputOf (.dotb d a v n) = some ⟨d.toNat, 4 * n.toNat⟩ := rfl
  have hle := dotbReach_le s.platform d.toNat v.toNat n.toNat
  unfold dotbElements at h
  split at h
  · cases h
  · next m hm =>
    split at h
    · cases h
      refine .completed m _ _ rfl (by simp) (.inl hout) ⟨fun hs => dotbLoop_wf _ _ _ _ _ _ hs hm, fun x hx => ?_, fun c hc => ?_⟩
      · rw [Region.contains_false_iff] at hx
        exact dotbLoop_read_outside _ _ _ _ _ _ _ hm x (by simp only at hx; omega)
      · rcases dotbLoop_mem _ _ _ _ _ _ hm c hc with hc | hc
        · right; omega
        · exact .inl hc
    · cases h
      exact .faulted _ _ _ _ _ rfl (.inl hout)
        ((WritesOnly.refl s ⟨d.toNat, 4 * n.toNat⟩).tear s.draws (Nat.le_refl _) (Nat.le_refl _) hr) (.inl rfl)

theorem dotb_result {d a v n : Word} {s t : State} (h : exec (.dotb d a v n) s = .next t) :
    ExecResult (.dotb d a v n) s t := by
  have h' : execDotb d a v n s = .next t := h
  have busFault : ∀ addr, t = s.raiseFault .busError addr → ExecResult (.dotb d a v n) s t := fun addr ht =>
    .faulted s.mem _ addr s.draws ⟨0, 0⟩ ht (.inr rfl) (.refl _ _) (.inl rfl)
  unfold execDotb at h'
  split at h'
  · next code addr hc =>
    cases h'
    obtain ⟨hcode, ho⟩ := checkOperands_some hc
    exact .faulted s.mem code addr s.draws ⟨0, 0⟩ rfl (.inr rfl) (.refl _ _) (.inr ⟨hcode, rfl, ho⟩)
  · next hc =>
    have hr : d.toNat + 4 * n.toNat ≤ s.platform.memSize :=
      ((checkOperands_none_iff _ _).1 hc ⟨d, .f32Array n.toNat⟩ (by simp)).2
    split at h'
    · cases h'; exact .completed s.mem s.draws ⟨0, 0⟩ rfl (by simp) (.inr rfl) (.refl _ _)
    · split at h'
      · cases h'; exact busFault _ rfl
      · split at h'
        · cases h'; exact busFault _ rfl
        · split at h'
          · cases h'
          · exact dotbElements_result hr h'

/-- Every command that answers a next state completed, halted or raised a fault. -/
theorem exec_result {i : Instr} {s t : State} (h : exec i s = .next t) : ExecResult i s t := by
  by_cases hh : i = .halt
  · subst hh; cases h; exact .halted rfl rfl
  by_cases hn : i = .nop
  · subst hn; cases h; exact .completed s.mem s.draws ⟨0, 0⟩ rfl (by simp) (.inr rfl) (.refl _ _)
  cases i with
  | dotb d a v n => exact dotb_result h
  | _ =>
    obtain ⟨srcs, dst, f, hi⟩ := exec_staged _ hh hn (by simp)
    exact staged_result hi hh h

end Sys2Proof.Machine
end

