-- ==== Sys2Proof/Laws/Float.lean ====
section
/-! SUPPORT. The laws of rounding and of the NaN results (00_scope R9, R10, R16). -/

namespace Sys2Proof.Machine

/-! ### Words and their values -/

theorem packed_toNat {neg : Bool} {p : Nat} (h : p < 2 ^ 31) :
    (packed neg p).toNat = if neg then 2 ^ 31 + p else p := by
  unfold packed
  rw [BitVec.toNat_ofNat, Nat.mod_eq_of_lt]
  split <;> omega

theorem packed_pattern {neg : Bool} {p : Nat} (h : p < 2 ^ 31) : (packed neg p).toNat % 2 ^ 31 = p := by
  rw [packed_toNat h]; cases neg <;> simp <;> omega

theorem packed_msb {neg : Bool} {p : Nat} (h : p < 2 ^ 31) : (packed neg p).msb = neg := by
  rw [BitVec.msb_eq_decide, packed_toNat h]; cases neg <;> simp <;> omega

/-- A word is its sign and its pattern. -/
theorem packed_self (x : Word) : packed x.msb (x.toNat % 2 ^ 31) = x := by
  apply BitVec.eq_of_toNat_eq
  rw [packed_toNat (Nat.mod_lt _ (by decide)), BitVec.msb_eq_decide]
  have := x.isLt
  by_cases h : 2 ^ 31 ≤ x.toNat
  · rw [if_pos (decide_eq_true h)]; omega
  · rw [if_neg (by rw [decide_eq_true_eq]; exact h)]; omega

theorem infPattern_lt : infPattern < 2 ^ 31 := by decide

/-- The value of a finite word with a given sign and pattern. -/
theorem float32_packed {neg : Bool} {p : Nat} (h : p < infPattern) : float32 (packed neg p) = .fin neg (magOf p) := by
  have h' : p < 2 ^ 31 := Nat.lt_trans h infPattern_lt
  unfold float32
  rw [packed_pattern h', packed_msb h']
  exact (if_neg (Nat.not_lt.2 (Nat.le_of_lt h))).trans (if_neg (Nat.ne_of_lt h))

theorem float32_inf (neg : Bool) : float32 (packed neg infPattern) = .inf neg := by
  unfold float32
  rw [packed_pattern infPattern_lt, packed_msb infPattern_lt]
  exact (if_neg (Nat.lt_irrefl _)).trans (if_pos rfl)

theorem isNaN_iff (x : Word) : isNaN x = true ↔ float32 x = .nan := by
  unfold isNaN float32
  rw [decide_eq_true_eq]
  dsimp only
  split
  · next h => exact ⟨fun _ => rfl, fun _ => h⟩
  · next h => split <;> exact ⟨fun h' => absurd h' h, fun h' => by cases h'⟩

theorem quietNaN_quiet (d : Word) : isQuietNaN (quietNaN d) = true := by
  simp only [isQuietNaN, beq_iff_eq]
  apply BitVec.eq_of_getLsbD_eq
  intro i hi
  have : i = 0 ∨ i = 1 ∨ i = 2 ∨ i = 3 ∨ i = 4 ∨ i = 5 ∨ i = 6 ∨ i = 7 ∨ i = 8 := by omega
  rcases this with rfl | rfl | rfl | rfl | rfl | rfl | rfl | rfl | rfl <;> simp [quietNaN]

/-! ### Rounding -/

theorem roundEven_mul (q : Nat) {d : Nat} (h : 0 < d) : roundEven (q * d) d = q := by
  simp only [roundEven, Nat.mul_div_cancel _ h, Nat.mul_mod_left]
  split <;> omega

theorem roundEven_bounds (n : Nat) {d : Nat} (h : 0 < d) :
    n / d ≤ roundEven n d ∧ roundEven n d ≤ n / d + 1 ∧ 2 * n ≤ (2 * roundEven n d + 1) * d ∧
      2 * roundEven n d * d ≤ 2 * n + d := by
  have hn := Nat.div_add_mod n d
  have hr := Nat.mod_lt n h
  have e1 : ∀ q, (2 * q + 1) * d = 2 * (d * q) + d := fun q => by rw [Nat.add_mul, Nat.one_mul, Nat.mul_assoc, Nat.mul_comm q d]
  have e2 : ∀ q, 2 * q * d = 2 * (d * q) := fun q => by rw [Nat.mul_assoc, Nat.mul_comm q d]
  have e3 : d * (n / d + 1) = d * (n / d) + d := by rw [Nat.mul_add, Nat.mul_one]
  simp only [roundEven]
  split
  · rw [e1, e2]; omega
  · split
    · rw [e1, e2, e3]; omega
    · split
      · rw [e1, e2]; omega
      · rw [e1, e2, e3]; omega

/-- The magnitude of a pattern by its exponent step: k = 0 below the second normal binade. -/
theorem magOf_step (p : Nat) : ∃ k r, p = k * 2 ^ 23 + r ∧ magOf p = r * 2 ^ k ∧ r < 2 ^ 24 ∧ (k = 0 ∨ 2 ^ 23 ≤ r) := by
  unfold magOf
  split
  · exact ⟨0, p, by omega, by omega, by omega, .inl rfl⟩
  · have := Nat.div_add_mod p (2 ^ 23)
    have := Nat.mod_lt p (show 0 < 2 ^ 23 by decide)
    refine ⟨p / 2 ^ 23 - 1, 2 ^ 23 + p % 2 ^ 23, ?_, rfl, by omega, .inr (by omega)⟩
    omega

/-- A magnitude that a finite pattern stands for rounds to that pattern: rounding is exact on exact values. -/
theorem roundedPattern_exact {p : Nat} (hp : p < infPattern) {d : Nat} (hd : 0 < d) :
    roundedPattern (magOf p * d) d = p := by
  obtain ⟨k, r, rfl, hm, hr, hk⟩ := magOf_step p
  have hlog : Nat.log2 (r * 2 ^ k) - 23 = k := by
    rcases hk with rfl | hk
    · rw [Nat.pow_zero, Nat.mul_one]
      by_cases h0 : r = 0
      · subst h0; decide
      · have := (Nat.log2_lt h0).2 hr; omega
    · have h0 : r * 2 ^ k ≠ 0 := Nat.mul_ne_zero (by omega) (Nat.ne_of_gt (Nat.two_pow_pos k))
      have h1 : Nat.log2 (r * 2 ^ k) < 24 + k :=
        (Nat.log2_lt h0).2 (by rw [Nat.pow_add]; exact Nat.mul_lt_mul_of_pos_right hr (Nat.two_pow_pos k))
      have h2 : 23 + k ≤ Nat.log2 (r * 2 ^ k) :=
        (Nat.le_log2 h0).2 (by rw [Nat.pow_add]; exact Nat.mul_le_mul_right _ hk)
      omega
  simp only [roundedPattern]
  rw [Nat.mul_div_cancel _ hd, hm, hlog]
  have : r * 2 ^ k * d = r * (d * 2 ^ k) := by rw [Nat.mul_assoc, Nat.mul_comm (2 ^ k) d]
  rw [this, roundEven_mul r (Nat.mul_pos hd (Nat.two_pow_pos k))]
  omega

end Sys2Proof.Machine
end

