-- ==== Sys2Proof/Laws/PerInstr.lean ====
section
/-! SUPPORT. Laws stated of every command as syntax, one lemma per constructor. -/

namespace Sys2Proof.Laws.EncodedWellFormed

/-- The words a command encodes to are ones the decoder must accept, by the spec's field table read on its own: assigned OPC,
reserved and MBZ fields 0 (30_encoding R102, R106). -/
def Statement (i : Instr) : Prop := (encode i).wellFormed = true

theorem halt : Statement .halt := rfl

theorem nop : Statement .nop := rfl

theorem mul33 (dst a b : Word) : Statement (.mul33 dst a b) := by
  simp [Statement, RawCommand.wellFormed, encode, Instr.opcode, Instr.fields, Opcode.byte, fieldUse]

theorem mul44 (dst a b : Word) : Statement (.mul44 dst a b) := by
  simp [Statement, RawCommand.wellFormed, encode, Instr.opcode, Instr.fields, Opcode.byte, fieldUse]

theorem mul44v (dst a x : Word) : Statement (.mul44v dst a x) := by
  simp [Statement, RawCommand.wellFormed, encode, Instr.opcode, Instr.fields, Opcode.byte, fieldUse]

theorem trn33 (dst a : Word) : Statement (.trn33 dst a) := by
  simp [Statement, RawCommand.wellFormed, encode, Instr.opcode, Instr.fields, Opcode.byte, fieldUse]

theorem trn44 (dst a : Word) : Statement (.trn44 dst a) := by
  simp [Statement, RawCommand.wellFormed, encode, Instr.opcode, Instr.fields, Opcode.byte, fieldUse]

theorem inv44 (dst a : Word) : Statement (.inv44 dst a) := by
  simp [Statement, RawCommand.wellFormed, encode, Instr.opcode, Instr.fields, Opcode.byte, fieldUse]

theorem dot (dst a b : Word) : Statement (.dot dst a b) := by
  simp [Statement, RawCommand.wellFormed, encode, Instr.opcode, Instr.fields, Opcode.byte, fieldUse]

theorem dotb (dst a vectors n : Word) : Statement (.dotb dst a vectors n) := by
  simp [Statement, RawCommand.wellFormed, encode, Instr.opcode, Instr.fields, Opcode.byte, fieldUse]

theorem add33 (dst a b : Word) : Statement (.add33 dst a b) := by
  simp [Statement, RawCommand.wellFormed, encode, Instr.opcode, Instr.fields, Opcode.byte, fieldUse]

theorem add44 (dst a b : Word) : Statement (.add44 dst a b) := by
  simp [Statement, RawCommand.wellFormed, encode, Instr.opcode, Instr.fields, Opcode.byte, fieldUse]

theorem addv4 (dst a b : Word) : Statement (.addv4 dst a b) := by
  simp [Statement, RawCommand.wellFormed, encode, Instr.opcode, Instr.fields, Opcode.byte, fieldUse]

theorem smul33 (dst a imm : Word) : Statement (.smul33 dst a imm) := by
  simp [Statement, RawCommand.wellFormed, encode, Instr.opcode, Instr.fields, Opcode.byte, fieldUse]

theorem smul44 (dst a imm : Word) : Statement (.smul44 dst a imm) := by
  simp [Statement, RawCommand.wellFormed, encode, Instr.opcode, Instr.fields, Opcode.byte, fieldUse]

theorem smulv4 (dst a imm : Word) : Statement (.smulv4 dst a imm) := by
  simp [Statement, RawCommand.wellFormed, encode, Instr.opcode, Instr.fields, Opcode.byte, fieldUse]

end Sys2Proof.Laws.EncodedWellFormed
end

