-- ==== Sys2Proof/Laws/Step.lean ====
section
/-! SUPPORT. What the fetch, the engine's turn, the host's moves, a reset and the placing of a command can do (40_control R130,
10_state R43 to R56, 20_memory R83, 70_reset R270). -/

namespace Sys2Proof.Machine

/-! ### The fetch and the engine's turn -/

/-- A fetch of eight written words reaches the decoder (40_control R130). -/
theorem State.fetch_decodes {s : State} {c : RawCommand} (ha : s.cmdPtr.toNat % 32 = 0)
    (hr : s.cmdPtr.toNat + 32 ≤ s.platform.memSize) (hb : busErrorAt s.platform s.cmdPtr.toNat 32 .read = false)
    (hd : s.hostWroteIn ⟨s.cmdPtr.toNat, 32⟩ = false) (hl : s.mem.loadLanes s.cmdPtr.toNat 8 = .ok c.words) :
    s.fetch = match decode c with
      | .ok i => .command i
      | .error e => .trap (faultOfDecode e) s.cmdPtr := by
  simp only [State.fetch, ha, hb, hd, hl, RawCommand.words, RawCommand.ofWords, ne_eq, not_true_eq_false, if_false,
    Nat.not_lt.2 hr, Bool.false_eq_true]
  all_goals rfl

/-- Everything the engine's turn can do that answers a next state. -/
theorem engineTurn_next {s t : State} (h : engineTurn s = .next t) :
    (s.running = false ∧ t = s) ∨
    (s.running = true ∧ ((∃ code addr, s.fetch = .trap code addr ∧ t = s.raiseFault code addr) ∨
      (∃ i u, s.fetch = .command i ∧ s.breaksDuty i = false ∧ exec i s = .next u ∧ t = u.noteRun s.cmdPtr i))) := by
  unfold engineTurn at h
  split at h
  · next hb =>
    refine .inr ⟨hb, ?_⟩
    split at h
    · next hf => cases h; exact .inl ⟨_, _, hf, rfl⟩
    · cases h
    · cases h
    · next i hf =>
      split at h
      · cases h
      · next hd =>
        split at h
        · next u hu => cases h; exact .inr ⟨i, u, hf, by simpa using hd, hu, rfl⟩
        · cases h
        · cases h
  · next hb => cases h; exact .inl ⟨by simpa using hb, rfl⟩

/-- The fetch is that of the state with another schedule. -/
@[simp] theorem State.fetch_schedule (s : State) (l : List Move) : { s with schedule := l }.fetch = s.fetch := rfl

/-- A step with the engine's turn next in the schedule is that turn of the state without it. -/
theorem step_of_schedule {s : State} {m : Move} {rest : List Move} (h : s.schedule = m :: rest) :
    step s = moveTurn m { s with schedule := rest } := by
  simp only [step, nextTurn, h]

theorem step_of_empty {s : State} (h : s.schedule = []) : step s = engineTurn s := by
  simp only [step, nextTurn, h]

/-! ### The command in progress -/

/-- What may be in progress during a run: the command a fetch finds, or, at bytes nothing has written, the one drawn for them. -/
theorem State.commandInProgress_some {s : State} {i : Instr} (h : s.commandInProgress = some i) :
    s.running = true ∧ (s.fetch = .command i ∨ ∃ x, s.fetch = .unwritten x ∧ decode s.drawnCommand = .ok i) := by
  unfold State.commandInProgress at h
  split at h
  · next hr =>
    refine ⟨hr, ?_⟩
    split at h
    · cases h
    · cases h
    · next hf => cases h; exact .inl hf
    · next x hf =>
      split at h
      · next hd => cases h; exact .inr ⟨x, hf, hd⟩
      · cases h
  · cases h

theorem outputOf_in_range {s : State} {i : Instr} {r : Region}
    (h : checkOperands s.platform.memSize (operandsOf i) = none) (ho : outputOf i = some r) :
    r.base + r.len ≤ s.platform.memSize := by
  simp only [outputOf, Option.map_eq_some_iff] at ho
  obtain ⟨o, ho, rfl⟩ := ho
  exact ((checkOperands_none_iff _ _).1 h o (List.mem_of_getLast? ho)).2

/-- The output in progress is that of the command in progress, inside the data space. -/
theorem State.outputInProgress_some {s : State} {r : Region} (h : s.outputInProgress = some r) :
    ∃ i, s.commandInProgress = some i ∧ outputOf i = some r ∧ r.base + r.len ≤ s.platform.memSize := by
  unfold State.outputInProgress at h
  split at h
  · cases h
  · next i hi =>
    split at h
    · next hc => exact ⟨i, hi, h, outputOf_in_range (Option.isNone_iff_eq_none.1 hc) h⟩
    · cases h

/-! ### Reset and loss of power -/

/-- Everything abandoning a run does (70_reset R270). -/
theorem State.abandonRun_cases (s : State) :
    (s.outputInProgress = none ∧ s.abandonRun = s) ∨
    ∃ r, s.outputInProgress = some r ∧ s.abandonRun = s.tear r := by
  unfold State.abandonRun
  cases s.outputInProgress with
  | none => exact .inl ⟨rfl, rfl⟩
  | some r => exact .inr ⟨r, rfl, rfl⟩

/-- Abandoning a run changes memory alone. -/
theorem State.abandonRun_eq (s : State) : s.abandonRun = { s with mem := s.abandonRun.mem } := by
  rcases s.abandonRun_cases with ⟨-, h⟩ | ⟨r, -, h⟩ <;> rw [h]
  rfl

/-- Abandoning a run keeps every byte outside the output in progress. -/
theorem State.abandonRun_read {s : State} {x : Nat}
    (h : ∀ r, s.outputInProgress = some r → x < r.base ∨ r.base + r.len ≤ x) :
    s.abandonRun.mem.read x = s.mem.read x := by
  rcases s.abandonRun_cases with ⟨-, he⟩ | ⟨r, ho, he⟩ <;> rw [he]
  rw [State.tear_mem, Memory.read_writeBytes_outside _ _ _ _ (by simpa using h r ho)]

theorem State.abandonRun_wf {s : State} (h : s.mem.wf) : s.abandonRun.mem.wf := by
  rcases s.abandonRun_cases with ⟨-, he⟩ | ⟨r, -, he⟩ <;> rw [he]
  · exact h
  · exact Memory.writeBytes_wf _ h _

/-- Abandoning a run writes inside the data space. -/
theorem State.abandonRun_mem {s : State} {c : Host.Cell} (h : c ∈ s.abandonRun.mem) :
    c ∈ s.mem ∨ c.1 < s.platform.memSize := by
  rcases s.abandonRun_cases with ⟨-, he⟩ | ⟨r, ho, he⟩ <;> rw [he] at h
  · exact .inl h
  · obtain ⟨-, -, -, hr⟩ := State.outputInProgress_some ho
    rcases Memory.mem_writeBytes _ h with h | h
    · simp only [List.length_map, List.length_range] at h; exact .inr (by omega)
    · exact .inl h

/-- A block in which no run goes on has no output in progress. -/
theorem State.abandonRun_idle {s : State} (h : s.running = false) : s.abandonRun = s := by
  simp [State.abandonRun, State.outputInProgress, State.commandInProgress, h]

/-- Everything a reset does (70_reset R270, R271). -/
theorem State.resetBlock_eq (s : State) :
    s.resetBlock = { s.resetRegisters with mem := s.abandonRun.mem, draws := s.draws + 1 } := by
  rw [State.resetBlock, State.abandonRun_eq]
  rfl

/-- Everything a loss of power does (60_exceptions R255). -/
theorem State.losePower_eq (s : State) :
    s.losePower = { s.loseRegisters with mem := s.abandonRun.mem, draws := s.draws + 1 } := by
  rw [State.losePower, State.abandonRun_eq]
  rfl

/-! ### Host data accesses -/

/-- Everything a host write of the data space that answers a next state does (20_memory R70, R83). -/
theorem State.writeMem_next {s t : State} {a : Nat} {bs : List Byte} (h : s.writeMem a bs = .next t) :
    a + bs.length ≤ s.platform.memSize ∧ ∃ l, t = { s with mem := s.mem.writeBytes a bs, hostWrote := l } := by
  unfold State.writeMem at h
  split at h
  · cases h
  · next hr =>
    refine ⟨Nat.le_of_not_lt hr, ?_⟩
    simp only at h
    split at h
    · split at h
      · cases h
      · cases h; exact ⟨_, rfl⟩
    · cases h; exact ⟨s.hostWrote, rfl⟩

/-- Everything a host read of the data space that answers a next state does (20_memory R70, R83). -/
theorem State.readMem_next {s t : State} {a n : Nat} (h : s.readMem a n = .next t) :
    a + n ≤ s.platform.memSize ∧ ∃ bs, hostBytes s s.racing a n 0 = .ok bs ∧
      t = { s with hostRead := some (.bytes bs), draws := s.draws + 1 } := by
  unfold State.readMem at h
  split at h
  · cases h
  · next hr =>
    refine ⟨Nat.le_of_not_lt hr, ?_⟩
    split at h
    · cases h
    · next bs hbs => cases h; exact ⟨bs, hbs, rfl⟩

/-- What a host read returns: the byte in memory outside the racing regions (20_memory R83). It answers if every byte outside them has
been written (20_memory R80). -/
theorem hostBytes_ok (s : State) (racing : List Region) (addr : Nat) :
    ∀ n k, (∀ j < n, (∀ r ∈ racing, r.contains (addr + k + j) = false) → (s.mem.read (addr + k + j)).isSome) →
      ∃ bs, hostBytes s racing addr n k = .ok bs ∧ bs.length = n ∧
        ∀ j < n, (∀ r ∈ racing, r.contains (addr + k + j) = false) → bs[j]? = s.mem.read (addr + k + j) := by
  intro n
  induction n with
  | zero => intro k _; exact ⟨[], rfl, rfl, fun j hj => absurd hj (Nat.not_lt_zero j)⟩
  | succ n ih =>
    intro k h
    have shift : ∀ j, addr + (k + 1) + j = addr + k + (j + 1) := fun j => by omega
    obtain ⟨bs, hbs, hlen, hval⟩ := ih (k + 1) fun j hj hr => by
      rw [shift] at hr ⊢
      exact h (j + 1) (by omega) hr
    have tail : ∀ b : Byte, ∀ j < n, (∀ r ∈ racing, r.contains (addr + k + (j + 1)) = false) →
        (b :: bs)[j + 1]? = s.mem.read (addr + k + (j + 1)) := fun b j hj hr => by
      rw [← shift] at hr ⊢
      rw [List.getElem?_cons_succ]
      exact hval j hj hr
    unfold hostBytes
    by_cases hrace : racing.any (fun r => r.contains (addr + k)) = true
    · refine ⟨Config.racedByte s.draws k :: bs, by simp [hrace, hbs], by simp [hlen], fun j hj hr => ?_⟩
      cases j with
      | zero =>
        obtain ⟨r, hr', hc⟩ := List.any_eq_true.1 hrace
        exact absurd (hr r hr') (by rw [Nat.add_zero, hc]; decide)
      | succ j => exact tail _ j (by omega) hr
    · have hout : ∀ r ∈ racing, r.contains (addr + k + 0) = false := by simpa using hrace
      obtain ⟨b, hb⟩ := Option.isSome_iff_exists.1 (h 0 (by omega) hout)
      rw [Nat.add_zero] at hb
      refine ⟨b :: bs, by simp [hrace, hb, hbs], by simp [hlen], fun j hj hr => ?_⟩
      cases j with
      | zero => simpa using hb.symm
      | succ j => exact tail _ j (by omega) hr

/-! ### Placing a command (entry 7) -/

section placeCommand

variable (s : State) (bytes : List Byte)

@[simp] theorem State.placeCommand_cmdPtr : (s.placeCommand bytes).cmdPtr = s.fetchable := rfl

@[simp] theorem State.placeCommand_schedule : (s.placeCommand bytes).schedule = [] := rfl

@[simp] theorem State.placeCommand_hostWrote : (s.placeCommand bytes).hostWrote = [] := rfl

@[simp] theorem State.placeCommand_busy : (s.placeCommand bytes).busy = true := by
  simp only [State.placeCommand]; split
  · next h => exact (s.running_iff.1 h).1
  · rfl

@[simp] theorem State.placeCommand_phase : (s.placeCommand bytes).phase = .operating := rfl

@[simp] theorem State.placeCommand_platform : (s.placeCommand bytes).platform = s.platform := by
  simp only [State.placeCommand]; split <;> rfl

@[simp] theorem State.placeCommand_mem :
    (s.placeCommand bytes).mem = s.mem.writeBytes s.fetchable.toNat bytes := by
  simp only [State.placeCommand]; split <;> rfl

end placeCommand

/-- A command is placed where the alignment and range checks of the fetch pass. -/
theorem State.fetchable_fits {s : State} (h : 32 ≤ s.platform.memSize) :
    s.fetchable.toNat % 32 = 0 ∧ s.fetchable.toNat + 32 ≤ s.platform.memSize := by
  unfold State.fetchable
  split
  · assumption
  · exact ⟨rfl, by simpa using h⟩

end Sys2Proof.Machine
end

