-- ==== Sys2Proof/Machine/Assembler.lean ====
section
/-! DEFINITION. The assembler of 30_encoding R108, over source lines whose fields are already read: labels, `.org`, `.f32`, `.word` and
commands. The spec gives no characters for blanks, comments and identifiers, so no text is parsed here (entry 16). -/

namespace Sys2Proof.Machine

/-- The mnemonic of each opcode (30_encoding R105). -/
def mnemonicOf : Opcode → String
  | .halt => "HALT" | .nop => "NOP"
  | .mul33 => "MUL33" | .mul44 => "MUL44" | .mul44v => "MUL44V"
  | .trn33 => "TRN33" | .trn44 => "TRN44"
  | .inv44 => "INV44"
  | .dot => "DOT" | .dotb => "DOTB"
  | .add33 => "ADD33" | .add44 => "ADD44" | .addv4 => "ADDV4"
  | .smul33 => "SMUL33" | .smul44 => "SMUL44" | .smulv4 => "SMULV4"

/-- The opcode a mnemonic names: one command each, no pseudo-instructions (30_encoding R109). -/
def opcodeNamed (name : String) : Option Opcode := Opcode.all.find? fun op => mnemonicOf op == name

/-- A scalar: a decimal literal, (-1)^neg × digits × 10^exp10, or raw bits (30_encoding R108). -/
inductive Scalar where
  | decimal (neg : Bool) (digits : Nat) (exp10 : Int)
  | bits (w : Word)
  deriving DecidableEq, Repr

/-- The binary32 of a scalar; a decimal literal is rounded to nearest, ties to even (30_encoding R108, 00_scope R10). -/
def Scalar.word : Scalar → Word
  | .bits w => w
  | .decimal neg digits (.ofNat e) => rounded neg (digits * 10 ^ e * 2 ^ 149) 1
  | .decimal neg digits (.negSucc e) => rounded neg (digits * 2 ^ 149) (10 ^ (e + 1))

/-- An operand as written (30_encoding R108). -/
inductive SourceOperand where
  /-- An unsigned number: an address or a count. -/
  | number (n : Nat)
  /-- A label: the address of what follows it. -/
  | label (name : String)
  /-- `#imm`. -/
  | immediate (x : Scalar)
  deriving DecidableEq, Repr

/-- One source line (30_encoding R108). R108 does not say what form the address of an `.org` or a value of `.word` takes: the model takes
an unsigned number, and no label (DESIGN CHOICE, entry 16). -/
inductive SourceLine where
  | label (name : String)
  | org (addr : Nat)
  | f32 (xs : List Scalar)
  | word (ws : List Nat)
  | command (mnemonic : String) (operands : List SourceOperand)
  deriving DecidableEq, Repr

/-- What a command's operand stands for. -/
inductive FieldKind where
  | address
  | count
  | immediate
  deriving DecidableEq, Repr

/-- The operands of each opcode in field order, MBZ fields omitted (30_encoding R102, R108). -/
def operandFields : Opcode → List FieldKind
  | .halt | .nop => []
  | .trn33 | .trn44 | .inv44 => [.address, .address]
  | .mul33 | .mul44 | .mul44v | .dot | .add33 | .add44 | .addv4 => [.address, .address, .address]
  | .dotb => [.address, .address, .address, .count]
  | .smul33 | .smul44 | .smulv4 => [.address, .address, .immediate]

/-- An unsigned number that fits a field of 32 bits. -/
def wordOfNumber (n : Nat) : Option Word := if n < 2 ^ 32 then some (BitVec.ofNat 32 n) else none

/-- The word of one operand, `labels` giving the addresses of the labels. -/
def SourceOperand.word (labels : List (String × Nat)) : FieldKind → SourceOperand → Option Word
  | .address, .number n => wordOfNumber n
  | .address, .label name => (labels.lookup name).bind wordOfNumber
  | .count, .number n => wordOfNumber n
  | .immediate, .immediate x => some x.word
  | .address, .immediate _ | .count, .label _ | .count, .immediate _ | .immediate, .number _ | .immediate, .label _ => none

/-- The words of a command's operands; `none` for a wrong number or kind of operands. -/
def operandWords (labels : List (String × Nat)) : List FieldKind → List SourceOperand → Option (List Word)
  | [], [] => some []
  | k :: ks, o :: os =>
    match o.word labels k, operandWords labels ks os with
    | some w, some ws => some (w :: ws)
    | _, _ => none
  | [], _ :: _ | _ :: _, [] => none

/-- One source command (30_encoding R108, R109). -/
def assembleCommand (labels : List (String × Nat)) (mnemonic : String) (operands : List SourceOperand) : Option Instr :=
  match opcodeNamed mnemonic with
  | none => none
  | some op =>
    match operandWords labels (operandFields op) operands with
    | none => none
    | some ws =>
      some (RawCommand.toInstr ⟨0, lane ws 0, lane ws 1, lane ws 2, lane ws 3, 0, 0, 0⟩ op)

/-- The assembly address after a line. 30_encoding R108 sets no bound on the address of an `.org`, nor on the addresses after it: the model
takes any, 2^32 and more included (DESIGN CHOICE, entry 16). -/
def SourceLine.next (addr : Nat) : SourceLine → Nat
  | .label _ => addr
  | .org a => a
  | .f32 xs => addr + 4 * xs.length
  | .word ws => addr + 4 * ws.length
  | .command _ _ => addr + 32

/-- The address of each label (30_encoding R108). R108 says nothing of a label defined twice: the first definition is the one
`SourceOperand.word` finds. Of a label directly before an `.org` it says only "the address of what follows": the model gives the address
the assembly has reached there, before the `.org` moves it (both DESIGN CHOICE, entry 16). -/
def labelsOf (addr : Nat) : List SourceLine → List (String × Nat)
  | [] => []
  | .label name :: rest => (name, addr) :: labelsOf addr rest
  | line :: rest => labelsOf (line.next addr) rest

/-- The bytes a line emits. -/
def SourceLine.bytes (labels : List (String × Nat)) : SourceLine → Option (List Byte)
  | .label _ | .org _ => some []
  | .f32 xs => some (xs.flatMap fun x => wordBytes x.word)
  | .word ws => (ws.mapM wordOfNumber).map fun vs => vs.flatMap wordBytes
  | .command mnemonic operands => (assembleCommand labels mnemonic operands).map encodeBytes

/-- The bytes of each line at its address; `none` where a line is not of R108's form. -/
def assembleFrom (labels : List (String × Nat)) (addr : Nat) : List SourceLine → Option (List (Nat × List Byte))
  | [] => some []
  | line :: rest =>
    match line.bytes labels, assembleFrom labels (line.next addr) rest with
    | some bs, some out => some ((addr, bs) :: out)
    | _, _ => none

/-- Assemble a source from address 0 (30_encoding R108). -/
def assemble (lines : List SourceLine) : Option (List (Nat × List Byte)) := assembleFrom (labelsOf 0 lines) 0 lines

/-- The host writes an assembled source into the data space (70_reset R273). -/
def Memory.writeImage (m : Memory) : List (Nat × List Byte) → Memory
  | [] => m
  | (a, bs) :: rest => Memory.writeImage (m.writeBytes a bs) rest

end Sys2Proof.Machine
end

