-- ==== Sys2Proof/Tests/Slice0.lean ====
section
/-! SUPPORT. Small tests, their expected values from the spec (30_encoding R102 to R110, 95_test_vectors), and a witness for the
hypotheses of each statement. -/

namespace Sys2Proof.Tests

-- One theorem after the other: theorems waiting in parallel for the kernel hold a thread and its stack each.
set_option Elab.async false

open Sys2Proof.Machine Sys2Proof.Claims

/-! ### Helpers -/

/-- Memory holding each list of words at its address. -/
def memOf (data : List (Nat × List Word)) : Memory := data.foldl (fun m p => m.storeLanes p.1 p.2) []

/-- A running engine at 0x1000 on the platform of State.reset. -/
def ready (data : List (Nat × List Word)) : State :=
  { State.reset with mem := memOf data, busy := true, cmdPtr := 0x1000 }

/-- The `n` words at `a` in the state an outcome carries. -/
def wordsAt (o : Host.Outcome State Fault Refusal) (a n : Nat) : Option Lanes :=
  match o with
  | .next t =>
    match t.mem.loadLanes a n with
    | .ok ws => some ws
    | .error _ => none
  | .fault _ | .refused _ => none

/-- STATUS, ERR_ADDR, CMD_PTR and CMD_COUNT of the state an outcome carries. -/
def registersOf (o : Host.Outcome State Fault Refusal) : Option (Word × Word × Word × Word) :=
  match o with
  | .next t => some (t.statusWord, t.errAddr, t.cmdPtr, t.cmdCount)
  | .fault _ | .refused _ => none

/-- One engine step with a raw command at 0x1000. -/
def stepRaw (c : RawCommand) (data : List (Nat × List Word)) : Host.Outcome State Fault Refusal :=
  step (ready ((0x1000, c.words) :: data))

/-- Whether an outcome is the model's own fault of 20_memory R80 at this address. -/
def unwrittenAt (o : Host.Outcome State Fault Refusal) (x : Nat) : Bool :=
  match o with
  | .fault (.uninitialised y) => y == x
  | .next _ | .refused _ => false

/-- The matrices A and B and their product C (95_test_vectors S1). -/
def matA : Lanes :=
  [0x41200000, 0x40E00000, 0x41100000, 0x42000000, 0x41000000, 0x40400000, 0x41200000, 0x42A40000, 0x42A20000, 0x42140000,
   0x421C0000, 0x3F800000, 0x42B80000, 0x41100000, 0x40E00000, 0x40000000]

def matB : Lanes :=
  [0x42B40000, 0x42920000, 0x40400000, 0x40800000, 0x3F800000, 0x41800000, 0x40E00000, 0x41000000, 0x3F800000, 0x40400000,
   0x41980000, 0x42A20000, 0x40000000, 0x3F800000, 0x42CA0000, 0x41700000]

def matC : Lanes :=
  [0x44750000, 0x44614000, 0x4559A000, 0x44A32000, 0x44604000, 0x443A0000, 0x46051400, 0x45030000, 0x45E64000, 0x45CEF800,
   0x44A80000, 0x456D2000, 0x4601B000, 0x45D71800, 0x44288000, 0x4481A000]

/-- 1 to 9 and 9 to 1 (95_test_vectors V-MUL-1). -/
def up9 : Lanes := [0x3F800000, 0x40000000, 0x40400000, 0x40800000, 0x40A00000, 0x40C00000, 0x40E00000, 0x41000000, 0x41100000]

def down9 : Lanes := [0x41100000, 0x41000000, 0x40E00000, 0x40C00000, 0x40A00000, 0x40800000, 0x40400000, 0x40000000, 0x3F800000]

/-! ### WellFormed: what each check refuses -/

/-- R110. -/
theorem test_raw_mul44_ok : (⟨0x11, 0x2080, 0x2000, 0x2040, 0, 0, 0, 0⟩ : RawCommand).wellFormed = true := by decide +kernel

/-- V-CTL-3. -/
theorem test_raw_unassigned_opcode : (⟨0x02, 0, 0, 0, 0, 0, 0, 0⟩ : RawCommand).wellFormed = false := by decide +kernel

/-- V-CTL-4. -/
theorem test_raw_rsv0 : (⟨0x111, 0, 0, 0, 0, 0, 0, 0⟩ : RawCommand).wellFormed = false := by decide +kernel

/-- R101, R106. -/
theorem test_raw_rsv5 : (⟨0, 0, 0, 0, 0, 1, 0, 0⟩ : RawCommand).wellFormed = false := by decide +kernel

/-- R101, R106. -/
theorem test_raw_rsv6 : (⟨0, 0, 0, 0, 0, 0, 0x80000000, 0⟩ : RawCommand).wellFormed = false := by decide +kernel

/-- V-CTL-9. -/
theorem test_raw_rsv7 :
    (⟨0x10, 0x2080, 0x2000, 0x2040, 0, 0, 0, 0x80000000⟩ : RawCommand).wellFormed = false := by decide +kernel

/-- V-CTL-6. -/
theorem test_raw_mbz_dst : (⟨0, 4, 0, 0, 0, 0, 0, 0⟩ : RawCommand).wellFormed = false := by decide +kernel

/-- NOP has no SRCA (R102). -/
theorem test_raw_mbz_srca : (⟨1, 0, 1, 0, 0, 0, 0, 0⟩ : RawCommand).wellFormed = false := by decide +kernel

/-- V-CTL-7. -/
theorem test_raw_mbz_w3 : (⟨0x21, 0x2040, 0x2000, 1, 0, 0, 0, 0⟩ : RawCommand).wellFormed = false := by decide +kernel

/-- V-CTL-8. -/
theorem test_raw_mbz_n : (⟨0x60, 0x2040, 0x2000, 0x40000000, 1, 0, 0, 0⟩ : RawCommand).wellFormed = false := by decide +kernel

/-- 20_memory R72: F32 needs alignment 4, V4 alignment 16. -/
theorem test_instr_ok : Instr.wellFormed (.dot 0x3004 0x2000 0x2010) = true := by decide +kernel

/-- V-CTL-10. -/
theorem test_instr_misaligned_srca : Instr.wellFormed (.mul44 0x2080 0x2008 0x2040) = false := by decide +kernel

/-- V-CTL-11. -/
theorem test_instr_misaligned_m33 : Instr.wellFormed (.mul33 0x2080 0x2010 0x2040) = false := by decide +kernel

/-- P4. -/
theorem test_instr_misaligned_srcb : Instr.wellFormed (.add33 0x20C0 0x2000 0x2050) = false := by decide +kernel

/-- V-CTL-12. -/
theorem test_instr_misaligned_dst : Instr.wellFormed (.dot 0x3002 0x2000 0x2010) = false := by decide +kernel

/-- V-CTL-14. -/
theorem test_instr_past_the_space : Instr.wellFormed (.inv44 0x2000 0xFFFFFFF0) = false := by decide +kernel

/-- 20_memory R75: SRCB + 16N > 2^32. -/
theorem test_instr_array_past_the_space : Instr.wellFormed (.dotb 0x3000 0x2000 0x10 0x10000000) = false := by decide +kernel

/-! ### Decoding: a word written from the encoding (30_encoding R101, R102, R105) -/

theorem test_decode_halt : decode ⟨0x00, 0, 0, 0, 0, 0, 0, 0⟩ = .ok (.halt) := rfl

theorem test_decode_nop : decode ⟨0x01, 0, 0, 0, 0, 0, 0, 0⟩ = .ok (.nop) := rfl

theorem test_decode_mul33 : decode ⟨0x10, 0x2080, 0x2000, 0x2040, 0, 0, 0, 0⟩ = .ok (.mul33 0x2080 0x2000 0x2040) := rfl

theorem test_decode_mul44 : decode ⟨0x11, 0x2080, 0x2000, 0x2040, 0, 0, 0, 0⟩ = .ok (.mul44 0x2080 0x2000 0x2040) := rfl

theorem test_decode_mul44v : decode ⟨0x12, 0x2080, 0x2000, 0x2040, 0, 0, 0, 0⟩ = .ok (.mul44v 0x2080 0x2000 0x2040) := rfl

theorem test_decode_dot : decode ⟨0x40, 0x2080, 0x2000, 0x2040, 0, 0, 0, 0⟩ = .ok (.dot 0x2080 0x2000 0x2040) := rfl

theorem test_decode_add33 : decode ⟨0x50, 0x2080, 0x2000, 0x2040, 0, 0, 0, 0⟩ = .ok (.add33 0x2080 0x2000 0x2040) := rfl

theorem test_decode_add44 : decode ⟨0x51, 0x2080, 0x2000, 0x2040, 0, 0, 0, 0⟩ = .ok (.add44 0x2080 0x2000 0x2040) := rfl

theorem test_decode_addv4 : decode ⟨0x52, 0x2080, 0x2000, 0x2040, 0, 0, 0, 0⟩ = .ok (.addv4 0x2080 0x2000 0x2040) := rfl

theorem test_decode_trn33 : decode ⟨0x20, 0x20C0, 0x2080, 0, 0, 0, 0, 0⟩ = .ok (.trn33 0x20C0 0x2080) := rfl

theorem test_decode_trn44 : decode ⟨0x21, 0x20C0, 0x2080, 0, 0, 0, 0, 0⟩ = .ok (.trn44 0x20C0 0x2080) := rfl

theorem test_decode_inv44 : decode ⟨0x30, 0x20C0, 0x2080, 0, 0, 0, 0, 0⟩ = .ok (.inv44 0x20C0 0x2080) := rfl

theorem test_decode_smul33 :
    decode ⟨0x60, 0x2040, 0x2000, 0x40000000, 0, 0, 0, 0⟩ = .ok (.smul33 0x2040 0x2000 0x40000000) := rfl

theorem test_decode_smul44 :
    decode ⟨0x61, 0x2040, 0x2000, 0x40000000, 0, 0, 0, 0⟩ = .ok (.smul44 0x2040 0x2000 0x40000000) := rfl

theorem test_decode_smulv4 :
    decode ⟨0x62, 0x2040, 0x2000, 0x40000000, 0, 0, 0, 0⟩ = .ok (.smulv4 0x2040 0x2000 0x40000000) := rfl

theorem test_decode_dotb : decode ⟨0x41, 0x3000, 0x2000, 0x2100, 0x32, 0, 0, 0⟩ = .ok (.dotb 0x3000 0x2000 0x2100 50) := rfl

/-- R110, as bytes. -/
theorem test_decode_bytes :
    decodeBytes
    [0x11, 0x00, 0x00, 0x00, 0x80, 0x20, 0x00, 0x00, 0x00, 0x20, 0x00, 0x00, 0x40, 0x20, 0x00, 0x00,
     0,
      0, 0, 0, 0, 0, 0, 0, 0, 0, 0, 0, 0, 0, 0, 0] = .ok (.mul44 0x2080 0x2000 0x2040) := rfl

/-- R100. -/
theorem test_decode_31_bytes : decodeBytes (List.replicate 31 0) = .error .wrongLength := rfl

/-- V-CTL-5: the opcode check comes first. -/
theorem test_decode_illegal_first : decode ⟨0x113, 0, 0, 0, 0, 0, 0, 0⟩ = .error .illegalOpcode := rfl

/-- V-CTL-4. -/
theorem test_decode_reserved : decode ⟨0x111, 0, 0, 0, 0, 0, 0, 0⟩ = .error .reservedNonzero := rfl

/-- The table numbers bits from W0; W2 to W7 are 0. -/
theorem test_table_word : decodeTableWord 64 0x0000208000000021 = some (.trn44 0x2080 0) := by decide +kernel

/-! ### Assembling (30_encoding R108 to R110) -/

/-- R110's MUL44 and SMUL33 lines, and a label. -/
theorem test_assemble :
    assemble [.org 0x1000, .command "SMUL33" [.number 0x2040, .label "m", .immediate (.decimal false 20 (-1))],
        .org 0x2000, .label "m", .f32 [.decimal false 1 0]] =
      some [(0, []), (0x1000, (RawCommand.mk 0x60 0x2040 0x2000 0x40000000 0 0 0 0).toBytes),
        (0x1020, []), (0x2000, []), (0x2000, [0x00, 0x00, 0x80, 0x3F])] := by decide +kernel

/-- R109: no pseudo-instruction. -/
theorem test_no_pseudo : assembleCommand [] "COPY" [.number 0, .number 0] = none := by decide +kernel

/-- V-INV-1: 81.2 is 0x42A26666. -/
theorem test_decimal : (Scalar.decimal false 812 (-1)).word = 0x42A26666 := by decide +kernel

/-! ### One engine step (95_test_vectors) -/

/-- V-CTL-1. -/
theorem test_halt : registersOf (stepRaw ⟨0, 0, 0, 0, 0, 0, 0, 0⟩ []) = some (2, 0, 0x1020, 1) := by decide +kernel

/-- V-CTL-2, its first command. -/
theorem test_nop : registersOf (stepRaw ⟨1, 0, 0, 0, 0, 0, 0, 0⟩ []) = some (1, 0, 0x1020, 1) := by decide +kernel

/-- V-CTL-3. -/
theorem test_fault_illegal :
    registersOf (stepRaw ⟨2, 0, 0, 0, 0, 0, 0, 0⟩ []) = some (0x304, 0x1000, 0x1000, 0) := by decide +kernel

/-- V-CTL-4. -/
theorem test_fault_reserved :
    registersOf (stepRaw ⟨0x111, 0, 0, 0, 0, 0, 0, 0⟩ []) = some (0x404, 0x1000, 0x1000, 0) := by decide +kernel

/-- V-CTL-13: SRCA before DST. -/
theorem test_fault_order :
    registersOf (stepRaw ⟨0x11, 0x10000, 0x2008, 0x2040, 0, 0, 0, 0⟩ []) = some (0x504, 0x2008, 0x1000, 0) := by decide +kernel

/-- V-CTL-14. -/
theorem test_fault_no_wrap :
    registersOf (stepRaw ⟨0x30, 0x2000, 0xFFFFFFF0, 0, 0, 0, 0, 0⟩ []) = some (0x604, 0xFFFFFFF0, 0x1000, 0) := by decide +kernel

/-- V-CTL-15: an M33 is 40 bytes. -/
theorem test_fault_padding_counts :
    registersOf (stepRaw ⟨0x10, 0x2080, 0xFFE0, 0x2040, 0, 0, 0, 0⟩ []) = some (0x604, 0xFFE0, 0x1000, 0) := by decide +kernel

/-- V-CTL-19. -/
theorem test_fault_huge_n :
    registersOf (stepRaw ⟨0x41, 0x3000, 0x2000, 0, 0x10000000, 0, 0, 0⟩ []) = some (0x604, 0, 0x1000, 0) := by decide +kernel

/-- V-CTL-16. -/
theorem test_fault_fetch_misaligned :
    registersOf (step { ready [] with cmdPtr := 0x1010 }) = some (0x104, 0x1010, 0x1010, 0) := by decide +kernel

/-- V-CTL-17. -/
theorem test_fault_fetch_range :
    registersOf (step { ready [] with cmdPtr := 0x10000 }) = some (0x204, 0x10000, 0x10000, 0) := by decide +kernel

/-- 20_memory R80. -/
theorem test_unwritten_input : unwrittenAt (exec (.trn44 0x2040 0x2000) (ready [])) 0x2000 = true := by decide +kernel

/-- The first step after a command is placed runs it. -/
theorem test_placed_halt : registersOf (step (State.reset.withFetchWord 8 0)) = some (2, 0, 0x20, 1) := by decide +kernel

/-! ### Results (95_test_vectors) -/

/-- V-MUL-1; lane 9 of both inputs is unwritten. -/
theorem test_mul33 :
    wordsAt (exec (.mul33 0x2080 0x2000 0x2040) (ready [(0x2000, up9), (0x2040, down9)])) 0x2080 9 = some [0x41F00000,
      0x41C00000, 0x41900000, 0x42A80000, 0x428A0000, 0x42580000, 0x430A0000, 0x42E40000, 0x42B40000] := by decide +kernel

/-- V-MUL-4: the FMA corner. -/
theorem test_mul33_fma :
    wordsAt (exec (.mul33 0x2080 0x2000 0x2040) (ready [(0x2000, [0x3F800000, 0x3F800800, 0, 0, 0x3F800000, 0, 0, 0,
      0x3F800000]), (0x2040, [0xBF801000, 0, 0, 0x3F800800, 0x3F800000, 0, 0, 0, 0x3F800000])])) 0x2080 9 = some
      [0x33800000, 0x3F800800, 0, 0x3F800800, 0x3F800000, 0, 0, 0, 0x3F800000] := by decide +kernel

/-- V-MUL-2. -/
theorem test_mul44_in_place :
    wordsAt (exec (.mul44 0x2000 0x2000 0x2040) (ready [(0x2000, matA), (0x2040, matB)])) 0x2000 16 = some matC := by decide +kernel

/-- V-MUL-3. -/
theorem test_mul44v_in_place :
    wordsAt (exec (.mul44v 0x2040 0x2000 0x2040) (ready [(0x2000, matB), (0x2040, [0x40000000, 0x40400000, 0x40800000,
      0x40A00000])])) 0x2040 4 = some [0x43D78000, 0x42EC0000, 0x43F60000, 0x43F30000] := by decide +kernel

/-- V-MUL-4b. -/
theorem test_mul44v_fma :
    wordsAt (exec (.mul44v 0x2080 0x2000 0x2040) (ready [(0x2000, [0x3F800000, 0x3F800800, 0, 0, 0, 0x3F800000, 0, 0, 0, 0,
      0x3F800000, 0, 0, 0, 0, 0x3F800000]), (0x2040, [0xBF801000, 0x3F800800, 0, 0])])) 0x2080 4 = some [0x33800000,
      0x3F800800, 0, 0] := by decide +kernel

/-- V-TRN-1. -/
theorem test_trn33 :
    wordsAt (exec (.trn33 0x2040 0x2000) (ready [(0x2000, up9)])) 0x2040 9 = some [0x3F800000, 0x40800000, 0x40E00000,
      0x40000000, 0x40A00000, 0x41000000, 0x40400000, 0x40C00000, 0x41100000] := by decide +kernel

/-- V-TRN-5. -/
theorem test_trn33_in_place :
    wordsAt (exec (.trn33 0x2080 0x2080) (ready [(0x2080, [0x41F00000, 0x41C00000, 0x41900000, 0x42A80000, 0x428A0000,
      0x42580000, 0x430A0000, 0x42E40000, 0x42B40000])])) 0x2080 9 = some [0x41F00000, 0x42A80000, 0x430A0000,
      0x41C00000, 0x428A0000, 0x42E40000, 0x41900000, 0x42580000, 0x42B40000] := by decide +kernel

/-- V-TRN-2. -/
theorem test_trn44_in_place :
    wordsAt (exec (.trn44 0x2000 0x2000) (ready [(0x2000, [0x00000000, 0x3F800000, 0x40000000, 0x40400000, 0x40800000,
      0x40A00000, 0x40C00000, 0x40E00000, 0x41000000, 0x41100000, 0x41200000, 0x41300000, 0x41400000, 0x41500000,
      0x41600000, 0x41700000])])) 0x2000 16 = some [0x00000000, 0x40800000, 0x41000000, 0x41400000, 0x3F800000,
      0x40A00000, 0x41100000, 0x41500000, 0x40000000, 0x40C00000, 0x41200000, 0x41600000, 0x40400000, 0x40E00000,
      0x41300000, 0x41700000] := by decide +kernel

/-- V-TRN-3: every bit pattern is copied. -/
theorem test_trn44_bits :
    wordsAt (exec (.trn44 0x2000 0x2000) (ready [(0x2000, [0, 0x7F800001, 0, 0, 0x80000000, 0, 0xFFFFFFFF, 0, 0, 0, 0, 0, 0,
      0, 0, 0])])) 0x2000 16 = some [0, 0x80000000, 0, 0, 0x7F800001, 0, 0, 0, 0, 0xFFFFFFFF, 0, 0, 0, 0, 0, 0] := by decide +kernel

/-- V-INV-1, V-INV-11. -/
theorem test_inv44_in_place :
    wordsAt (exec (.inv44 0x2000 0x2000) (ready [(0x2000, [0x42B40000, 0x42920000, 0x40400000, 0x40800000, 0x3F800000,
      0x41800000, 0x40E00000, 0x41000000, 0x3F800000, 0x40400000, 0x41980000, 0x42A26666, 0x40000000, 0x3F800000,
      0x42CB999A, 0x41700000])])) 0x2000 16 = some [0x3C3E2599, 0xBD5CD1D0, 0x3B8BC2C0, 0x3B285C57, 0xBA1C8616,
      0x3D88486B, 0xBBC0ED3A, 0xBB62B4F3, 0xB95DE924, 0x3A35E23C, 0xBAFD2A24, 0x3C262B7E, 0xB895A03A, 0xBB004049,
      0x3C53E1AA, 0xBB1539DB] := by decide +kernel

/-- V-INV-4. -/
theorem test_inv44_signs :
    wordsAt (exec (.inv44 0x2000 0x2000) (ready [(0x2000, [0x00000000, 0x3F800000, 0x00000000, 0x00000000, 0x3F800000,
      0x00000000, 0x00000000, 0x00000000, 0x00000000, 0x00000000, 0x00000000, 0x3F800000, 0x00000000, 0x00000000,
      0x3F800000, 0x00000000])])) 0x2000 16 = some [0x80000000, 0x3F800000, 0, 0x80000000, 0x3F800000, 0x80000000,
      0x80000000, 0, 0, 0x80000000, 0x80000000, 0x3F800000, 0x80000000, 0, 0x3F800000, 0x80000000] := by decide +kernel

/-- V-DOT-3. -/
theorem test_dot_order :
    wordsAt (exec (.dot 0x3000 0x2000 0x2010) (ready [(0x2000, [0x3F800000, 0x4B800000, 0x3F800000, 0xCB800000]), (0x2010,
      [0x3F800000, 0x3F800000, 0x3F800000, 0x3F800000])])) 0x3000 1 = some [0] := by decide +kernel

/-- V-DOT-8. -/
theorem test_dot_subnormal :
    wordsAt (exec (.dot 0x3000 0x2000 0x2000) (ready [(0x2000, [0x1F800000, 0x1F800000, 0x1F800000, 0x1F800000])])) 0x3000 1
      = some [0x00800000] := by decide +kernel

/-- V-DOT-9. -/
theorem test_dotb_overlap :
    wordsAt (exec (.dotb 0x2110 0x2000 0x2100 2) (ready [(0x2000, [0x3F800000, 0x3F800000, 0x3F800000, 0x3F800000]),
      (0x2100, [0x3F800000, 0x40000000, 0x40400000, 0x40800000, 0x40A00000, 0x40C00000, 0x40E00000, 0x41000000])]))
      0x2110 4 = some [0x41200000, 0x41F80000, 0x40E00000, 0x41000000] := by decide +kernel

/-- V-DOT-11. -/
theorem test_dotb_resident :
    wordsAt (exec (.dotb 0x2000 0x2000 0x2100 2) (ready [(0x2000, [0x3F800000, 0x40000000, 0x40400000, 0x40800000]),
      (0x2100, [0x3F800000, 0x3F800000, 0x3F800000, 0x3F800000, 0x3F800000, 0x3F800000, 0x3F800000, 0x3F800000])]))
      0x2000 2 = some [0x41200000, 0x41200000] := by decide +kernel

/-- V-ADD-1. -/
theorem test_add33 :
    wordsAt (exec (.add33 0x2080 0x2000 0x2040) (ready [(0x2000, up9), (0x2040, down9)])) 0x2080 9 = some [0x41200000,
      0x41200000, 0x41200000, 0x41200000, 0x41200000, 0x41200000, 0x41200000, 0x41200000, 0x41200000] := by decide +kernel

/-- V-ADD-2. -/
theorem test_add44 :
    wordsAt (exec (.add44 0x2000 0x2000 0x2040) (ready [(0x2000, [0x00000000, 0x3F800000, 0x40000000, 0x40400000,
      0x40800000, 0x40A00000, 0x40C00000, 0x40E00000, 0x41000000, 0x41100000, 0x41200000, 0x41300000, 0x41400000,
      0x41500000, 0x41600000, 0x41700000]), (0x2040, [0x41700000, 0x41600000, 0x41500000, 0x41400000, 0x41300000,
      0x41200000, 0x41100000, 0x41000000, 0x40E00000, 0x40C00000, 0x40A00000, 0x40800000, 0x40400000, 0x40000000,
      0x3F800000, 0x00000000])])) 0x2000 16 = some [0x41700000, 0x41700000, 0x41700000, 0x41700000, 0x41700000,
      0x41700000, 0x41700000, 0x41700000, 0x41700000, 0x41700000, 0x41700000, 0x41700000, 0x41700000, 0x41700000,
      0x41700000, 0x41700000] := by decide +kernel

/-- V-ADD-3, V-ADD-6. -/
theorem test_addv4_zero_signs :
    wordsAt (exec (.addv4 0x2020 0x2000 0x2010) (ready [(0x2000, [0x3F800000, 0x80000000, 0x7F61B1E6, 1]), (0x2010,
      [0xBF800000, 0x80000000, 0x7F61B1E6, 1])])) 0x2020 4 = some [0, 0x80000000, 0x7F800000, 2] := by decide +kernel

/-- V-ADD-4. -/
theorem test_addv4_halfway :
    wordsAt (exec (.addv4 0x2020 0x2000 0x2010) (ready [(0x2000, [0x7F7FFFFF, 0x7F7FFFFF, 0, 0]), (0x2010, [0x73000000,
      0x72FFFFFF, 0, 0])])) 0x2020 2 = some [0x7F800000, 0x7F7FFFFF] := by decide +kernel

/-- V-SMUL-1. -/
theorem test_smul33 :
    wordsAt (exec (.smul33 0x2080 0x2000 0x40000000) (ready [(0x2000, up9)])) 0x2080 9 = some [0x40000000, 0x40800000,
      0x40C00000, 0x41000000, 0x41200000, 0x41400000, 0x41600000, 0x41800000, 0x41900000] := by decide +kernel

/-- V-SMUL-6. -/
theorem test_smul44 :
    wordsAt (exec (.smul44 0x2000 0x2000 0xC0400000) (ready [(0x2000, [0x3F800000, 0x00000000, 0x00000000, 0x00000000,
      0x00000000, 0x3F800000, 0x00000000, 0x00000000, 0x00000000, 0x00000000, 0x3F800000, 0x00000000, 0x00000000,
      0x00000000, 0x00000000, 0x3F800000])])) 0x2000 16 = some [0xC0400000, 0x80000000, 0x80000000, 0x80000000,
      0x80000000, 0xC0400000, 0x80000000, 0x80000000, 0x80000000, 0x80000000, 0xC0400000, 0x80000000, 0x80000000,
      0x80000000, 0x80000000, 0xC0400000] := by decide +kernel

/-- V-SMUL-4. -/
theorem test_smulv4_rounding :
    wordsAt (exec (.smulv4 0x2010 0x2000 0x3F000000) (ready [(0x2000, [1, 3, 0x00800000, 0x7F7FFFFF])])) 0x2010 4 = some [0,
      2, 0x00400000, 0x7EFFFFFF] := by decide +kernel

/-- V-SMUL-7. -/
theorem test_smulv4_zero_signs :
    wordsAt (exec (.smulv4 0x2010 0x2000 0x80000000) (ready [(0x2000, [0x3F800000, 0xBF800000, 0, 0x80000000])])) 0x2010 4 =
      some [0x80000000, 0, 0x80000000, 0] := by decide +kernel

/-- V-ADD-3, lane 2: ∞ - ∞ is the NaN of its draw. -/
theorem test_nan_draw (d : Word) : fadd d 0x7F800000 0xFF800000 = quietNaN d := rfl

/-- 43_inverse R186: 1 / (-0) is -∞. -/
theorem test_divide_by_zero (d : Word) : fdiv d 0x3F800000 0x80000000 = 0xFF800000 := rfl

/-! ### The host -/

/-- 70_reset R273: CMD_PTR and START written, the HALT at 0x1000 run, STATUS read. -/
def hostRun (s : State) : Nat → Host.Outcome State Fault Refusal
  | 0 => .next s
  | n + 1 =>
    match step s with
    | .next t => hostRun t n
    | .fault f => .fault f
    | .refused r => .refused r

/-- V-CTL-1, V-CTL-21: STATUS reads DONE after the HALT. Words 1, 2 and 3 of the block are CTRL, STATUS and CMD_PTR (10_state R43). -/
theorem test_host_run :
    (match hostRun { State.reset with
        mem := memOf [(0x1000, [0, 0, 0, 0, 0, 0, 0, 0])],
        schedule := [.writeReg 3 0x1000, .writeReg 1 3, .engine, .readReg 2] } 4 with
      | .next t => t.hostRead == some (.word 2) && t.irq
      | .fault _ | .refused _ => false) = true := by decide +kernel

/-- 70_reset R270, R284: a SOFT_RESET ends a run whose command at CMD_PTR nothing has written. -/
theorem test_reset_over_unwritten_command :
    registersOf (step { ready [] with schedule := [.writeReg 1 4] }) = some (0, 0, 0, 0) := by decide +kernel

/-- 70_reset R270, R284: the reset input ends a run whose next command the host has written during the run. -/
theorem test_reset_over_host_written_command :
    registersOf (step { ready [(0x1000, [0, 0, 0, 0, 0, 0, 0, 0])] with
      hostWrote := [0x1004], schedule := [.assertReset] }) = some (0, 0, 0, 0) := by decide +kernel

/-- 70_reset R270: a START while the reset input is asserted does nothing. -/
theorem test_start_in_reset :
    registersOf (hostRun { State.reset with schedule := [.assertReset, .writeReg 1 1] } 2) = some (0, 0, 0, 0) := by
  decide +kernel

/-- 60_exceptions R255: power removed during a run; the next hardware reset brings the reset values. -/
theorem test_power_loss_then_reset :
    registersOf (hostRun { ready [(0x1000, [0, 0, 0, 0, 0, 0, 0, 0])] with
      schedule := [.losePower, .assertReset, .releaseReset] } 3) = some (0, 0, 0, 0) := by decide +kernel

/-- 20_memory R89, 70_reset R284: a TRN44 whose source meets a bus error writes nothing, so the host may write its output. -/
theorem test_untouched_output_is_the_hosts :
    registersOf (step { ready [(0x1000, [0x21, 0x2040, 0x2000, 0, 0, 0, 0, 0])] with
      platform := { Platform.standard with busErrors := [⟨0x2000, 4, .read⟩] }, hostWrote := [0x2040] }) =
      some (0x704, 0x2000, 0x1000, 0) := by decide +kernel

/-- 20_memory R89, 60_exceptions R233: a DOTB read error comes before the write error of an earlier element. -/
theorem test_dotb_read_error_first :
    registersOf (exec (.dotb 0x3000 0x2000 0x2010 2) { ready [(0x2000, List.replicate 12 0x3F800000)] with
      platform := { Platform.standard with busErrors := [⟨0x3000, 4, .write⟩, ⟨0x2024, 4, .read⟩] } }) =
      some (0x704, 0x2020, 0x1000, 0) := by decide +kernel

/-- 20_memory R83: after the end of a run a host read still races with what it wrote, until the host has read STATUS. -/
theorem test_unseen_until_status_read :
    (match hostRun { ready [(0x1000, [0x21, 0x2040, 0x2040, 0, 0, 0, 0, 0, 0, 0, 0, 0, 0, 0, 0, 0]), (0x2040, List.replicate 16 7)] with
        schedule := [.engine, .engine] } 2 with
      | .next t => t.racing == [⟨0x2040, 64⟩] &&
        (match hostRun { t with schedule := [.readReg 2] } 1 with
          | .next u => u.racing == []
          | .fault _ | .refused _ => false)
      | .fault _ | .refused _ => false) = true := by decide +kernel

/-! ### Witnesses: states and operands that meet each statement's hypotheses -/

/-- A test of the state an outcome carries. -/
def nextHas (o : Host.Outcome State Fault Refusal) (f : State → Bool) : Bool :=
  match o with
  | .next t => f t
  | .fault _ | .refused _ => false

theorem next_of {o : Host.Outcome State Fault Refusal} {f : State → Bool} (h : nextHas o f = true) :
    ∃ t, o = .next t ∧ f t = true := by
  cases o with
  | next t => exact ⟨t, rfl, h⟩
  | fault _ => cases h
  | refused _ => cases h

/-- 32 words at 0x2000: A then B of S1. -/
def benchWords : Lanes := matA ++ matB

def bench : State := ready [(0x2000, benchWords)]

theorem ready_mem (a : Nat) (ws : Lanes) : (ready [(a, ws)]).mem = Memory.storeLanes [] a ws := rfl

theorem benchWords_length : benchWords.length = 32 := rfl

theorem bench_holds (a o n : Nat) (ha : a = 0x2000 + 4 * o) (h : o + n ≤ 32) :
    Holds bench.mem a n (fun k => lane benchWords (o + k)) := by
  intro k hk
  subst ha
  rw [bench, ready_mem, Nat.add_assoc, ← Nat.mul_add,
    Memory.storeLanes_readWord_inside _ _ _ _ (by rw [benchWords_length]; omega)]

theorem bench_clean (a : Word) (n : Nat) (acc : Access) : NoBusError bench a n acc := fun _ _ => rfl

/-- An operand at 0x2000. -/
theorem bench_source (align lanes values : Nat) (h1 : 0x2000 % align = 0) (h2 : lanes ≤ 16) (h3 : values ≤ 16) :
    Source bench 0x2000 align lanes values (fun k => lane benchWords (0 + k)) :=
  ⟨⟨h1, show 0x2000 + 4 * lanes ≤ 0x10000 by omega⟩, bench_clean _ _ _, bench_holds _ 0 _ rfl (by omega)⟩

/-- An operand at 0x2040. -/
theorem bench_sourceB (align lanes values : Nat) (h1 : 0x2040 % align = 0) (h2 : lanes ≤ 16) (h3 : values ≤ 16) :
    Source bench 0x2040 align lanes values (fun k => lane benchWords (16 + k)) :=
  ⟨⟨h1, show 0x2040 + 4 * lanes ≤ 0x10000 by omega⟩, bench_clean _ _ _, bench_holds _ 16 _ rfl (by omega)⟩

/-- An output at 0x2020, inside both inputs. -/
theorem bench_target (align lanes : Nat) (h1 : 0x2020 % align = 0) (h2 : lanes ≤ 16) : Target bench 0x2020 align lanes :=
  ⟨⟨h1, show 0x2020 + 4 * lanes ≤ 0x10000 by omega⟩, bench_clean _ _ _⟩

/-- A state whose next fetch reads a raw command. -/
theorem fetchReads_ready (c : RawCommand) : FetchReads (ready [(0x1000, c.words)]) c := by
  have h : ∀ k < 8, (ready [(0x1000, c.words)]).mem.readWord (0x1000 + 4 * k) = some (lane c.words k) := fun k hk => by
    rw [ready_mem]; exact Memory.storeLanes_readWord_inside c.words [] 0x1000 k hk
  constructor
  · rfl
  · rfl
  · exact show 0x1000 % 32 = 0 by decide
  · exact show 0x1000 + 32 ≤ 0x10000 by decide
  · rfl
  · rfl
  · exact ⟨h 0 (by decide), h 1 (by decide), h 2 (by decide), h 3 (by decide), h 4 (by decide), h 5 (by decide),
      h 6 (by decide), h 7 (by decide)⟩

/-- The platform of State.reset with bus errors. -/
def erring (es : List BusError) (data : List (Nat × List Word)) : State :=
  { ready data with platform := { Platform.standard with busErrors := es } }

theorem witness_EncodeInvertsDecode :
    decode ⟨0x11, 0x2080, 0x2000, 0x2040, 0, 0, 0, 0⟩ = .ok (.mul44 0x2080 0x2000 0x2040) := rfl

/-- The engine has the turn with nothing scheduled, and with its turn next in the schedule. -/
theorem engineTurnIn_self {s : State} (h : s.schedule = []) : EngineTurnIn s s := .inl ⟨h, rfl⟩

theorem engineTurnIn_scheduled (s : State) (rest : List Move) :
    EngineTurnIn { s with schedule := .engine :: rest } { s with schedule := rest } := .inr ⟨rest, rfl, rfl⟩

theorem fetchReads_schedule {s : State} {c : RawCommand} (h : FetchReads s c) (rest : List Move) :
    FetchReads { s with schedule := rest } c := ⟨h.busy, h.operating, h.aligned, h.inRange, h.clean, h.duty, h.words⟩

theorem witness_DecoderRejectsInOrder :
    (∃ s u c, EngineTurnIn s u ∧ FetchReads u c ∧ fieldUse (c.w0.toNat % 256) = none) ∧
    (∃ s u c, EngineTurnIn s u ∧ FetchReads u c ∧ fieldUse (c.w0.toNat % 256) ≠ none ∧ c.wellFormed = false) ∧
    (∃ s u c, EngineTurnIn s u ∧ FetchReads u c ∧ c.wellFormed = true) :=
  ⟨⟨_, _, ⟨0x113, 0, 0, 0, 0, 0, 0, 0⟩, engineTurnIn_self rfl, fetchReads_ready _, by decide⟩,
    ⟨_, _, ⟨0, 4, 0, 0, 0, 0, 0, 0⟩, engineTurnIn_self rfl, fetchReads_ready _, by decide, by decide⟩,
    ⟨_, _, ⟨0x20, 64, 0, 0, 0, 0, 0, 0⟩, engineTurnIn_scheduled (ready [(0x1000, _)]) [], fetchReads_schedule (fetchReads_ready _) [],
      by decide⟩⟩

theorem witness_WellFormedIffSomePlatformAccepts :
    ∃ (i : Instr) (s : State), s.platform.wf ∧ i.wellFormed = false :=
  ⟨.inv44 0x2000 0xFFFFFFD0, State.reset, by decide, by decide⟩

theorem witness_StepRunsDecodedCommand :
    (∃ s c i, EngineTurnIn s s ∧ FetchReads s c ∧ decode c = .ok i ∧ s.breaksDuty i = false) ∧
    ∃ s u c i, s.schedule ≠ [] ∧ EngineTurnIn s u ∧ FetchReads u c ∧ decode c = .ok i ∧ u.breaksDuty i = false :=
  ⟨⟨_, ⟨0x21, 0x2040, 0x2000, 0, 0, 0, 0, 0⟩, _, engineTurnIn_self rfl, fetchReads_ready _, rfl, by decide⟩,
    ⟨_, _, ⟨0x21, 0x2040, 0x2000, 0, 0, 0, 0, 0⟩, _, by simp, engineTurnIn_scheduled (ready [(0x1000, _)]) [],
      fetchReads_schedule (fetchReads_ready _) [], rfl, by decide⟩⟩

theorem witness_FetchFaultsInOrder :
    (∃ s : State, EngineTurnIn s s ∧ s.busy = true ∧ s.phase = .operating ∧ s.cmdPtr.toNat % 32 ≠ 0) ∧
    (∃ s : State, EngineTurnIn s s ∧ s.busy = true ∧ s.phase = .operating ∧ s.cmdPtr.toNat % 32 = 0 ∧
      s.platform.memSize < s.cmdPtr.toNat + 32) ∧
    (∃ s : State, EngineTurnIn s s ∧ s.busy = true ∧ s.phase = .operating ∧ s.cmdPtr.toNat % 32 = 0 ∧
      s.cmdPtr.toNat + 32 ≤ s.platform.memSize ∧ busErrorAt s.platform s.cmdPtr.toNat 32 .read = true) :=
  ⟨⟨{ ready [] with cmdPtr := 0x101F }, engineTurnIn_self rfl, by decide⟩,
    ⟨{ ready [] with cmdPtr := 0xFFFFFFE0 }, engineTurnIn_self rfl, by decide⟩,
    ⟨erring [⟨0x1000, 32, .read⟩] [], engineTurnIn_self rfl, by decide⟩⟩

/-- Idle; and held in reset. -/
theorem witness_IdleEngineChangesNothing :
    (∃ s, EngineTurnIn s s ∧ s.busy = false) ∧ ∃ s : State, EngineTurnIn s s ∧ s.phase ≠ .operating :=
  ⟨⟨State.reset, engineTurnIn_self rfl, rfl⟩, { State.reset with phase := .inReset }, engineTurnIn_self rfl, by decide⟩

theorem witness_PlacedCommandIsFetched :
    ∃ (s : State) (nbits w : Nat) (i : Instr), s.platform.wf ∧
      busErrorAt s.platform s.fetchable.toNat 32 .read = false ∧ decodeTableWord nbits w = some i :=
  ⟨State.reset, 160, 0x41 + 2 ^ 129, .dotb 0 0 0 2, by decide, by decide, by decide⟩

/-- The invariant of a running engine about to run a HALT. -/
theorem witness_StepKeepsInvariant :
    (ready [(0x1000, [0, 0, 0, 0, 0, 0, 0, 0])]).Inv ∧ ∃ t, step (ready [(0x1000, [0, 0, 0, 0, 0, 0, 0, 0])]) = .next t :=
  ⟨⟨by decide, by decide, fun _ => ⟨by decide, by decide, by decide, by decide, by decide, by decide⟩,
      fun h => (by cases h), by decide⟩, (next_of (f := fun _ => true) (by decide)).imp fun _ h => h.1⟩

theorem witness_ResetMeetsInvariant : Platform.standard.wf ∧ Platform.wf ⟨2 ^ 32, 0x100, [⟨0, 4, .write⟩]⟩ := by decide

/-- A START while idle; and, with DONE = 1, a START and a STATUS write that clears ERR alone. -/
theorem witness_EndOfRunIsNotMissed :
    (∃ (s : State) (w : Fin 64) (v : Word) (rest : List Move), s.phase = .operating ∧
      s.platform.regAddr w = s.platform.mmioBase + 0x04 ∧ s.schedule = .writeReg w v :: rest ∧ v.getLsbD 0 = true ∧
      v.getLsbD 2 = false) ∧
    ∀ i v, (i = 1 ∧ v = 1) ∨ (i = 2 ∧ v = 4) → ∃ s : State, s.schedule = [.writeReg i v] ∧
      (∃ t, step s = .next t) ∧ s.statusWord.extractLsb' 0 3 ≠ 0 ∧
      (∀ rest, s.schedule ≠ .assertReset :: rest ∧ s.schedule ≠ .losePower :: rest) ∧
      (∀ w v rest, s.platform.regAddr w = s.platform.mmioBase + 0x04 → s.schedule = .writeReg w v :: rest →
        v.getLsbD 2 = false) ∧
      (∀ w v rest, s.platform.regAddr w = s.platform.mmioBase + 0x08 → s.schedule = .writeReg w v :: rest →
        ¬ (v.getLsbD 1 = true ∧ s.done = true) ∧ ¬ (v.getLsbD 2 = true ∧ s.err = true)) := by
  refine ⟨⟨{ State.reset with schedule := [.writeReg 1 3] }, 1, 3, [], rfl, rfl, rfl, by decide, by decide⟩, ?_⟩
  rintro i v (⟨rfl, rfl⟩ | ⟨rfl, rfl⟩)
  · refine ⟨{ State.reset with done := true, schedule := [.writeReg 1 1] }, rfl,
      (next_of (f := fun _ => true) (by decide)).imp fun _ h => h.1, by decide, by simp, ?_, ?_⟩
    all_goals intro w v rest hw h; cases h
    · decide
    · exact absurd hw (by decide)
  · refine ⟨{ State.reset with done := true, schedule := [.writeReg 2 4] }, rfl,
      (next_of (f := fun _ => true) (by decide)).imp fun _ h => h.1, by decide, by simp, ?_, ?_⟩
    all_goals intro w v rest hw h; cases h
    · exact absurd hw (by decide)
    · decide

theorem witness_RegistersChangeOnlyByCompletionOrFault :
    (∃ s t, exec .halt s = .next t) ∧ (∃ s t, exec (.trn44 0x2020 0x2000) s = .next t ∧ t.cmdCount = s.cmdCount + 1) ∧
    (∃ s t, exec (.dotb 0x3001 0 0 0) s = .next t ∧ t.err = true) :=
  ⟨⟨bench, _, rfl⟩, ⟨bench, (next_of (f := fun t => t.cmdCount == bench.cmdCount + 1) (by decide +kernel)).imp
      fun _ h => ⟨h.1, eq_of_beq h.2⟩⟩, ⟨bench, next_of (f := fun t => t.err) (by decide)⟩⟩

theorem witness_CommandsWriteOnlyTheirOutput :
    (∃ t, exec (.trn44 0x2020 0x2000) bench = .next t) ∧
    ∀ r, outputOf (.trn44 0x2020 0x2000) = some r → 0x201F < r.base ∨ r.base + r.len ≤ 0x201F :=
  ⟨(next_of (f := fun _ => true) (by decide +kernel)).imp fun _ h => h.1, by
    intro r h; simp only [outputOf, operandsOf] at h; cases h; decide⟩

theorem witness_FaultsArePrecise :
    ∃ t, exec (.add33 0x20C0 0x2000 0x2050) bench = .next t ∧ bench.err = false ∧ t.err = true ∧ t.errCode ≠ 0x07 :=
  (next_of (o := exec (.add33 0x20C0 0x2000 0x2050) bench) (f := fun t => t.err && t.errCode != 0x07) (by decide)).imp fun t h => by
    have := h.2; simp only [Bool.and_eq_true, bne_iff_ne] at this; exact ⟨h.1, rfl, this⟩

theorem witness_CommandsIgnoreTheRegisters :
    ∃ s s' : State, s ≠ s' ∧ s.mem = s'.mem ∧ s.platform = s'.platform ∧ s.draws = s'.draws ∧
      (∃ t, exec .nop s = .next t) ∧ ∃ f, exec (.trn44 0 0) s = .fault f :=
  ⟨State.reset, { State.reset with irqEn := true, cmdCount := 7 }, by decide, rfl, rfl, rfl, ⟨_, rfl⟩, _, rfl⟩

theorem witness_OperandFaultsInOrder :
    (∃ (i : Instr) (s : State) (pre post : List Operand) (o : Operand), operandsOf i = pre ++ o :: post ∧ pre ≠ [] ∧
      (∀ p ∈ pre, Fits s p.base p.kind.align p.kind.footprint) ∧ o.base.toNat % o.kind.align ≠ 0) ∧
    (∃ (i : Instr) (s : State) (pre post : List Operand) (o : Operand), operandsOf i = pre ++ o :: post ∧ pre ≠ [] ∧
      (∀ p ∈ pre, Fits s p.base p.kind.align p.kind.footprint) ∧ o.base.toNat % o.kind.align = 0 ∧
      s.platform.memSize < o.base.toNat + o.kind.footprint) :=
  ⟨⟨.mul33 0 0xFFC0 0x2010, bench, [⟨0xFFC0, .m33⟩], _, ⟨0x2010, .m33⟩, rfl, by simp, by
      simp only [List.mem_singleton, forall_eq]; exact ⟨by decide, by decide⟩, by decide⟩,
    ⟨.mul33 0 0xFFC0 0xFFE0, bench, [⟨0xFFC0, .m33⟩], _, ⟨0xFFE0, .m33⟩, rfl, by simp, by
      simp only [List.mem_singleton, forall_eq]; exact ⟨by decide, by decide⟩, by decide, by decide⟩⟩

/-- A machine one lane of whose second source, and one lane of whose output, meet a bus error. -/
def holed : State := erring [⟨0x2044, 4, .read⟩, ⟨0x3008, 4, .write⟩] [(0x2000, benchWords)]

theorem erring_mem (es : List BusError) (data : List (Nat × List Word)) : (erring es data).mem = (ready data).mem := rfl

theorem holed_holds (a o n : Nat) (ha : a = 0x2000 + 4 * o) (h : o + n ≤ 32) :
    Holds holed.mem a n (fun k => lane benchWords (o + k)) := by
  rw [holed, erring_mem]; exact bench_holds a o n ha h

theorem holed_error (a : Word) (n : Nat) (acc : Access) (k : Nat) (hk : k < n)
    (h : busErrorAt holed.platform (a.toNat + 4 * k) 4 acc = true) : ¬ NoBusError holed a n acc := fun hn => by
  rw [hn k hk] at h; cases h

theorem holed_clean {x : Nat} (acc : Access) (h : x ≠ (if acc = .read then 0x2044 else 0x3008)) :
    busErrorAt holed.platform x 4 acc = false := by
  have e : busErrorAt holed.platform x 4 acc =
      [(⟨0x2044, 4, .read⟩ : BusError), ⟨0x3008, 4, .write⟩].any fun e => e.addr == x && (e.size == 4 && e.access == acc) := rfl
  rw [e]
  cases acc <;> simp at h ⊢ <;> omega

theorem witness_SourceBusErrorFaultsBeforeAnyWrite :
    ∃ (i : Instr) (s : State), (∀ d a v n, i ≠ .dotb d a v n) ∧
      (∀ o ∈ operandsOf i, Fits s o.base o.kind.align o.kind.footprint) ∧
      ∃ o ∈ (operandsOf i).dropLast, ¬ NoBusError s o.base o.kind.footprintLanes .read :=
  ⟨.addv4 0x3000 0x2000 0x2040, holed, by simp, by
      simp only [operandsOf, List.forall_mem_cons]
      exact ⟨⟨by decide, by decide⟩, ⟨by decide, by decide⟩, ⟨by decide, by decide⟩, by simp⟩,
    ⟨0x2040, .v4⟩, by simp [operandsOf], holed_error 0x2040 4 .read 1 (by decide) (by decide)⟩

theorem witness_OutputBusErrorTearsOnlyTheOutput :
    ∃ (i : Instr) (s : State) (srcs : List Operand) (dst : Operand), (∀ d a v n, i ≠ .dotb d a v n) ∧
      operandsOf i = srcs ++ [dst] ∧ (∀ o ∈ operandsOf i, Fits s o.base o.kind.align o.kind.footprint) ∧
      (∀ o ∈ srcs, NoBusError s o.base o.kind.footprintLanes .read) ∧
      (∀ o ∈ srcs, ∀ k < o.kind.valueLanes, (s.mem.readWord (o.base.toNat + 4 * k)).isSome) ∧
      ¬ NoBusError s dst.base dst.kind.footprintLanes .write :=
  ⟨.smulv4 0x3000 0x2000 0x40000000, holed, [⟨0x2000, .v4⟩], ⟨0x3000, .v4⟩, by simp, rfl, by
      simp only [operandsOf, List.forall_mem_cons]
      exact ⟨⟨by decide, by decide⟩, ⟨by decide, by decide⟩, by simp⟩, by
      simp only [List.mem_singleton, forall_eq]
      intro k hk; simp only [OperandKind.footprintLanes] at hk
      have : k = 0 ∨ k = 1 ∨ k = 2 ∨ k = 3 := by omega
      rcases this with rfl | rfl | rfl | rfl <;> decide, by
      simp only [List.mem_singleton, forall_eq]
      intro k hk
      have := holed_holds 0x2000 0 4 rfl (by decide) k hk
      exact Option.isSome_iff_exists.2 ⟨_, this⟩,
    holed_error 0x3000 4 .write 2 (by decide) (by decide)⟩

/-- DOTB's bus errors: in A; in the read of element 1, with one in the write of element 0 too; in the write of element 1. -/
theorem witness_DotbBusErrorsNameTheElement :
    (∃ (s : State) (d a v n : Word), s.platform.wf ∧ n ≠ 0 ∧ Fits s a 16 16 ∧ Fits s v 16 (16 * n.toNat) ∧
      Fits s d 4 (4 * n.toNat) ∧ ¬ NoBusError s a 4 .read) ∧
    (∃ (s : State) (d a v n : Word) (i : Nat), s.platform.wf ∧ n ≠ 0 ∧ Fits s a 16 16 ∧
      Fits s v 16 (16 * n.toNat) ∧ Fits s d 4 (4 * n.toNat) ∧ NoBusError s a 4 .read ∧ i < n.toNat ∧ 0 < i ∧
      (∀ j < i, NoBusError s (v + BitVec.ofNat 32 (16 * j)) 4 .read) ∧
      ¬ NoBusError s (v + BitVec.ofNat 32 (16 * i)) 4 .read ∧ ¬ NoBusError s d 1 .write) ∧
    (∃ (s : State) (d a v n : Word) (u : Nat → Word) (i : Nat), s.platform.wf ∧ n ≠ 0 ∧ Fits s a 16 16 ∧
      Fits s v 16 (16 * n.toNat) ∧ Fits s d 4 (4 * n.toNat) ∧ NoBusError s a 4 .read ∧ Holds s.mem a.toNat 4 u ∧
      (∀ j < n.toNat, NoBusError s (v + BitVec.ofNat 32 (16 * j)) 4 .read) ∧ i < n.toNat ∧ 0 < i ∧
      (∀ j < i, NoBusError s (d + BitVec.ofNat 32 (4 * j)) 1 .write) ∧
      ¬ NoBusError s (d + BitVec.ofNat 32 (4 * i)) 1 .write ∧
      (∀ k < 4 * (i + 1), (s.mem.readWord (v.toNat + 4 * k)).isSome)) := by
  have word : ∀ v : Word, (∃ o, v.toNat = 0x2000 + 4 * o ∧ o ≤ 24) →
      ∀ k < 8, (holed.mem.readWord (v.toNat + 4 * k)).isSome := fun v ⟨o, ho, h⟩ k hk =>
    Option.isSome_iff_exists.2 ⟨_, holed_holds v.toNat o 8 ho (by omega) k hk⟩
  have clean : ∀ (a : Word) (n : Nat) (acc : Access), (∀ k < n, a.toNat + 4 * k ≠ (if acc = .read then 0x2044 else 0x3008)) →
      NoBusError holed a n acc := fun a n acc h k hk => holed_clean acc (h k hk)
  refine ⟨⟨holed, 0x3000, 0x2040, 0x2000, 2, by decide, by decide, ⟨by decide, by decide⟩, ⟨by decide, by decide⟩,
      ⟨by decide, by decide⟩, holed_error 0x2040 4 .read 1 (by decide) (by decide)⟩,
    ⟨holed, 0x3008, 0x2000, 0x2030, 2, 1, by decide, by decide, ⟨by decide, by decide⟩, ⟨by decide, by decide⟩,
      ⟨by decide, by decide⟩, clean _ _ _ ?_, by decide, by decide, fun j hj => ?_,
      holed_error (0x2030 + BitVec.ofNat 32 (16 * 1)) 4 .read 1 (by decide) (by decide),
      holed_error 0x3008 1 .write 0 (by decide) (by decide)⟩,
    ⟨holed, 0x3004, 0x2000, 0x2020, 2, _, 1, by decide, by decide, ⟨by decide, by decide⟩, ⟨by decide, by decide⟩,
      ⟨by decide, by decide⟩, clean _ _ _ ?_, holed_holds 0x2000 0 4 rfl (by decide), fun j hj => clean _ _ _ ?_,
      by decide, by decide, fun j hj => ?_,
      holed_error (0x3004 + BitVec.ofNat 32 (4 * 1)) 1 .write 0 (by decide) (by decide), word 0x2020 ⟨8, rfl, by decide⟩⟩⟩
  · decide
  · obtain rfl : j = 0 := by omega
    exact clean _ _ _ (by decide)
  · decide
  · have hj' : j < 2 := hj
    have : j = 0 ∨ j = 1 := by omega
    rcases this with rfl | rfl <;> decide
  · obtain rfl : j = 0 := by omega
    exact clean _ _ _ (by decide)

theorem witness_Mul33ComputesTheProduct : ∃ (s : State) (d a b : Word) (u v : Nat → Word),
    Source s a 32 10 9 u ∧ Source s b 32 10 9 v ∧ Target s d 32 10 :=
  ⟨bench, 0x2020, 0x2000, 0x2040, _, _, bench_source 32 10 9 rfl (by decide) (by decide),
    bench_sourceB 32 10 9 rfl (by decide) (by decide), bench_target 32 10 rfl (by decide)⟩

theorem witness_Add33AddsLanes : ∃ (s : State) (d a b : Word) (u v : Nat → Word),
    Source s a 32 10 9 u ∧ Source s b 32 10 9 v ∧ Target s d 32 10 := witness_Mul33ComputesTheProduct

theorem witness_Mul44ComputesTheProduct : ∃ (s : State) (d a b : Word) (u v : Nat → Word),
    Source s a 16 16 16 u ∧ Source s b 16 16 16 v ∧ Target s d 16 16 :=
  ⟨bench, 0x2020, 0x2000, 0x2040, _, _, bench_source 16 16 16 rfl (by decide) (by decide),
    bench_sourceB 16 16 16 rfl (by decide) (by decide), bench_target 16 16 rfl (by decide)⟩

theorem witness_Add44AddsLanes : ∃ (s : State) (d a b : Word) (u v : Nat → Word),
    Source s a 16 16 16 u ∧ Source s b 16 16 16 v ∧ Target s d 16 16 := witness_Mul44ComputesTheProduct

theorem witness_Mul44vComputesTheProduct : ∃ (s : State) (d a x : Word) (u v : Nat → Word),
    Source s a 16 16 16 u ∧ Source s x 16 4 4 v ∧ Target s d 16 4 :=
  ⟨bench, 0x2020, 0x2000, 0x2040, _, _, bench_source 16 16 16 rfl (by decide) (by decide),
    bench_sourceB 16 4 4 rfl (by decide) (by decide), bench_target 16 4 rfl (by decide)⟩

theorem witness_Trn33MovesLanes : ∃ (s : State) (d a : Word) (u : Nat → Word),
    Source s a 32 10 9 u ∧ Target s d 32 10 :=
  ⟨bench, 0x2020, 0x2000, _, bench_source 32 10 9 rfl (by decide) (by decide), bench_target 32 10 rfl (by decide)⟩

theorem witness_Smul33ScalesLanes : ∃ (s : State) (d a : Word) (u : Nat → Word),
    Source s a 32 10 9 u ∧ Target s d 32 10 := witness_Trn33MovesLanes

theorem witness_Trn44MovesLanes : ∃ (s : State) (d a : Word) (u : Nat → Word),
    Source s a 16 16 16 u ∧ Target s d 16 16 :=
  ⟨bench, 0x2020, 0x2000, _, bench_source 16 16 16 rfl (by decide) (by decide), bench_target 16 16 rfl (by decide)⟩

theorem witness_Inv44ComputesTheBlockInverse : ∃ (s : State) (d a : Word) (u : Nat → Word),
    Source s a 16 16 16 u ∧ Target s d 16 16 := witness_Trn44MovesLanes

theorem witness_Smul44ScalesLanes : ∃ (s : State) (d a : Word) (u : Nat → Word),
    Source s a 16 16 16 u ∧ Target s d 16 16 := witness_Trn44MovesLanes

theorem witness_Smulv4ScalesLanes : ∃ (s : State) (d a : Word) (u : Nat → Word),
    Source s a 16 4 4 u ∧ Target s d 16 4 :=
  ⟨bench, 0x2020, 0x2000, _, bench_source 16 4 4 rfl (by decide) (by decide), bench_target 16 4 rfl (by decide)⟩

theorem witness_Addv4AddsLanes : ∃ (s : State) (d a b : Word) (u v : Nat → Word),
    Source s a 16 4 4 u ∧ Source s b 16 4 4 v ∧ Target s d 16 4 :=
  ⟨bench, 0x2020, 0x2000, 0x2040, _, _, bench_source 16 4 4 rfl (by decide) (by decide),
    bench_sourceB 16 4 4 rfl (by decide) (by decide), bench_target 16 4 rfl (by decide)⟩

theorem witness_DotComputesTheSum : ∃ (s : State) (d a b : Word) (u v : Nat → Word),
    Source s a 16 4 4 u ∧ Source s b 16 4 4 v ∧ Target s d 4 1 :=
  ⟨bench, 0x2020, 0x2000, 0x2040, _, _, bench_source 16 4 4 rfl (by decide) (by decide),
    bench_sourceB 16 4 4 rfl (by decide) (by decide), bench_target 4 1 rfl (by decide)⟩

/-- V-CTL-20: empty arrays at MEM_SIZE. -/
theorem witness_DotbOfNothingCompletes : ∃ (s : State) (d a v : Word), Fits s a 16 16 ∧ Fits s v 16 0 ∧ Fits s d 4 0 :=
  ⟨bench, 0x10000, 0x2000, 0x10000, ⟨by decide, by decide⟩, ⟨by decide, by decide⟩, ⟨by decide, by decide⟩⟩

/-- The output overlaps the second vector. -/
theorem witness_DotbRunsInElementOrder : ∃ (s : State) (d a v n : Word) (u : Nat → Word), n ≠ 0 ∧ Source s a 16 4 4 u ∧
    Fits s v 16 (16 * n.toNat) ∧ NoBusError s v (4 * n.toNat) .read ∧
    (∀ k < 4 * n.toNat, (s.mem.readWord (v.toNat + 4 * k)).isSome) ∧ Target s d 4 n.toNat :=
  ⟨bench, 0x2020, 0x2000, 0x2010, 2, _, by decide, bench_source 16 4 4 rfl (by decide) (by decide),
    ⟨by decide, by decide⟩, bench_clean _ _ _, fun k hk => Option.isSome_iff_exists.2 ⟨_, bench_holds 0x2010 4 8 rfl (by decide) k hk⟩,
    bench_target 4 2 rfl (by decide)⟩

theorem witness_TransposeTwiceIsIdentity :
    (∃ (s : State) (e d a : Word) (u : Nat → Word), Source s a 16 16 16 u ∧ Target s d 16 16 ∧
      NoBusError s d 16 .read ∧ Target s e 16 16) ∧
    (∃ (s : State) (e d a : Word) (u : Nat → Word), Source s a 32 10 9 u ∧ Target s d 32 10 ∧
      NoBusError s d 10 .read ∧ Target s e 32 10) :=
  ⟨⟨bench, 0x2020, 0x2020, 0x2000, _, bench_source 16 16 16 rfl (by decide) (by decide), bench_target 16 16 rfl (by decide),
      bench_clean _ _ _, bench_target 16 16 rfl (by decide)⟩,
    ⟨bench, 0x2020, 0x2020, 0x2000, _, bench_source 32 10 9 rfl (by decide) (by decide), bench_target 32 10 rfl (by decide),
      bench_clean _ _ _, bench_target 32 10 rfl (by decide)⟩⟩

/-- A staged binary command on the bench completes in the sense of `Completed`. -/
theorem bench_completes (ka kb kd : OperandKind) (a b d : Word) (f : (Nat → Word) → Lanes → Lanes → Lanes) {u v : Lanes}
    (hc : checkOperands bench.platform.memSize [⟨a, ka⟩, ⟨b, kb⟩, ⟨d, kd⟩] = none)
    (ha : Operand.load bench.mem ⟨a, ka⟩ = .ok u) (hb : Operand.load bench.mem ⟨b, kb⟩ = .ok v)
    (hl : (f bench.nans u v).length = kd.valueLanes) :
    ∃ t, stagedBinary ⟨a, ka⟩ ⟨b, kb⟩ ⟨d, kd⟩ f bench = .next t ∧ Completed bench t d.toNat kd.footprint := by
  refine ⟨_, staged_completes (vs := [u, v]) _ hc ?_ ?_ ?_, ?_⟩
  · rw [sourceError_none_iff]; intro o _; rw [Operand.readError, lanesError_false_iff]; intros; rfl
  · simp [loadAll, ha, hb]
  · rw [Operand.writeError, lanesError_false_iff]; intros; rfl
  · constructor <;> try rfl
    intro x hx
    exact Memory.storeLanes_read_outside _ _ _ _ (by rw [storedLanes_length (by simpa using hl)]; exact hx)

/-- 32 words 1.0 at 0x2000: matrices, vectors and arrays at once. -/
def ones : State := ready [(0x2000, List.replicate 32 0x3F800000)]

theorem ones_holds (a o n : Nat) (ha : a = 0x2000 + 4 * o) (h : o + n ≤ 32) : Holds ones.mem a n (fun _ => 0x3F800000) := by
  intro k hk
  subst ha
  rw [ones, ready_mem, Nat.add_assoc, ← Nat.mul_add,
    Memory.storeLanes_readWord_inside _ _ _ _ (by rw [List.length_replicate]; omega)]
  simp only [lane, List.getD_eq_getElem?_getD, List.getElem?_replicate]
  rw [if_pos (by omega)]; rfl

/-- A staged binary command on these completes in the sense of `Completed`. -/
theorem ones_completes (ka kb kd : OperandKind) (a b d : Word) (f : (Nat → Word) → Lanes → Lanes → Lanes)
    (hc : checkOperands ones.platform.memSize [⟨a, ka⟩, ⟨b, kb⟩, ⟨d, kd⟩] = none)
    (ha : Holds ones.mem a.toNat ka.valueLanes fun _ => 0x3F800000)
    (hb : Holds ones.mem b.toNat kb.valueLanes fun _ => 0x3F800000)
    (hl : ∀ draw u v, (f draw u v).length = kd.valueLanes) :
    ∃ t, stagedBinary ⟨a, ka⟩ ⟨b, kb⟩ ⟨d, kd⟩ f ones = .next t ∧ Completed ones t d.toNat kd.footprint := by
  have la := Operand.load_of_readWord (m := ones.mem) (o := ⟨a, ka⟩) _ ha
  have lb := Operand.load_of_readWord (m := ones.mem) (o := ⟨b, kb⟩) _ hb
  refine ⟨_, staged_completes (srcs := [⟨a, ka⟩, ⟨b, kb⟩]) (dst := ⟨d, kd⟩)
    (vs := [(List.range ka.valueLanes).map fun _ => 0x3F800000, (List.range kb.valueLanes).map fun _ => 0x3F800000])
    _ hc ?_ ?_ ?_, ?_⟩
  · rw [sourceError_none_iff]; intro o _; rw [Operand.readError, lanesError_false_iff]; intros; rfl
  · simp only [loadAll, la, lb]
  · rw [Operand.writeError, lanesError_false_iff]; intros; rfl
  · constructor <;> try rfl
    intro x hx
    exact Memory.storeLanes_read_outside _ _ _ _ (by rw [storedLanes_length (hl _ _ _)]; exact hx)

theorem witness_MatrixVectorIsAColumnOfTheProduct :
    ∃ (s t t' : State) (d d' a b x : Word) (v w : Nat → Word),
      exec (.mul44 d a b) s = .next t ∧ exec (.mul44v d' a x) s = .next t' ∧
      Completed s t d.toNat 64 ∧ Completed s t' d'.toNat 16 ∧
      Holds s.mem b.toNat 16 v ∧ Holds s.mem x.toNat 4 w ∧ (∀ k < 4, v (4 * k) = w k) := by
  have h16 := ones_holds 0x2000 0 16 rfl (by decide)
  have h4 := ones_holds 0x2040 16 4 rfl (by decide)
  obtain ⟨t, ht, hc⟩ := ones_completes .m44 .m44 .m44 0x2000 0x2000 0x3000 product44 (by decide) h16 h16
    fun _ _ _ => by simp [product44, lanes44, OperandKind.valueLanes]
  obtain ⟨t', ht', hc'⟩ := ones_completes .m44 .v4 .v4 0x2000 0x2040 0x4000 product44V (by decide) h16 h4
    fun _ _ _ => by simp [product44V, lanesV4, OperandKind.valueLanes]
  exact ⟨ones, t, t', 0x3000, 0x4000, 0x2000, 0x2000, 0x2040, _, _, ht, ht', hc, hc', h16, h4, fun _ _ => rfl⟩

theorem witness_AddIsCommutative :
    ∀ i j : Instr, (i = .add33 0x3000 0x2000 0x2040 ∧ j = .add33 0x3000 0x2040 0x2000) ∨
      (i = .add44 0x3000 0x2000 0x2040 ∧ j = .add44 0x3000 0x2040 0x2000) ∨
      (i = .addv4 0x3000 0x2000 0x2040 ∧ j = .addv4 0x3000 0x2040 0x2000) →
      ∃ t t', exec i ones = .next t ∧ exec j ones = .next t' ∧ t.cmdPtr ≠ ones.cmdPtr ∧ t'.cmdPtr ≠ ones.cmdPtr := by
  have ptr : ∀ t : State, t.cmdPtr = ones.cmdPtr + 32 → t.cmdPtr ≠ ones.cmdPtr := fun t h => by rw [h]; decide
  have hA := fun n h => ones_holds 0x2000 0 n rfl h
  have hB := fun n h => ones_holds 0x2040 16 n rfl h
  intro i j h
  rcases h with ⟨rfl, rfl⟩ | ⟨rfl, rfl⟩ | ⟨rfl, rfl⟩
  · obtain ⟨t, ht, hc⟩ := ones_completes .m33 .m33 .m33 0x2000 0x2040 0x3000 (addLanes 9) (by decide) (hA 9 (by decide))
      (hB 9 (by decide)) fun _ _ _ => by simp [addLanes, OperandKind.valueLanes]
    obtain ⟨t', ht', hc'⟩ := ones_completes .m33 .m33 .m33 0x2040 0x2000 0x3000 (addLanes 9) (by decide) (hB 9 (by decide))
      (hA 9 (by decide)) fun _ _ _ => by simp [addLanes, OperandKind.valueLanes]
    exact ⟨t, t', ht, ht', ptr t hc.cmdPtr, ptr t' hc'.cmdPtr⟩
  · obtain ⟨t, ht, hc⟩ := ones_completes .m44 .m44 .m44 0x2000 0x2040 0x3000 (addLanes 16) (by decide) (hA 16 (by decide))
      (hB 16 (by decide)) fun _ _ _ => by simp [addLanes, OperandKind.valueLanes]
    obtain ⟨t', ht', hc'⟩ := ones_completes .m44 .m44 .m44 0x2040 0x2000 0x3000 (addLanes 16) (by decide)
      (hB 16 (by decide)) (hA 16 (by decide)) fun _ _ _ => by simp [addLanes, OperandKind.valueLanes]
    exact ⟨t, t', ht, ht', ptr t hc.cmdPtr, ptr t' hc'.cmdPtr⟩
  · obtain ⟨t, ht, hc⟩ := ones_completes .v4 .v4 .v4 0x2000 0x2040 0x3000 (addLanes 4) (by decide) (hA 4 (by decide))
      (hB 4 (by decide)) fun _ _ _ => by simp [addLanes, OperandKind.valueLanes]
    obtain ⟨t', ht', hc'⟩ := ones_completes .v4 .v4 .v4 0x2040 0x2000 0x3000 (addLanes 4) (by decide) (hB 4 (by decide))
      (hA 4 (by decide)) fun _ _ _ => by simp [addLanes, OperandKind.valueLanes]
    exact ⟨t, t', ht, ht', ptr t hc.cmdPtr, ptr t' hc'.cmdPtr⟩

/-- Finite entries, a -0 among them (V-MUL-5). -/
theorem witness_IdentityLawForFiniteMatrices :
    (∃ m : Lanes, (∀ l < 16, IsFinite (lane m l)) ∧ lane m 0 = 0x80000000) ∧
    (∃ m : Lanes, (∀ l < 9, IsFinite (lane m l)) ∧ lane m 0 = 0x80000000) := by
  refine ⟨⟨0x80000000 :: up9, ?_, rfl⟩, ⟨0x80000000 :: up9, ?_, rfl⟩⟩ <;>
  · simp only [IsFinite]; decide

/-- The output at 0x3000 does not overlap the vectors at 0x2010. -/
theorem witness_DotbAgreesWithDot :
    ∃ (s t t' : State) (d d' a v n b : Word) (i : Nat), i < n.toNat ∧ 0 < i ∧
      exec (.dotb d a v n) s = .next t ∧ t.cmdPtr ≠ s.cmdPtr ∧ b.toNat = v.toNat + 16 * i ∧
      (d.toNat + 4 * n.toNat ≤ v.toNat ∨ v.toNat + 16 * n.toNat ≤ d.toNat) ∧
      exec (.dot d' a b) s = .next t' ∧ t'.cmdPtr ≠ s.cmdPtr := by
  obtain ⟨t, ht, hp⟩ := next_of (o := exec (.dotb 0x3000 0x2000 0x2010 2) ones)
    (f := fun t => t.cmdPtr != ones.cmdPtr) (by decide +kernel)
  obtain ⟨t', ht', hp'⟩ := next_of (o := exec (.dot 0x3000 0x2000 0x2020) ones)
    (f := fun t => t.cmdPtr != ones.cmdPtr) (by decide +kernel)
  exact ⟨ones, t, t', 0x3000, 0x3000, 0x2000, 0x2010, 2, 0x2020, 1, by decide, by decide, ht, bne_iff_ne.1 hp, rfl,
    .inr (by decide), ht', bne_iff_ne.1 hp'⟩

/-- A tie that rounds to an even pattern, and the tie past the largest finite value. -/
theorem witness_RoundingIsToNearestEven :
    roundedPattern (2 ^ 25 + 1) 1 < 0x7F800000 ∧ (2 ^ 25 - 1) * 2 ^ 252 * 1 ≤ (2 ^ 25 - 1) * 2 ^ 252 := by decide

theorem witness_NaNResultsAreTheirDraw :
    (∃ d a b, IsNaN (fmul d a b)) ∧ (∃ d a b, IsNaN (fadd d a b)) ∧ (∃ d a b c, IsNaN (ffma d a b c)) ∧
    (∃ d a b, IsNaN (fdiv d a b)) ∧ ∃ q : Word, ∀ k, 22 ≤ k → k ≤ 30 → q.getLsbD k = true :=
  ⟨⟨0, 0x7F800000, 0, show 0x7F800000 < pattern (fmul 0 0x7F800000 0) by decide⟩,
    ⟨0, 0x7F800000, 0xFF800000, show 0x7F800000 < pattern (fadd 0 0x7F800000 0xFF800000) by decide⟩,
    ⟨0, 0, 0x7F800000, 0, show 0x7F800000 < pattern (ffma 0 0 0x7F800000 0) by decide⟩,
    ⟨0, 0, 0, show 0x7F800000 < pattern (fdiv 0 0 0) by decide⟩,
    ⟨0xFFD12345, fun k h h' => by
      have : k = 22 ∨ k = 23 ∨ k = 24 ∨ k = 25 ∨ k = 26 ∨ k = 27 ∨ k = 28 ∨ k = 29 ∨ k = 30 := by omega
      rcases this with rfl | rfl | rfl | rfl | rfl | rfl | rfl | rfl | rfl <;> decide⟩⟩

/-- ∞ × -1, and -0 × 1. -/
theorem witness_MultiplicationFollowsItsCases :
    (¬ IsNaN (fmul 0 0x7F800000 0xBF800000) ∧ IsInf 0x7F800000) ∧ IsFinite 0x80000000 ∧ IsFinite 0x3F800000 :=
  ⟨⟨show ¬ 0x7F800000 < pattern (fmul 0 0x7F800000 0xBF800000) by decide, show pattern 0x7F800000 = 0x7F800000 by decide⟩,
    show pattern 0x80000000 < 0x7F800000 by decide, show pattern 0x3F800000 < 0x7F800000 by decide⟩

/-- ∞ + 1; 1 + (-1); 1 + 1. -/
theorem witness_AdditionFollowsItsCases :
    (¬ IsNaN (fadd 0 0x7F800000 0x3F800000) ∧ IsInf 0x7F800000) ∧
    (IsFinite 0x3F800000 ∧ IsFinite 0xBF800000 ∧ exactValue 0x3F800000 + exactValue 0xBF800000 = 0) ∧
    exactValue 0x3F800000 + exactValue 0x3F800000 ≠ 0 :=
  ⟨⟨show ¬ 0x7F800000 < pattern (fadd 0 0x7F800000 0x3F800000) by decide, show pattern 0x7F800000 = 0x7F800000 by decide⟩,
    ⟨show pattern 0x3F800000 < 0x7F800000 by decide, show pattern 0xBF800000 < 0x7F800000 by decide, by decide⟩, by decide⟩

/-- ∞ × 1 + 1; 1 × 1 + ∞; 1 × 1 - 1; 1 × 1 + 1. -/
theorem witness_FusedMultiplyAddFollowsItsCases :
    (¬ IsNaN (ffma 0 0x7F800000 0x3F800000 0x3F800000) ∧ IsInf 0x7F800000) ∧
    ¬ IsNaN (ffma 0 0x3F800000 0x3F800000 0x7F800000) ∧
    exactValue 0x3F800000 * exactValue 0x3F800000 + exactValue 0xBF800000 * 2 ^ 149 = 0 ∧
    exactValue 0x3F800000 * exactValue 0x3F800000 + exactValue 0x3F800000 * 2 ^ 149 ≠ 0 ∧
    IsFinite 0x3F800000 ∧ IsFinite 0xBF800000 :=
  ⟨⟨show ¬ 0x7F800000 < pattern (ffma 0 0x7F800000 0x3F800000 0x3F800000) by decide,
      show pattern 0x7F800000 = 0x7F800000 by decide⟩,
    show ¬ 0x7F800000 < pattern (ffma 0 0x3F800000 0x3F800000 0x7F800000) by decide, by decide, by decide,
    show pattern 0x3F800000 < 0x7F800000 by decide, show pattern 0xBF800000 < 0x7F800000 by decide⟩

/-- 1 / 0; ∞ / 1; 1 / ∞; 1 / 1. -/
theorem witness_DivisionFollowsItsCases :
    (¬ IsNaN (fdiv 0 0x3F800000 0) ∧ IsZero 0) ∧ (¬ IsNaN (fdiv 0 0x7F800000 0x3F800000) ∧ IsInf 0x7F800000) ∧
    IsFinite 0x3F800000 ∧ ¬ IsZero 0x3F800000 :=
  ⟨⟨show ¬ 0x7F800000 < pattern (fdiv 0 0x3F800000 0) by decide, show pattern 0 = 0 by decide⟩,
    ⟨show ¬ 0x7F800000 < pattern (fdiv 0 0x7F800000 0x3F800000) by decide, show pattern 0x7F800000 = 0x7F800000 by decide⟩,
    show pattern 0x3F800000 < 0x7F800000 by decide, show ¬ pattern 0x3F800000 = 0 by decide⟩

theorem witness_StartBeginsARun :
    ∀ b : Bool, ∃ (s : State) (w : Fin 64) (v : Word) (rest : List Move), s.phase = .operating ∧
      s.platform.regAddr w = s.platform.mmioBase + 0x04 ∧ s.schedule = .writeReg w v :: rest ∧ v.getLsbD 0 = true ∧
      v.getLsbD 2 = false ∧ s.busy = b :=
  fun b => ⟨{ State.reset with busy := b, schedule := [.writeReg 1 3, .engine] }, 1, 3, [.engine], rfl, rfl, rfl, by decide,
    by decide, rfl⟩

/-- A TRN44 in progress, its DST word written or not, and the move next. -/
def resetting (dst : List (Nat × List Word)) (m : Move) : State :=
  { ready ([(0x1000, [0x21]), (0x1008, [0x2000, 0, 0, 0, 0, 0])] ++ dst) with schedule := [m] }

/-- The reset input while idle; a SOFT_RESET with START during a run of a TRN44 to 0x2040; the reset input during a run whose command has no
DST word written, and during one whose fetch faults; the release of the input; power lost during a run. -/
theorem witness_ResetsPutTheResetValues :
    (∃ (s : State) (rest : List Move), s.schedule = .assertReset :: rest ∧ s.busy = false) ∧
    (∃ (s : State) (w : Fin 64) (v : Word) (rest : List Move), s.phase = .operating ∧ v.getLsbD 2 = true ∧
      v.getLsbD 0 = true ∧ s.platform.regAddr w = s.platform.mmioBase + 0x04 ∧ s.schedule = .writeReg w v :: rest ∧ s.busy = true ∧
      s.outputInProgress = some ⟨0x2040, 64⟩ ∧ s.fetch = .command (.trn44 0x2040 0x2000)) ∧
    (∃ (s : State) (rest : List Move) (d : Word), s.schedule = .assertReset :: rest ∧ s.busy = true ∧
      s.fetch = .unwritten 0x1004 ∧ decode s.drawnCommand = .ok (.trn44 d 0x2000)) ∧
    (∃ (s : State) (rest : List Move), s.schedule = .assertReset :: rest ∧ s.busy = true ∧ s.outputInProgress = none ∧
      ∃ code addr, s.fetch = .trap code addr) ∧
    (∃ (s : State) (rest : List Move), s.schedule = .releaseReset :: rest ∧ s.phase = .inReset) ∧
    ∃ (s : State) (rest : List Move), s.schedule = .losePower :: rest ∧ s.outputInProgress = some ⟨0x2040, 64⟩ :=
  ⟨⟨{ State.reset with schedule := [.assertReset] }, [], rfl, rfl⟩,
    ⟨resetting [(0x1004, [0x2040])] (.writeReg 1 5), 1, 5, [], rfl, by decide, by decide, rfl, rfl, rfl, by decide +kernel,
      by decide +kernel⟩,
    ⟨resetting [] .assertReset, [], _, rfl, rfl, by decide +kernel, rfl⟩,
    ⟨{ resetting [] .assertReset with cmdPtr := 0x1001 }, [], rfl, rfl, by decide +kernel, .fetchMisaligned, 0x1001,
      by decide +kernel⟩,
    ⟨{ State.reset with phase := .inReset, schedule := [.releaseReset] }, [], rfl, rfl⟩,
    resetting [(0x1004, [0x2040])] .losePower, [], rfl, by decide +kernel⟩

theorem witness_StatusWriteOnlyClears : ∃ (s : State) (w : Fin 64) (v : Word) (rest : List Move), s.phase = .operating ∧
    s.platform.regAddr w = s.platform.mmioBase + 0x08 ∧ s.schedule = .writeReg w v :: rest ∧ v.getLsbD 1 = true ∧ s.done = true :=
  ⟨{ State.reset with done := true, schedule := [.writeReg 2 2] }, 2, 2, [], rfl, rfl, rfl, by decide, rfl⟩

theorem witness_RegisterReadsReturnTheirFields :
    Platform.standard.wf ∧ ∀ off, off ∈ [0x00, 0x04, 0x08, 0x0C, 0x10, 0x14, 0x18, 0xFC] →
      ∃ (s : State) (w : Fin 64) (rest : List Move), s.platform.regAddr w = s.platform.mmioBase + off ∧
        s.schedule = .readReg w :: rest := ⟨by decide, fun off h =>
  ⟨{ State.reset with schedule := [.readReg (Fin.ofNat 64 (off / 4))] }, Fin.ofNat 64 (off / 4), [], by revert off; decide, rfl⟩⟩

theorem witness_OtherRegisterWrites :
    ∀ off, off ∈ [0x00, 0x04, 0x0C, 0x10, 0x14, 0x18, 0xFC] → ∀ (p : Phase) (b : Bool),
      ∃ (s : State) (w : Fin 64) (v : Word) (rest : List Move), s.platform.regAddr w = s.platform.mmioBase + off ∧
        s.schedule = .writeReg w v :: rest ∧ s.phase = p ∧ s.busy = b ∧ v.getLsbD 0 = false ∧ v.getLsbD 2 = false ∧
        v.getLsbD 1 = true := fun off h p b =>
  ⟨{ State.reset with schedule := [.writeReg (Fin.ofNat 64 (off / 4)) 0xFFFFFFFA], phase := p, busy := b },
    Fin.ofNat 64 (off / 4), 0xFFFFFFFA, [],
    show Platform.standard.regAddr (Fin.ofNat 64 (off / 4)) = Platform.standard.mmioBase + off by revert off; decide,
    rfl, rfl, rfl, by decide, by decide, by decide⟩

theorem witness_IrqFollowsStatus :
    (∃ s t, exec .halt s = .next t) ∧ (∃ v : Word, v.getLsbD 1 = true ∧ v.getLsbD 2 = true) ∧
    ∃ v : Word, v.getLsbD 1 = false ∧ v.getLsbD 2 = false :=
  ⟨⟨State.reset, _, rfl⟩, ⟨6, by decide⟩, ⟨1, by decide⟩⟩

/-- A TRN44 to 0x2040 in progress and a host read next. -/
def reading : State :=
  { ready [(0x1000, [0x21, 0x2040, 0x2000, 0, 0, 0, 0, 0]), (0x203C, [7])] with schedule := [.readMem 0x203F 2] }

/-- A read during a run of a TRN44 to 0x2040, of a byte before its output, which is written, and the first of it, which is not; a read after
STATUS shows the end of a run; a write and its read at the top of the data space, below it and over it bytes the host has not seen. -/
theorem witness_HostReadsOfTheDataSpace :
    (∃ (s : State) (addr len : Nat) (rest : List Move), addr + len ≤ s.platform.memSize ∧
      s.schedule = .readMem addr len :: rest ∧ s.busy = true ∧ len = 2 ∧
      (∀ k < len, (∀ r ∈ s.racing, addr + k < r.base ∨ r.base + r.len ≤ addr + k) → (s.mem.read (addr + k)).isSome) ∧
      (∀ r ∈ s.unseenWrote, addr < r.base ∨ r.base + r.len ≤ addr) ∧
      ∀ i, (s.fetch = .command i ∨ ∃ y, s.fetch = .unwritten y ∧ decode s.drawnCommand = .ok i) →
        ∀ r ∈ writesOf s.platform i, addr < r.base ∨ r.base + r.len ≤ addr) ∧
    (∃ (s : State) (w : Fin 64) (addr len : Nat) (rest : List Move), addr + len ≤ s.platform.memSize ∧ s.phase = .operating ∧
      s.busy = false ∧ (s.done = true ∨ s.err = true) ∧ s.unseenWrote ≠ [] ∧
      s.platform.regAddr w = s.platform.mmioBase + 0x08 ∧ s.schedule = .readReg w :: .readMem addr len :: rest ∧
      ∀ k < len, (s.mem.read (addr + k)).isSome) ∧
    ∀ top, top ∈ [0xFFFC, 0xFFFE] → ∃ (s : State) (addr : Nat) (bs : List Byte) (rest : List Move), s.busy = false ∧
      addr + bs.length ≤ s.platform.memSize ∧ s.schedule = .writeMem addr bs :: .readMem addr bs.length :: rest ∧
      s.unseenWrote = [⟨top, 2⟩] ∧
      (top = 0xFFFC → ∀ k < bs.length, ∀ r ∈ s.unseenWrote, addr + k < r.base ∨ r.base + r.len ≤ addr + k) := by
  have hf : reading.fetch = .command (.trn44 0x2040 0x2000) := by decide +kernel
  have hw : writesOf reading.platform (.trn44 0x2040 0x2000) = [⟨0x2040, 64⟩] := by decide +kernel
  refine ⟨⟨reading, 0x203F, 2, [], by decide, rfl, rfl, rfl, fun k hk hr => ?_, fun _ h => (by cases h), fun i h r hr => ?_⟩,
    ⟨{ State.reset with
        done := true, mem := [(0x2000, 7)], unseenWrote := [⟨0x2000, 4⟩], schedule := [.readReg 2, .readMem 0x2000 1] },
      2, 0x2000, 1, [], by decide, rfl, rfl, .inl rfl, by decide, rfl, rfl, by decide⟩,
    fun top _ => ⟨{ State.reset with unseenWrote := [⟨top, 2⟩], schedule := [.writeMem 0xFFFE [1, 2], .readMem 0xFFFE 2] },
      0xFFFE, [1, 2], [], rfl, show 0xFFFE + 2 ≤ 0x10000 by decide, rfl, rfl, fun h => by subst h; decide⟩⟩
  · have hk' : k = 0 ∨ k = 1 := by omega
    rcases hk' with rfl | rfl
    · decide +kernel
    · have : (⟨0x2040, 64⟩ : Region) ∈ reading.racing := by decide +kernel
      exact absurd (hr _ this) (by decide)
  · rw [hf] at h
    rcases h with h | ⟨_, h, -⟩ <;> cases h
    rw [hw, List.mem_singleton] at hr
    exact .inl (by rw [hr]; decide)

/-- A run that has touched 0x1000 to 0x101F: a write that meets it, and one that does not. -/
theorem witness_HostWritesDuringARun :
    (∃ (s : State) (addr : Nat) (bs : List Byte) (rest : List Move), s.busy = true ∧ s.phase = .operating ∧
      addr + bs.length ≤ s.platform.memSize ∧ s.schedule = .writeMem addr bs :: rest ∧
      ∃ k < bs.length, ∃ r ∈ s.runTouched, r.base ≤ addr + k ∧ addr + k < r.base + r.len) ∧
    (∃ (s : State) (addr : Nat) (bs : List Byte) (rest : List Move), s.busy = true ∧ s.phase = .operating ∧
      addr + bs.length ≤ s.platform.memSize ∧ s.schedule = .writeMem addr bs :: rest ∧ bs ≠ [] ∧ s.runTouched ≠ [] ∧
      ∀ k < bs.length, ∀ r ∈ s.runTouched, addr + k < r.base ∨ r.base + r.len ≤ addr + k) :=
  ⟨⟨{ ready [] with runTouched := [⟨0x1000, 32⟩], schedule := [.writeMem 0xFFF [1, 2]] }, 0xFFF, [1, 2], [], rfl, rfl, by decide,
      rfl, 1, by decide, ⟨0x1000, 32⟩, by decide, by decide, by decide⟩,
    ⟨{ ready [] with runTouched := [⟨0x1000, 32⟩], schedule := [.writeMem 0x1020 [1, 2]] }, 0x1020, [1, 2], [], rfl, rfl,
      by decide, rfl, by decide, by decide, by decide⟩⟩

end Sys2Proof.Tests
end

section
/-! PROOFS. Binary32 arithmetic by its cases: the kinds of word, the exact product and the exact sum, and the
obligations of 00_scope R11 to R13 and R16. -/

namespace Sys2Proof.Claims
open Sys2Proof.Machine

/-! ### The kinds of word (00_scope R9) -/

theorem IsInf.not_isNaN {x : Word} (h : IsInf x) : ¬ IsNaN x := by unfold IsInf IsNaN at *; omega

theorem IsFinite.not_isNaN {x : Word} (h : IsFinite x) : ¬ IsNaN x := by unfold IsFinite IsNaN at *; omega

theorem IsFinite.not_isInf {x : Word} (h : IsFinite x) : ¬ IsInf x := by unfold IsFinite IsInf at *; omega

theorem IsZero.isFinite {x : Word} (h : IsZero x) : IsFinite x := by unfold IsZero IsFinite at *; omega

theorem isFinite_of_not_isNaN_of_not_isInf {x : Word} (hn : ¬ IsNaN x) (hi : ¬ IsInf x) : IsFinite x := by
  unfold IsNaN IsInf IsFinite at *; omega

/-- Every word is of one of three kinds, and `float32` reads it by its kind. -/
theorem float32_cases (x : Word) :
    (IsNaN x ∧ float32 x = .nan) ∨ (IsInf x ∧ float32 x = .inf x.msb) ∨
      (IsFinite x ∧ float32 x = .fin x.msb (magOf (pattern x))) := by
  have hx : float32 x = if infPattern < pattern x then .nan else
      if pattern x = infPattern then .inf x.msb else .fin x.msb (magOf (pattern x)) := rfl
  rcases Nat.lt_trichotomy (pattern x) infPattern with h | h | h
  · exact .inr (.inr ⟨h, by rw [hx, if_neg (by omega), if_neg (by omega)]⟩)
  · exact .inr (.inl ⟨h, by rw [hx, if_neg (by omega), if_pos h]⟩)
  · exact .inl ⟨h, by rw [hx, if_pos h]⟩

theorem float32_eq_nan_iff {x : Word} : float32 x = .nan ↔ IsNaN x :=
  (isNaN_iff x).symm.trans decide_eq_true_iff

theorem float32_of_isFinite {x : Word} (h : IsFinite x) : float32 x = .fin x.msb (magOf (pattern x)) := by
  rcases float32_cases x with ⟨h', -⟩ | ⟨h', -⟩ | ⟨-, e⟩
  · exact absurd h' h.not_isNaN
  · exact absurd h' h.not_isInf
  · exact e

theorem float32_eq_inf_iff {x : Word} {s : Bool} : float32 x = .inf s ↔ IsInf x ∧ x.msb = s := by
  rcases float32_cases x with ⟨h, e⟩ | ⟨h, e⟩ | ⟨h, e⟩
  · simpa [e] using fun h' : IsInf x => absurd h h'.not_isNaN
  · simp [e, h]
  · simp [e, h.not_isInf]

theorem float32_of_isInf {x : Word} (h : IsInf x) : float32 x = .inf x.msb := float32_eq_inf_iff.2 ⟨h, rfl⟩

theorem magOf_eq_zero_iff {p : Nat} : magOf p = 0 ↔ p = 0 := by
  unfold magOf
  split
  · rfl
  · have := Nat.two_pow_pos (p / 2 ^ 23 - 1)
    simp only [Nat.mul_eq_zero]
    omega

/-! ### Words built from a sign and a pattern -/

theorem pattern_packed {neg : Bool} {p : Nat} (h : p ≤ infPattern) : pattern (packed neg p) = p :=
  packed_pattern (Nat.lt_of_le_of_lt h infPattern_lt)

theorem msb_packed {neg : Bool} {p : Nat} (h : p ≤ infPattern) : (packed neg p).msb = neg :=
  packed_msb (Nat.lt_of_le_of_lt h infPattern_lt)

theorem not_isNaN_packed {neg : Bool} {p : Nat} (h : p ≤ infPattern) : ¬ IsNaN (packed neg p) := by
  unfold IsNaN
  rw [pattern_packed h]
  exact Nat.not_lt.2 h

theorem isInf_packed_infPattern (neg : Bool) : IsInf (packed neg infPattern) := pattern_packed (Nat.le_refl _)

theorem msb_packed_infPattern (neg : Bool) : (packed neg infPattern).msb = neg := msb_packed (Nat.le_refl _)

theorem packed_infPattern_eq_self {x : Word} (h : IsInf x) : packed x.msb infPattern = x :=
  (congrArg (packed x.msb) h).symm.trans (packed_self x)

theorem roundedPattern_le_infPattern (n d : Nat) : roundedPattern n d ≤ infPattern := Nat.min_le_right _ _

theorem pattern_rounded (neg : Bool) (n d : Nat) : pattern (rounded neg n d) = roundedPattern n d :=
  pattern_packed (roundedPattern_le_infPattern n d)

theorem msb_rounded (neg : Bool) (n d : Nat) : (rounded neg n d).msb = neg :=
  msb_packed (roundedPattern_le_infPattern n d)

theorem not_isNaN_rounded (neg : Bool) (n d : Nat) : ¬ IsNaN (rounded neg n d) :=
  not_isNaN_packed (roundedPattern_le_infPattern n d)

theorem roundedSum_zero (bothNegative : Bool) (d : Nat) :
    roundedSum bothNegative 0 d = if bothNegative then 0x80000000 else 0 := by
  cases bothNegative <;> simp [roundedSum, packed]

theorem roundedSum_of_ne_zero {z : Int} (hz : z ≠ 0) (bothNegative : Bool) (d : Nat) :
    roundedSum bothNegative z d = rounded (decide (z < 0)) z.natAbs d := if_neg hz

theorem not_isNaN_roundedSum (bothNegative : Bool) (z : Int) (d : Nat) : ¬ IsNaN (roundedSum bothNegative z d) := by
  unfold roundedSum
  split
  · exact not_isNaN_packed (Nat.zero_le _)
  · exact not_isNaN_rounded _ _ _

/-! ### The NaN an operation gives (00_scope R16) -/

/-- `quietNaN` sets bits 30:22 and keeps every other bit of the draw. -/
theorem getLsbD_quietNaN (d : Word) {k : Nat} (hk : k < 32) :
    (quietNaN d).getLsbD k = (d.getLsbD k || decide (22 ≤ k ∧ k ≤ 30)) := by
  have masks : ∀ k < 32, (0x7FC00000 : Word).getLsbD k = decide (22 ≤ k ∧ k ≤ 30) ∧
      (0x803FFFFF : Word).getLsbD k = !decide (22 ≤ k ∧ k ≤ 30) := by decide
  rw [quietNaN, BitVec.getLsbD_or, BitVec.getLsbD_and, (masks k hk).1, (masks k hk).2]
  cases d.getLsbD k <;> cases decide (22 ≤ k ∧ k ≤ 30) <;> rfl

theorem isNaN_quietNaN (d : Word) : IsNaN (quietNaN d) := by
  have h : ((quietNaN d).extractLsb' 22 9).toNat = 0x1FF := congrArg BitVec.toNat (beq_iff_eq.1 (quietNaN_quiet d))
  rw [BitVec.extractLsb'_toNat, Nat.shiftRight_eq_div_pow] at h
  unfold IsNaN pattern
  omega

/-- A word whose bits 30:22 are all ones is the quiet NaN of itself as the draw. -/
theorem quietNaN_eq_self {q : Word} (h : ∀ k, 22 ≤ k → k ≤ 30 → q.getLsbD k = true) : quietNaN q = q := by
  apply BitVec.eq_of_getLsbD_eq
  intro k hk
  rw [getLsbD_quietNaN q hk]
  by_cases hm : 22 ≤ k ∧ k ≤ 30
  · rw [h k hm.1 hm.2, Bool.true_or]
  · rw [decide_eq_false hm, Bool.or_false]

/-! ### The exact product and fmul (00_scope R11) -/

/-- The operands whose product is NaN. -/
def InvalidProduct (a b : Word) : Prop := IsNaN a ∨ IsNaN b ∨ (IsInf a ∧ IsZero b) ∨ (IsZero a ∧ IsInf b)

theorem IsFinite.not_invalidProduct {a b : Word} (ha : IsFinite a) (hb : IsFinite b) : ¬ InvalidProduct a b := by
  simp [InvalidProduct, ha.not_isNaN, hb.not_isNaN, ha.not_isInf, hb.not_isInf]

theorem exactProduct_of_invalid {a b : Word} (h : InvalidProduct a b) : exactProduct a b = .nan := by
  rcases h with h | h | ⟨ha, hb⟩ | ⟨ha, hb⟩
  · simp [exactProduct, float32_eq_nan_iff.2 h]
  · cases hx : float32 a <;> simp [exactProduct, hx, float32_eq_nan_iff.2 h]
  · simp [exactProduct, float32_of_isInf ha, float32_of_isFinite hb.isFinite, magOf_eq_zero_iff.2 hb]
  · simp [exactProduct, float32_of_isInf hb, float32_of_isFinite ha.isFinite, magOf_eq_zero_iff.2 ha]

theorem exactProduct_of_isFinite {a b : Word} (ha : IsFinite a) (hb : IsFinite b) :
    exactProduct a b = .fin (a.msb ^^ b.msb) (magOf (pattern a) * magOf (pattern b)) := by
  simp [exactProduct, float32_of_isFinite ha, float32_of_isFinite hb]

theorem exactProduct_of_isInf {a b : Word} (h : IsInf a ∨ IsInf b) (hv : ¬ InvalidProduct a b) :
    exactProduct a b = .inf (a.msb ^^ b.msb) := by
  simp only [InvalidProduct, not_or] at hv
  obtain ⟨hna, hnb, hab, hba⟩ := hv
  rcases float32_cases a with ⟨ha, -⟩ | ⟨ha, ea⟩ | ⟨ha, ea⟩
  · exact absurd ha hna
  · rcases float32_cases b with ⟨hb, -⟩ | ⟨-, eb⟩ | ⟨-, eb⟩
    · exact absurd hb hnb
    · simp [exactProduct, ea, eb]
    · have hm : magOf (pattern b) ≠ 0 := fun hz => hab ⟨ha, magOf_eq_zero_iff.1 hz⟩
      simp [exactProduct, ea, eb, hm]
  · have hb : IsInf b := h.resolve_left ha.not_isInf
    have hm : magOf (pattern a) ≠ 0 := fun hz => hba ⟨magOf_eq_zero_iff.1 hz, hb⟩
    simp [exactProduct, ea, float32_of_isInf hb, hm]

/-- What the exact product of two words can be, by the kinds of the words. -/
theorem exactProduct_cases (a b : Word) :
    (InvalidProduct a b ∧ exactProduct a b = .nan) ∨
    (¬ InvalidProduct a b ∧ (IsInf a ∨ IsInf b) ∧ exactProduct a b = .inf (a.msb ^^ b.msb)) ∨
    (IsFinite a ∧ IsFinite b ∧
      exactProduct a b = .fin (a.msb ^^ b.msb) (magOf (pattern a) * magOf (pattern b))) := by
  by_cases hv : InvalidProduct a b
  · exact .inl ⟨hv, exactProduct_of_invalid hv⟩
  by_cases hi : IsInf a ∨ IsInf b
  · exact .inr (.inl ⟨hv, hi, exactProduct_of_isInf hi hv⟩)
  · have ha := isFinite_of_not_isNaN_of_not_isInf (fun h => hv (.inl h)) (fun h => hi (.inl h))
    have hb := isFinite_of_not_isNaN_of_not_isInf (fun h => hv (.inr (.inl h))) (fun h => hi (.inr h))
    exact .inr (.inr ⟨ha, hb, exactProduct_of_isFinite ha hb⟩)

theorem exactProduct_eq_nan_iff {a b : Word} : exactProduct a b = .nan ↔ InvalidProduct a b := by
  rcases exactProduct_cases a b with ⟨h, e⟩ | ⟨h, -, e⟩ | ⟨ha, hb, e⟩
  · simp [e, h]
  · simp [e, h]
  · simp [e, ha.not_invalidProduct hb]

theorem exactProduct_eq_inf_iff {a b : Word} {s : Bool} :
    exactProduct a b = .inf s ↔ ¬ InvalidProduct a b ∧ (IsInf a ∨ IsInf b) ∧ (a.msb ^^ b.msb) = s := by
  rcases exactProduct_cases a b with ⟨h, e⟩ | ⟨h, hi, e⟩ | ⟨ha, hb, e⟩
  · simp [e, h]
  · simp [e, h, hi]
  · simp [e, ha.not_isInf, hb.not_isInf]

theorem fmul_of_nan {draw a b : Word} (h : exactProduct a b = .nan) : fmul draw a b = quietNaN draw := by
  rw [fmul, h]

theorem fmul_of_inf {draw a b : Word} {s : Bool} (h : exactProduct a b = .inf s) :
    fmul draw a b = packed s infPattern := by
  rw [fmul, h]

theorem fmul_of_fin {draw a b : Word} {s : Bool} {m : Nat} (h : exactProduct a b = .fin s m) :
    fmul draw a b = rounded s m (2 ^ 149) := by
  rw [fmul, h]

theorem isNaN_fmul_iff {draw a b : Word} : IsNaN (fmul draw a b) ↔ InvalidProduct a b := by
  rcases exactProduct_cases a b with ⟨h, e⟩ | ⟨h, -, e⟩ | ⟨ha, hb, e⟩
  · simp [fmul_of_nan e, isNaN_quietNaN, h]
  · simp [fmul_of_inf e, (isInf_packed_infPattern _).not_isNaN, h]
  · simp [fmul_of_fin e, not_isNaN_rounded, ha.not_invalidProduct hb]

theorem msb_fmul {draw a b : Word} (h : ¬ InvalidProduct a b) : (fmul draw a b).msb = (a.msb ^^ b.msb) := by
  rcases exactProduct_cases a b with ⟨h', -⟩ | ⟨-, -, e⟩ | ⟨-, -, e⟩
  · exact absurd h' h
  · rw [fmul_of_inf e, msb_packed_infPattern]
  · rw [fmul_of_fin e, msb_rounded]

/-! ### The exact sum, shared by fadd and ffma (00_scope R12, R13) -/

/-- The word an addition gives for two exact values: the second one's magnitude counts `d` times the unit of the
first one's. `fadd` adds with `d = 1`, `ffma` with `d = 2 ^ 149`. -/
def sumWord (draw : Word) (d : Nat) : Float32Value → Float32Value → Word
  | .nan, _ => quietNaN draw
  | _, .nan => quietNaN draw
  | .inf s, .inf t => if s = t then packed s infPattern else quietNaN draw
  | .inf s, .fin _ _ => packed s infPattern
  | .fin _ _, .inf t => packed t infPattern
  | .fin s m, .fin t n => roundedSum (s && t) (signed s m + signed t (n * d)) d

theorem fadd_eq_sumWord (draw a b : Word) : fadd draw a b = sumWord draw 1 (float32 a) (float32 b) := by
  unfold fadd
  cases float32 a <;> cases float32 b <;> simp [sumWord]

theorem ffma_eq_sumWord (draw a b c : Word) :
    ffma draw a b c = sumWord draw (2 ^ 149) (exactProduct a b) (float32 c) := by
  unfold ffma
  cases exactProduct a b <;> cases float32 c <;> rfl

/-- The exact values whose sum is NaN. -/
def InvalidSum (v w : Float32Value) : Prop := v = .nan ∨ w = .nan ∨ ∃ s t, v = .inf s ∧ w = .inf t ∧ s ≠ t

section
variable {draw : Word} {d : Nat} {v w : Float32Value}

theorem sumWord_of_invalid (h : InvalidSum v w) : sumWord draw d v w = quietNaN draw := by
  rcases h with rfl | rfl | ⟨s, t, rfl, rfl, hst⟩
  · cases w <;> rfl
  · cases v <;> rfl
  · exact if_neg hst

theorem sumWord_inf_left {s : Bool} (h : ¬ InvalidSum (.inf s) w) :
    sumWord draw d (.inf s) w = packed s infPattern := by
  cases w with
  | nan => exact absurd (.inr (.inl rfl)) h
  | inf t =>
    refine if_pos (Classical.byContradiction fun hst => h ?_)
    exact .inr (.inr ⟨s, t, rfl, rfl, hst⟩)
  | fin t n => rfl

theorem sumWord_inf_right {t : Bool} (h : ¬ InvalidSum v (.inf t)) :
    sumWord draw d v (.inf t) = packed t infPattern := by
  cases v with
  | nan => exact absurd (.inl rfl) h
  | inf s =>
    have hst : s = t := Classical.byContradiction fun hst => h (.inr (.inr ⟨s, t, rfl, rfl, hst⟩))
    exact hst ▸ if_pos rfl
  | fin s m => rfl

theorem isNaN_sumWord_iff : IsNaN (sumWord draw d v w) ↔ InvalidSum v w := by
  refine ⟨fun h => Classical.byContradiction fun hv => ?_, fun h => sumWord_of_invalid h ▸ isNaN_quietNaN draw⟩
  cases v with
  | nan => exact hv (.inl rfl)
  | inf s => exact (isInf_packed_infPattern s).not_isNaN (sumWord_inf_left hv ▸ h)
  | fin s m =>
    cases w with
    | nan => exact hv (.inr (.inl rfl))
    | inf t => exact (isInf_packed_infPattern t).not_isNaN (sumWord_inf_right hv ▸ h)
    | fin t n => exact not_isNaN_roundedSum _ _ _ h

end

theorem fadd_of_isFinite {draw a b : Word} (ha : IsFinite a) (hb : IsFinite b) :
    fadd draw a b = roundedSum (a.msb && b.msb) (exactValue a + exactValue b) 1 := by
  rw [fadd_eq_sumWord, float32_of_isFinite ha, float32_of_isFinite hb]
  simp [sumWord, exactValue, signed]

theorem signed_mul (s : Bool) (m n : Nat) : signed s (m * n) = signed s m * n := by
  cases s
  · exact Int.natCast_mul m n
  · exact (congrArg Neg.neg (Int.natCast_mul m n)).trans (Int.neg_mul _ _).symm

theorem signed_xor_mul (s t : Bool) (m n : Nat) : signed (s ^^ t) (m * n) = signed s m * signed t n := by
  cases t
  · rw [Bool.xor_false]
    exact signed_mul s m n
  · have hs : signed (s ^^ true) (m * n) = -signed s (m * n) := by
      cases s
      · rfl
      · exact (Int.neg_neg _).symm
    rw [hs, signed_mul]
    exact (Int.mul_neg _ _).symm

/-- The units of the product are 2 ^ -298, those of the addend 2 ^ -149. -/
theorem ffma_of_isFinite {draw a b c : Word} (ha : IsFinite a) (hb : IsFinite b) (hc : IsFinite c) :
    ffma draw a b c =
      roundedSum ((a.msb ^^ b.msb) && c.msb) (exactValue a * exactValue b + exactValue c * 2 ^ 149) (2 ^ 149) := by
  rw [ffma_eq_sumWord, exactProduct_of_isFinite ha hb, float32_of_isFinite hc, sumWord, signed_xor_mul, signed_mul,
    Int.natCast_pow]
  rfl

theorem invalidSum_float32_iff {a b : Word} :
    InvalidSum (float32 a) (float32 b) ↔ IsNaN a ∨ IsNaN b ∨ (IsInf a ∧ IsInf b ∧ a.msb ≠ b.msb) := by
  refine or_congr float32_eq_nan_iff (or_congr float32_eq_nan_iff ⟨?_, fun ⟨ha, hb, hst⟩ => ?_⟩)
  · rintro ⟨_, _, ea, eb, hst⟩
    obtain ⟨ha, rfl⟩ := float32_eq_inf_iff.1 ea
    obtain ⟨hb, rfl⟩ := float32_eq_inf_iff.1 eb
    exact ⟨ha, hb, hst⟩
  · exact ⟨_, _, float32_of_isInf ha, float32_of_isInf hb, hst⟩

theorem invalidSum_exactProduct_iff {a b c : Word} :
    InvalidSum (exactProduct a b) (float32 c) ↔ InvalidProduct a b ∨ IsNaN c ∨
      ((IsInf a ∨ IsInf b) ∧ IsInf c ∧ (a.msb ^^ b.msb) ≠ c.msb) := by
  by_cases hv : InvalidProduct a b
  · exact iff_of_true (.inl (exactProduct_of_invalid hv)) (.inl hv)
  refine or_congr exactProduct_eq_nan_iff (or_congr float32_eq_nan_iff ⟨?_, fun ⟨hi, hc, hst⟩ => ?_⟩)
  · rintro ⟨_, _, ep, ec, hst⟩
    obtain ⟨-, hi, rfl⟩ := exactProduct_eq_inf_iff.1 ep
    obtain ⟨hc, rfl⟩ := float32_eq_inf_iff.1 ec
    exact ⟨hi, hc, hst⟩
  · exact ⟨_, _, exactProduct_of_isInf hi hv, float32_of_isInf hc, hst⟩

/-- A zero exact sum of two finite words both negative is one of two negative zeros. -/
theorem both_negative_iff_of_exactValue_add_eq_zero {a b : Word} (h : exactValue a + exactValue b = 0) :
    (a.msb && b.msb) = true ↔ a = 0x80000000 ∧ b = 0x80000000 := by
  refine ⟨fun hs => ?_, fun ⟨ha, hb⟩ => by subst ha hb; decide⟩
  obtain ⟨hsa, hsb⟩ := Bool.and_eq_true_iff.1 hs
  rw [exactValue, exactValue, if_pos hsa, if_pos hsb] at h
  have ha : pattern a = 0 := magOf_eq_zero_iff.1 (by omega)
  have hb : pattern b = 0 := magOf_eq_zero_iff.1 (by omega)
  exact ⟨by rw [← packed_self a, hsa]; exact congrArg (packed true) ha,
    by rw [← packed_self b, hsb]; exact congrArg (packed true) hb⟩

theorem msb_pattern_roundedSum {z : Int} (hz : z ≠ 0) (bothNegative : Bool) (d : Nat) :
    (roundedSum bothNegative z d).msb = decide (z < 0) ∧
      pattern (roundedSum bothNegative z d) = roundedPattern z.natAbs d := by
  rw [roundedSum_of_ne_zero hz]
  exact ⟨msb_rounded _ _ _, pattern_rounded _ _ _⟩

/-! ### A NaN result is its own draw's (00_scope R16) -/

theorem fmul_eq_quietNaN {draw a b : Word} (h : IsNaN (fmul draw a b)) : fmul draw a b = quietNaN draw :=
  fmul_of_nan (exactProduct_of_invalid (isNaN_fmul_iff.1 h))

theorem fadd_eq_quietNaN {draw a b : Word} (h : IsNaN (fadd draw a b)) : fadd draw a b = quietNaN draw := by
  rw [fadd_eq_sumWord] at h ⊢
  exact sumWord_of_invalid (isNaN_sumWord_iff.1 h)

theorem ffma_eq_quietNaN {draw a b c : Word} (h : IsNaN (ffma draw a b c)) : ffma draw a b c = quietNaN draw := by
  rw [ffma_eq_sumWord] at h ⊢
  exact sumWord_of_invalid (isNaN_sumWord_iff.1 h)

/-- Each branch of `fdiv` gives the draw's NaN or packs a pattern that is no NaN's. -/
theorem fdiv_eq_quietNaN_or_packed (draw a b : Word) :
    fdiv draw a b = quietNaN draw ∨ ∃ neg p, p ≤ infPattern ∧ fdiv draw a b = packed neg p := by
  unfold fdiv
  split
  · exact .inl rfl
  · exact .inl rfl
  · exact .inl rfl
  · exact .inr ⟨_, _, Nat.le_refl _, rfl⟩
  · exact .inr ⟨_, _, Nat.zero_le _, rfl⟩
  · split
    · split
      · exact .inl rfl
      · exact .inr ⟨_, _, Nat.le_refl _, rfl⟩
    · exact .inr ⟨_, _, roundedPattern_le_infPattern _ _, rfl⟩

theorem fdiv_eq_quietNaN {draw a b : Word} (h : IsNaN (fdiv draw a b)) : fdiv draw a b = quietNaN draw := by
  rcases fdiv_eq_quietNaN_or_packed draw a b with e | ⟨neg, p, hp, e⟩
  · exact e
  · exact absurd (e ▸ h) (not_isNaN_packed hp)

/-- Settles O47, operation by operation from the case in which each gives a NaN. -/
theorem nanResultsAreTheirDraw : Obligations.NaNResultsAreTheirDraw := by
  refine ⟨fun draw a b c => ⟨fmul_eq_quietNaN, fadd_eq_quietNaN, ffma_eq_quietNaN, fdiv_eq_quietNaN,
    isNaN_quietNaN draw, fun k h22 h30 => ?_⟩, fun q => quietNaN_eq_self⟩
  rw [getLsbD_quietNaN draw (by omega), decide_eq_true ⟨h22, h30⟩, Bool.or_true]

/-- Settles O48, by the three kinds of exact product. -/
theorem multiplicationFollowsItsCases : Obligations.MultiplicationFollowsItsCases := by
  intro draw a b
  refine ⟨isNaN_fmul_iff, fun h => msb_fmul (mt isNaN_fmul_iff.2 h), fun h hi => ?_, fun ha hb => ?_⟩
  · rw [fmul_of_inf (exactProduct_of_isInf hi (mt isNaN_fmul_iff.2 h))]
    exact isInf_packed_infPattern _
  · rw [fmul_of_fin (exactProduct_of_isFinite ha hb), pattern_rounded]

/-- Settles O49, by the sum of the operands' values. -/
theorem additionFollowsItsCases : Obligations.AdditionFollowsItsCases := by
  intro draw a b
  refine ⟨?_, fun h => ⟨fun ha => ?_, fun hb => ?_⟩, fun ha hb hz => ?_, fun ha hb hz => ?_, rfl⟩
  · rw [fadd_eq_sumWord, isNaN_sumWord_iff, invalidSum_float32_iff]
  · rw [fadd_eq_sumWord, isNaN_sumWord_iff, float32_of_isInf ha] at h
    rw [fadd_eq_sumWord, float32_of_isInf ha, sumWord_inf_left h, packed_infPattern_eq_self ha]
  · rw [fadd_eq_sumWord, isNaN_sumWord_iff, float32_of_isInf hb] at h
    rw [fadd_eq_sumWord, float32_of_isInf hb, sumWord_inf_right h, packed_infPattern_eq_self hb]
  · rw [fadd_of_isFinite ha hb, hz, roundedSum_zero]
    simp only [both_negative_iff_of_exactValue_add_eq_zero hz]
  · rw [fadd_of_isFinite ha hb]
    exact msb_pattern_roundedSum hz _ _

/-- Settles O50, by the sum of the exact product and the addend. -/
theorem fusedMultiplyAddFollowsItsCases : Obligations.FusedMultiplyAddFollowsItsCases := by
  intro draw a b c
  have hnan : IsNaN (ffma draw a b c) ↔ InvalidSum (exactProduct a b) (float32 c) := by
    rw [ffma_eq_sumWord, isNaN_sumWord_iff]
  refine ⟨?_, fun h hi => ?_, fun h hc => ?_, fun ha hb hc hz => ?_, fun ha hb hc hz => ?_⟩
  · rw [hnan, invalidSum_exactProduct_iff, InvalidProduct]
    simp only [or_assoc, or_left_comm]
  · rw [hnan] at h
    have hp := exactProduct_of_isInf hi fun hv => h (.inl (exactProduct_of_invalid hv))
    rw [hp] at h
    rw [ffma_eq_sumWord, hp, sumWord_inf_left h]
    exact ⟨isInf_packed_infPattern _, msb_packed_infPattern _⟩
  · rw [hnan, float32_of_isInf hc] at h
    rw [ffma_eq_sumWord, float32_of_isInf hc, sumWord_inf_right h, packed_infPattern_eq_self hc]
  · rw [ffma_of_isFinite ha hb hc, hz, roundedSum_zero]
    simp only [Bool.and_eq_true]
  · rw [ffma_of_isFinite ha hb hc]
    exact msb_pattern_roundedSum hz _ _

end Sys2Proof.Claims
end

section
/-! PROOFS. The irq line through the moves that change it (10_state R56). -/

namespace Sys2Proof.Machine

variable (s : State)

theorem exec_halt : exec .halt s = .next s.complete.halt := rfl

theorem State.irq_eq_true_iff : s.irq = true ↔ s.irqEn = true ∧ (s.done = true ∨ s.err = true) := by
  rw [State.irq, Bool.and_eq_true, Bool.or_eq_true]

theorem State.irq_of_irqEn_eq_false {s : State} (h : s.irqEn = false) : s.irq = false := by
  rw [State.irq, h, Bool.false_and]

@[simp] theorem State.halt_irq : s.halt.irq = s.irqEn := by simp [State.irq]

@[simp] theorem State.raiseFault_irq (code : FaultCode) (addr : Word) : (s.raiseFault code addr).irq = s.irqEn := by
  simp [State.irq]

/-- Bit 1 of the word clears DONE and bit 2 clears ERR (10_state R46). -/
theorem State.writeStatus_irq (v : Word) :
    (s.writeStatus v).irq = (s.irqEn && (s.done && !v.getLsbD 1 || s.err && !v.getLsbD 2)) := rfl

/-- Without SOFT_RESET, IRQ_EN takes bit 1 of the word, also when the write starts a run (10_state R45, R52). -/
theorem State.writeCtrl_irqEn {v : Word} (h : v.getLsbD 2 = false) : (s.writeCtrl v).irqEn = v.getLsbD 1 := by
  simp only [State.writeCtrl, h, Bool.false_eq_true, if_false]
  split
  · exact State.start_irqEn _
  · rfl

end Sys2Proof.Machine

namespace Sys2Proof.Claims
open Sys2Proof.Machine

/-- Settles O58, by what each of the moves does to IRQ_EN, DONE and ERR. -/
theorem irqFollowsStatus : Obligations.IrqFollowsStatus := by
  intro s
  refine ⟨s.irq_eq_true_iff, fun t ht => ?_, s.raiseFault_irq, fun v hdone herr => ?_, fun v hen hreset => ?_⟩
  · rw [exec_halt] at ht
    cases ht
    exact s.complete.halt_irq
  · simp [State.writeStatus_irq, hdone, herr]
  · exact State.irq_of_irqEn_eq_false ((s.writeCtrl_irqEn hreset).trans hen)

end Sys2Proof.Claims
end

section
/-! PROOFS. The decoder and the encoder against the field table of 30_encoding R102, read on its own, and what the
engine's turn does with the words of a fetch (30_encoding R106, R110; 40_control R130). -/

namespace Sys2Proof

/-! ### Opcodes -/

@[simp] theorem Opcode.ofByte_byte (op : Opcode) : Opcode.ofByte op.byte = some op := by
  cases op <;> rfl

theorem Opcode.ofByte_eq_some_iff {b : Byte} {op : Opcode} : Opcode.ofByte b = some op ↔ b = op.byte := by
  refine ⟨fun h => ?_, fun h => h ▸ op.ofByte_byte⟩
  rw [Opcode.ofByte] at h
  exact (eq_of_beq (List.find?_some h :)).symm

theorem fieldUse_byte (op : Opcode) :
    fieldUse op.byte.toNat = some (op.usesOperands, op.usesOperands, op.usesW3, op.usesN) := by
  cases op <;> rfl

/-- The rows of the field table are opcodes (30_encoding R102, R105). -/
theorem exists_byte_of_fieldUse_ne_none {n : Nat} (h : fieldUse n ≠ none) : ∃ op : Opcode, op.byte.toNat = n := by
  refine Classical.byContradiction fun hn => h ?_
  have hne : ∀ op ∈ Opcode.all, n ≠ op.byte.toNat := fun op _ ho => hn ⟨op, ho.symm⟩
  simp only [Opcode.all, Opcode.byte, List.forall_mem_cons, BitVec.reduceToNat] at hne
  simp [fieldUse, hne]

namespace RawCommand

variable {c : RawCommand}

/-! ### The fields of a raw command -/

theorem opc_toNat (c : RawCommand) : (c.w0.extractLsb' 0 8).toNat = c.w0.toNat % 256 := by
  simp

theorem fieldUse_eq_none_iff : fieldUse (c.w0.toNat % 256) = none ↔ Opcode.ofByte (c.w0.extractLsb' 0 8) = none := by
  rw [← c.opc_toNat]
  refine Decidable.not_iff_not.1 ⟨?_, ?_⟩
  · intro h
    obtain ⟨op, hop⟩ := exists_byte_of_fieldUse_ne_none h
    rw [← BitVec.eq_of_toNat_eq hop, Opcode.ofByte_byte]
    exact Option.some_ne_none op
  · intro h
    obtain ⟨op, hop⟩ := Option.ne_none_iff_exists'.1 h
    rw [Opcode.ofByte_eq_some_iff.1 hop, fieldUse_byte]
    exact Option.some_ne_none _

/-- RSV0 is bits 31:8 of W0 (30_encoding R101). -/
theorem reservedClear_eq (c : RawCommand) :
    c.reservedClear = (c.w0.toNat / 256 == 0 && c.w5 == 0 && c.w6 == 0 && c.w7 == 0) := by
  have hrsv0 : (c.w0.extractLsb' 8 24 == 0) = (c.w0.toNat / 256 == 0) := by
    have hlt := c.w0.isLt
    rw [Bool.eq_iff_iff, beq_iff_eq, beq_iff_eq, ← BitVec.toNat_inj, BitVec.extractLsb'_toNat,
      Nat.shiftRight_eq_div_pow, Nat.mod_eq_of_lt (by omega)]
    rfl
  rw [reservedClear, hrsv0]

theorem wellFormed_of_ofByte {op : Opcode} (h : Opcode.ofByte (c.w0.extractLsb' 0 8) = some op) :
    c.wellFormed = (c.reservedClear && c.mbzClear op) := by
  have hu := fieldUse_byte op
  rw [← Opcode.ofByte_eq_some_iff.1 h, opc_toNat] at hu
  simp only [wellFormed, hu, reservedClear_eq, mbzClear]
  cases op.usesOperands <;> simp [Bool.and_assoc]

/-! ### The decoder's three answers (30_encoding R106) -/

/-- Under an assigned opcode the decoder accepts exactly the raw commands that the field table calls well-formed. -/
theorem decode_of_ofByte {op : Opcode} (h : Opcode.ofByte (c.w0.extractLsb' 0 8) = some op) :
    decode c = if c.wellFormed then .ok (c.toInstr op) else .error .reservedNonzero := by
  rw [wellFormed_of_ofByte h]
  simp only [decode, h]
  cases c.reservedClear <;> simp

theorem decode_of_fieldUse_eq_none (h : fieldUse (c.w0.toNat % 256) = none) : decode c = .error .illegalOpcode := by
  rw [decode, fieldUse_eq_none_iff.1 h]

theorem decode_of_wellFormed_eq_false (h : fieldUse (c.w0.toNat % 256) ≠ none) (hw : c.wellFormed = false) :
    decode c = .error .reservedNonzero := by
  obtain ⟨op, hop⟩ := Option.ne_none_iff_exists'.1 (mt fieldUse_eq_none_iff.2 h)
  rw [decode_of_ofByte hop, hw, if_neg Bool.false_ne_true]

theorem exists_ofByte_of_wellFormed (hw : c.wellFormed = true) :
    ∃ op, Opcode.ofByte (c.w0.extractLsb' 0 8) = some op := by
  refine Option.ne_none_iff_exists'.1 fun h => ?_
  rw [wellFormed, fieldUse_eq_none_iff.2 h] at hw
  cases hw

/-! ### The encoder gives the decoded words back -/

@[simp] theorem toInstr_opcode (c : RawCommand) (op : Opcode) : (c.toInstr op).opcode = op := by
  cases op <;> rfl

/-- The fields that `op` does not use are 0 on both sides (30_encoding R102). -/
theorem toInstr_fields {op : Opcode} (h : c.mbzClear op = true) : (c.toInstr op).fields = (c.w1, c.w2, c.w3, c.w4) := by
  simp only [mbzClear, Bool.and_eq_true, Bool.or_eq_true, beq_iff_eq] at h
  obtain ⟨⟨h12, h3⟩, h4⟩ := h
  cases op <;> simp_all [toInstr, Instr.fields, Opcode.usesOperands, Opcode.usesW3, Opcode.usesN]

/-- W0 is OPC alone when RSV0 is 0 (30_encoding R101). -/
theorem zeroExtend_opc (h : c.w0.toNat / 256 = 0) : (c.w0.extractLsb' 0 8).zeroExtend 32 = c.w0 := by
  apply BitVec.eq_of_toNat_eq
  rw [BitVec.toNat_setWidth, opc_toNat]
  omega

theorem encode_toInstr {op : Opcode} (hop : Opcode.ofByte (c.w0.extractLsb' 0 8) = some op)
    (hr : c.reservedClear = true) (hm : c.mbzClear op = true) : encode (c.toInstr op) = c := by
  simp only [reservedClear_eq, Bool.and_eq_true, beq_iff_eq] at hr
  obtain ⟨⟨⟨h0, h5⟩, h6⟩, h7⟩ := hr
  simp only [encode, toInstr_opcode, toInstr_fields hm, ← Opcode.ofByte_eq_some_iff.1 hop, zeroExtend_opc h0]
  cases c
  simp only at h5 h6 h7
  rw [h5, h6, h7]

/-- A well-formed raw command is the encoding of the command it decodes to (30_encoding R106). -/
theorem exists_decode_of_wellFormed (hw : c.wellFormed = true) : ∃ i, decode c = .ok i ∧ encode i = c := by
  obtain ⟨op, hop⟩ := exists_ofByte_of_wellFormed hw
  refine ⟨c.toInstr op, by rw [decode_of_ofByte hop, if_pos hw], ?_⟩
  rw [wellFormed_of_ofByte hop, Bool.and_eq_true] at hw
  exact encode_toInstr hop hw.1 hw.2

end RawCommand

end Sys2Proof

namespace Sys2Proof.Machine

/-! ### The engine's turn on a fetch that traps -/

theorem engineTurn_of_trap {s : State} {code : FaultCode} {addr : Word} (hr : s.running = true)
    (hf : s.fetch = .trap code addr) : engineTurn s = .next (s.raiseFault code addr) := by
  simp only [engineTurn, hr, if_true, hf]

end Sys2Proof.Machine

namespace Sys2Proof.Claims
open Sys2Proof.Machine

/-- A raised fault writes nothing: its frame is the whole memory (60_exceptions R230, R232). -/
theorem faulted_raiseFault (s : State) (code : FaultCode) (addr : Word) :
    Faulted s (s.raiseFault code addr) code.byte addr 0 0 := by
  constructor <;> simp

/-- The engine's turn is the step, whether or not it stands in the schedule (entry 4). -/
theorem EngineTurnIn.step_eq {s u : State} (h : EngineTurnIn s u) : step s = engineTurn u := by
  obtain ⟨hs, rfl⟩ | ⟨rest, hs, rfl⟩ := h
  · exact step_of_empty hs
  · exact step_of_schedule hs

section
variable {s u : State} {c : RawCommand}

theorem CommandAt.loadLanes {m : Memory} {a : Nat} (h : CommandAt m a c) : m.loadLanes a 8 = .ok c.words := by
  obtain ⟨h0, h1, h2, h3, h4, h5, h6, h7⟩ := h
  refine m.loadLanes_of_readWord (lane c.words) 8 a fun k hk => ?_
  match k, hk with
  | 0, _ => exact h0
  | 1, _ => exact h1
  | 2, _ => exact h2
  | 3, _ => exact h3
  | 4, _ => exact h4
  | 5, _ => exact h5
  | 6, _ => exact h6
  | 7, _ => exact h7

theorem FetchReads.running (h : FetchReads s c) : s.running = true := s.running_iff.2 ⟨h.busy, h.operating⟩

theorem FetchReads.fetch_of_error {e : DecodeError} (h : FetchReads s c) (he : decode c = .error e) :
    s.fetch = .trap (faultOfDecode e) s.cmdPtr := by
  rw [State.fetch_decodes h.aligned h.inRange h.clean h.duty h.words.loadLanes, he]

/-- What the decoder rejects is the fault of its error, at CMD_PTR (40_control R130). -/
theorem FetchReads.exists_faulted {e : DecodeError} (h : FetchReads u c) (hs : EngineTurnIn s u)
    (he : decode c = .error e) : ∃ t, step s = .next t ∧ Faulted u t (faultOfDecode e).byte u.cmdPtr 0 0 :=
  ⟨_, hs.step_eq.trans (engineTurn_of_trap h.running (h.fetch_of_error he)), faulted_raiseFault u _ _⟩

end

/-! ### The obligations -/

/-- Settles O3, by the decoder's three answers and the fault of each rejection. -/
theorem decoderRejectsInOrder : Obligations.DecoderRejectsInOrder := by
  intro s u c hs hf
  exact ⟨fun hn => hf.exists_faulted hs (RawCommand.decode_of_fieldUse_eq_none hn),
    fun hn hw => hf.exists_faulted hs (RawCommand.decode_of_wellFormed_eq_false hn hw),
    RawCommand.exists_decode_of_wellFormed⟩

/-- Settles O4, by evaluating the encoder and the decoder on the rows of R110. -/
theorem specEncodingsDecode : Obligations.SpecEncodingsDecode :=
  ⟨⟨rfl, rfl⟩, ⟨rfl, rfl⟩, ⟨rfl, rfl⟩, ⟨rfl, rfl⟩, rfl⟩

end Sys2Proof.Claims
end

section
/-! PROOFS. What a command does to the registers: completion or fault entry (40_control R131, 60_exceptions R230). -/

namespace Sys2Proof.Machine

variable {i : Instr} {s t : State}

/-- The faults of an executing command are those of 40_control R132 and 20_memory R89: codes 0x05 to 0x07 of 60_exceptions R231. -/
theorem FaultCode.byte_of_operand_or_bus {code : FaultCode}
    (h : code = .busError ∨ code = .operandMisaligned ∨ code = .operandRange) :
    code.byte = 0x05 ∨ code.byte = 0x06 ∨ code.byte = 0x07 := by
  obtain rfl | rfl | rfl := h
  · exact .inr (.inr rfl)
  · exact .inl rfl
  · exact .inr (.inl rfl)

theorem ExecResult.keeps_irqEn_platform_host (h : ExecResult i s t) :
    t.irqEn = s.irqEn ∧ t.platform = s.platform ∧ t.schedule = s.schedule ∧ t.phase = s.phase ∧
      t.hostRead = s.hostRead ∧ t.runTouched = s.runTouched ∧ t.unseenWrote = s.unseenWrote ∧ t.hostWrote = s.hostWrote := by
  cases h with
  | completed m k r ht => subst ht; simp
  | halted hi ht => subst ht; simp
  | faulted m code addr k r ht => subst ht; simp

theorem ExecResult.registers_completed_or_faulted (h : ExecResult i s t) :
    (t.cmdCount = s.cmdCount + 1 ∧ t.cmdPtr = s.cmdPtr + 32 ∧ t.err = s.err ∧ t.errCode = s.errCode ∧
        t.errAddr = s.errAddr ∧
        (i = .halt → t.busy = false ∧ t.done = true) ∧ (i ≠ .halt → t.busy = s.busy ∧ t.done = s.done)) ∨
      (t.cmdCount = s.cmdCount ∧ t.cmdPtr = s.cmdPtr ∧ t.err = true ∧ t.busy = false ∧ t.done = s.done ∧
        (t.errCode = 0x05 ∨ t.errCode = 0x06 ∨ t.errCode = 0x07)) := by
  cases h with
  | completed m k r ht hi => subst ht; left; simp [hi]
  | halted hi ht => subst ht; left; simp [hi]
  | faulted m code addr k r ht ho hm hc =>
    subst ht
    exact .inr ⟨rfl, rfl, rfl, rfl, rfl, FaultCode.byte_of_operand_or_bus (hc.imp_right And.left)⟩

end Sys2Proof.Machine

namespace Sys2Proof.Claims
open Sys2Proof.Machine

/-- Settles O14, by the cases of what a command that answers a next state did: completed, halted or raised a fault. -/
theorem registersChangeOnlyByCompletionOrFault : Obligations.RegistersChangeOnlyByCompletionOrFault :=
  fun _ _ _ h => ⟨(exec_result h).keeps_irqEn_platform_host, (exec_result h).registers_completed_or_faulted⟩

end Sys2Proof.Claims
end

section
/-! PROOFS. What a completed staged command leaves in its output, and the products up to the bits of NaNs (20_memory R77;
41_multiply R152, R154, R155). -/

namespace Sys2Proof.Machine

/-! ### A staged command that moved CMD_PTR -/

/-- Only completion moves CMD_PTR, so the inputs were loaded and the result was stored (40_control R131, 60_exceptions R230). -/
theorem staged_stored {srcs : List Operand} {dst : Operand} {f : (Nat → Word) → List Lanes → Lanes} {s t : State}
    (h : staged srcs dst f s = .next t) (hp : t.cmdPtr ≠ s.cmdPtr) :
    ∃ vs, loadAll s.mem srcs = .ok vs ∧
      t.mem = s.mem.storeLanes dst.base.toNat (storedLanes s dst.kind (f s.nans vs)) := by
  rcases staged_cases srcs dst f s with ⟨code, addr, -, he⟩ | ⟨-, ⟨addr, -, he⟩ | ⟨-, ⟨x, -, he⟩ | ⟨vs, hl, he⟩⟩⟩ <;>
    rw [he] at h <;> cases h
  · exact absurd rfl hp
  · exact absurd rfl hp
  · cases hw : dst.writeError s.platform with
    | true => exact absurd (by rw [State.storeResult_error hw]; rfl) hp
    | false => exact ⟨vs, hl, by rw [State.storeResult_clean hw]; rfl⟩

theorem loadAll_pair_ok {m : Memory} {o o' : Operand} {vs : List Lanes} (h : loadAll m [o, o'] = .ok vs) :
    ∃ u v, o.load m = .ok u ∧ o'.load m = .ok v ∧ vs = [u, v] := by
  simp only [loadAll] at h
  cases hu : o.load m with
  | error x => simp [hu] at h
  | ok u =>
    cases hv : o'.load m with
    | error x => simp [hu, hv] at h
    | ok v =>
      simp only [hu, hv] at h
      cases h
      exact ⟨u, v, rfl, rfl, rfl⟩

theorem length_le_storedLanes_length (s : State) (k : OperandKind) (result : Lanes) :
    result.length ≤ (storedLanes s k result).length := by
  unfold storedLanes
  split
  · simp
  · exact Nat.le_refl _

/-- The output lanes of a completed command with two inputs are its function of the loaded inputs. -/
theorem stagedBinary_readWord {srcA srcB dst : Operand} {f : (Nat → Word) → Lanes → Lanes → Lanes} {s t : State}
    (h : stagedBinary srcA srcB dst f s = .next t) (hp : t.cmdPtr ≠ s.cmdPtr) :
    ∃ u v, srcA.load s.mem = .ok u ∧ srcB.load s.mem = .ok v ∧
      ∀ k < (f s.nans u v).length, t.mem.readWord (dst.base.toNat + 4 * k) = some (lane (f s.nans u v) k) := by
  obtain ⟨vs, hl, hm⟩ := staged_stored h hp
  obtain ⟨u, v, hu, hv, rfl⟩ := loadAll_pair_ok hl
  refine ⟨u, v, hu, hv, fun k hk => ?_⟩
  have hk' := Nat.lt_of_lt_of_le hk (length_le_storedLanes_length s dst.kind _)
  rw [hm]
  exact (Memory.storeLanes_readWord_inside _ _ _ k hk').trans (congrArg some (lane_storedLanes s dst.kind hk))

/-! ### The lanes of the products -/

theorem lane_product44 (draw : Nat → Word) (a b : Lanes) {i j : Nat} (hi : i < 4) (hj : j < 4) :
    lane (product44 draw a b) (4 * i + j) =
      sumOfProducts4 draw (4 * (4 * i + j)) (fun k => elem44 a i k) (fun k => elem44 b k j) := by
  rw [product44, lanes44, lane_map_range _ (by omega), show (4 * i + j) / 4 = i by omega,
    show (4 * i + j) % 4 = j by omega]

theorem lane_product44V (draw : Nat → Word) (a x : Lanes) {i : Nat} (hi : i < 4) :
    lane (product44V draw a x) i = sumOfProducts4 draw (4 * i) (fun k => lane x k) (fun k => elem44 a i k) :=
  lane_map_range _ hi

end Sys2Proof.Machine

namespace Sys2Proof.Claims
open Sys2Proof.Machine

theorem Completed.cmdPtr_ne {s t : State} {d len : Nat} (h : Completed s t d len) : t.cmdPtr ≠ s.cmdPtr := by
  rw [h.cmdPtr]
  bv_omega

/-- A loaded lane is the word memory holds there. -/
theorem Holds.lane_load {m : Memory} {o : Operand} {ws : Lanes} {w : Nat → Word} {n k : Nat}
    (h : Holds m o.base.toNat n w) (hl : o.load m = .ok ws) (hn : k < n) (hk : k < o.kind.valueLanes) :
    lane ws k = w k :=
  Option.some.inj (((Operand.load_ok hl).2 k hk).symm.trans (h k hn))

/-! ### Operations on inputs that agree up to the bits of NaNs (00_scope R11, R13, R16) -/

theorem isNaN_of_isQuietNaN {x : Word} (h : isQuietNaN x = true) : IsNaN x := by
  have hx : (x.extractLsb' 22 9).toNat = 0x1FF := congrArg BitVec.toNat (beq_iff_eq.1 h)
  rw [BitVec.extractLsb'_toNat, Nat.shiftRight_eq_div_pow] at hx
  unfold IsNaN pattern
  omega

theorem SameOrNaN.float32_eq {x y : Word} (h : SameOrNaN x y) : float32 x = float32 y := by
  rcases h with rfl | ⟨hx, hy⟩
  · rfl
  · rw [float32_eq_nan_iff.2 (isNaN_of_isQuietNaN hx), float32_eq_nan_iff.2 (isNaN_of_isQuietNaN hy)]

theorem sameOrNaN_quietNaN (draw draw' : Word) : SameOrNaN (quietNaN draw) (quietNaN draw') :=
  .inr ⟨quietNaN_quiet draw, quietNaN_quiet draw'⟩

theorem exactProduct_comm (a b : Word) : exactProduct a b = exactProduct b a := by
  unfold exactProduct
  cases float32 a <;> cases float32 b <;> simp [Bool.xor_comm, Nat.mul_comm]

/-- Two products of the same two words, in either order, differ in their draws only. -/
theorem sameOrNaN_fmul_swap (draw draw' a b : Word) : SameOrNaN (fmul draw a b) (fmul draw' b a) := by
  unfold fmul
  rw [exactProduct_comm b a]
  cases exactProduct a b with
  | nan => exact sameOrNaN_quietNaN draw draw'
  | inf s => exact .inl rfl
  | fin s m => exact .inl rfl

/-- Two sums of the same exact values differ in their draws only. -/
theorem sameOrNaN_sumWord (draw draw' : Word) (d : Nat) (v w : Float32Value) :
    SameOrNaN (sumWord draw d v w) (sumWord draw' d v w) := by
  by_cases h : InvalidSum v w
  · rw [sumWord_of_invalid h, sumWord_of_invalid h]
    exact sameOrNaN_quietNaN draw draw'
  · left
    cases v with
    | nan => exact absurd (.inl rfl) h
    | inf s => rw [sumWord_inf_left h, sumWord_inf_left h]
    | fin s m =>
      cases w with
      | nan => exact absurd (.inr (.inl rfl)) h
      | inf t => rfl
      | fin t n => rfl

theorem SameOrNaN.ffma_swap {c c' : Word} (h : SameOrNaN c c') (draw draw' a b : Word) :
    SameOrNaN (ffma draw a b c) (ffma draw' b a c') := by
  rw [ffma_eq_sumWord, ffma_eq_sumWord, exactProduct_comm b a, h.float32_eq]
  exact sameOrNaN_sumWord draw draw' _ _ _

/-- fmul and ffma do not tell their two multiplicands apart, so neither does a chain of them. -/
theorem sameOrNaN_sumOfProducts4_swap (draw draw' : Nat → Word) (op op' : Nat) {x y z : Nat → Word}
    (h : ∀ k < 4, y k = z k) : SameOrNaN (sumOfProducts4 draw op x y) (sumOfProducts4 draw' op' z x) := by
  unfold sumOfProducts4
  rw [h 0 (by decide), h 1 (by decide), h 2 (by decide), h 3 (by decide)]
  exact (((sameOrNaN_fmul_swap _ _ _ _).ffma_swap _ _ _ _).ffma_swap _ _ _ _).ffma_swap _ _ _ _

/-- 41_multiply R155, of the functions MUL44 and MUL44V apply to their staged lanes. -/
theorem sameOrNaN_product44_product44V (draw draw' : Nat → Word) (a : Lanes) {b x : Lanes}
    (h : ∀ k < 4, elem44 b k 0 = lane x k) {i : Nat} (hi : i < 4) :
    SameOrNaN (lane (product44 draw a b) (4 * i)) (lane (product44V draw' a x) i) := by
  rw [← Nat.add_zero (4 * i), lane_product44 draw a b hi (by decide), lane_product44V draw' a x hi]
  exact sameOrNaN_sumOfProducts4_swap _ _ _ _ h

/-- Settles O41, by the two chains of operations on the same loaded lanes. -/
theorem matrixVectorIsAColumnOfTheProduct : Obligations.MatrixVectorIsAColumnOfTheProduct := by
  intro s t t' d d' a b x v w ht ht' hc hc' hv hw hvw i hi
  obtain ⟨la, lb, ha, hb, hy⟩ :=
    stagedBinary_readWord (srcA := ⟨a, .m44⟩) (srcB := ⟨b, .m44⟩) (dst := ⟨d, .m44⟩) (f := product44) ht hc.cmdPtr_ne
  obtain ⟨la', lx, ha', hx, hy'⟩ :=
    stagedBinary_readWord (srcA := ⟨a, .m44⟩) (srcB := ⟨x, .v4⟩) (dst := ⟨d', .v4⟩) (f := product44V) ht' hc'.cmdPtr_ne
  obtain rfl : la = la' := Except.ok.inj (ha.symm.trans ha')
  have hcol : ∀ k < 4, elem44 lb k 0 = lane lx k := fun k hk =>
    calc lane lb (4 * k)
        = v (4 * k) := hv.lane_load (o := ⟨b, .m44⟩) hb (by omega) (show 4 * k < 16 by omega)
      _ = w k := hvw k hk
      _ = lane lx k := (hw.lane_load (o := ⟨x, .v4⟩) hx hk hk).symm
  refine ⟨_, _, ?_, hy' i (by simpa using hi), sameOrNaN_product44_product44V s.nans s.nans la hcol hi⟩
  rw [show 16 * i = 4 * (4 * i) by omega]
  exact hy (4 * i) (by rw [product44_length]; omega)

end Sys2Proof.Claims
end

section
/-! PROOFS. A staged command whose operands are accessible and free of bus errors completes with its result in the output
(20_memory R73, R74, R77; 40_control R131, R132); the next command then finds it there. -/

namespace Sys2Proof.Claims
open Sys2Proof.Machine

/-- A source operand that can be read, with the values `u`, at the alignment and lanes of its kind (20_memory R72). -/
def ReadableOperand (s : State) (o : Operand) (u : Nat → Word) : Prop :=
  Source s o.base o.kind.align o.kind.footprintLanes o.kind.valueLanes u

/-- Source operands that can each be read, with the values of each in turn. -/
inductive ReadableOperands (s : State) : List Operand → List (Nat → Word) → Prop
  | nil : ReadableOperands s [] []
  | cons {o : Operand} {u : Nat → Word} {srcs : List Operand} {us : List (Nat → Word)} (head : ReadableOperand s o u)
      (tail : ReadableOperands s srcs us) : ReadableOperands s (o :: srcs) (u :: us)

/-- An output operand that can be written, at the alignment and lanes of its kind (20_memory R72). -/
def WritableOperand (s : State) (o : Operand) : Prop := Target s o.base o.kind.align o.kind.footprintLanes

/-- The lanes a load of an operand with the values `u` stages (20_memory R73). -/
def stagedLanes (o : Operand) (u : Nat → Word) : Lanes := (List.range o.kind.valueLanes).map u

theorem lane_stagedLanes {o : Operand} (u : Nat → Word) {k : Nat} (h : k < o.kind.valueLanes) :
    lane (stagedLanes o u) k = u k :=
  lane_map_range u h

section
variable {s t : State}

theorem ReadableOperand.readError {o : Operand} {u : Nat → Word} (h : ReadableOperand s o u) :
    o.readError s.platform = false :=
  (lanesError_false_iff _ _ _ _).2 h.clean

theorem WritableOperand.writeError {o : Operand} (h : WritableOperand s o) : o.writeError s.platform = false :=
  (lanesError_false_iff _ _ _ _).2 h.clean

theorem ReadableOperand.load {o : Operand} {u : Nat → Word} (h : ReadableOperand s o u) :
    o.load s.mem = .ok (stagedLanes o u) :=
  Operand.load_of_readWord u h.holds

variable {srcs : List Operand} {us : List (Nat → Word)}

theorem exists_values_of_mem_sources (h : ReadableOperands s srcs us) :
    ∀ o ∈ srcs, ∃ u, ReadableOperand s o u := by
  induction h with
  | nil => simp
  | cons ho _ ih => exact List.forall_mem_cons.2 ⟨⟨_, ho⟩, ih⟩

theorem loadAll_of_sources (h : ReadableOperands s srcs us) :
    loadAll s.mem srcs = .ok (List.zipWith stagedLanes srcs us) := by
  induction h with
  | nil => rfl
  | cons ho _ ih => simp only [loadAll, ho.load, ih, List.zipWith_cons_cons]

theorem sourceError_of_sources (h : ReadableOperands s srcs us) : sourceError s srcs = none := by
  rw [sourceError_none_iff]
  intro o ho
  obtain ⟨u, hu⟩ := exists_values_of_mem_sources h o ho
  exact hu.readError

theorem checkOperands_of_sources_of_target {dst : Operand} (h : ReadableOperands s srcs us)
    (hd : WritableOperand s dst) : checkOperands s.platform.memSize (srcs ++ [dst]) = none := by
  rw [checkOperands_none_iff]
  intro o ho
  rcases List.mem_append.1 ho with ho | ho
  · obtain ⟨u, hu⟩ := exists_values_of_mem_sources h o ho
    exact hu.fits
  · obtain rfl := List.mem_singleton.1 ho
    exact hd.fits

/-- Storing a result that fills the output's lanes, and completing, keeps all but the output (40_control R131). -/
theorem completed_of_storeLanes (dst : Operand) {result : Lanes} (hlen : result.length = dst.kind.valueLanes) :
    Completed s
      ({ s with mem := s.mem.storeLanes dst.base.toNat (storedLanes s dst.kind result) }.complete).tick
      dst.base.toNat dst.kind.footprint := by
  constructor
  case memory =>
    intro x hx
    refine Memory.storeLanes_read_outside _ _ _ _ ?_
    rwa [storedLanes_length hlen]
  all_goals rfl

/-- What a staged command leaves: it completes, the lanes its output uses hold its function of the staged inputs, and the
padding lane of an M33, where there is one, holds some value (00_scope R22). -/
theorem exists_completed_of_isStaged {i : Instr} {dst : Operand} {f : (Nat → Word) → List Lanes → Lanes}
    (hi : IsStaged i srcs dst f) (h : ReadableOperands s srcs us) (hd : WritableOperand s dst) :
    ∃ t, exec i s = .next t ∧ Completed s t dst.base.toNat dst.kind.footprint ∧
      Holds t.mem dst.base.toNat dst.kind.valueLanes (lane (f s.nans (List.zipWith stagedLanes srcs us))) ∧
      ∀ k < dst.kind.footprintLanes, (t.mem.readWord (dst.base.toNat + 4 * k)).isSome := by
  have hlen := hi.length s.nans (List.zipWith stagedLanes srcs us)
  have hword := fun k hk => Memory.storeLanes_readWord_inside
    (storedLanes s dst.kind (f s.nans (List.zipWith stagedLanes srcs us))) s.mem dst.base.toNat k hk
  rw [storedLanes_length hlen] at hword
  refine ⟨_, (hi.meaning s).trans (staged_completes f (checkOperands_of_sources_of_target h hd)
    (sourceError_of_sources h) (loadAll_of_sources h) hd.writeError), completed_of_storeLanes dst hlen, ?_, ?_⟩
  · intro k hk
    exact (hword k (Nat.lt_of_lt_of_le hk dst.kind.valueLanes_le)).trans
      (congrArg some (lane_storedLanes s dst.kind (hlen ▸ hk)))
  · exact fun k hk => Option.isSome_of_eq_some (hword k hk)

/-! ### The operands of the next command, whose platform is the same -/

theorem Holds.congr {m : Memory} {a n : Nat} {v w : Nat → Word} (h : Holds m a n v) (hvw : ∀ k < n, v k = w k) :
    Holds m a n w :=
  fun k hk => (h k hk).trans (congrArg some (hvw k hk))

variable {d len align lanes : Nat} {a : Word}

theorem Completed.fits {n : Nat} (h : Completed s t d len) (hf : Fits s a align n) : Fits t a align n := by
  unfold Fits
  rwa [h.platform]

theorem Completed.noBusError {n : Nat} {acc : Access} (h : Completed s t d len) (hn : NoBusError s a n acc) :
    NoBusError t a n acc := by
  unfold NoBusError
  rwa [h.platform]

theorem Completed.target (h : Completed s t d len) (ht : Target s a align lanes) : Target t a align lanes :=
  ⟨h.fits ht.fits, h.noBusError ht.clean⟩

/-- An output that can be read back is a source of the next command, with the values it was given. -/
theorem Completed.source_of_target {values : Nat} {v : Nat → Word} (h : Completed s t d len)
    (ht : Target s a align lanes) (hr : NoBusError s a lanes .read) (hv : Holds t.mem a.toNat values v) :
    Source t a align lanes values v :=
  ⟨(h.target ht).fits, h.noBusError hr, hv⟩

end

end Sys2Proof.Claims
end

section
/-! PROOFS. The transposes as permutations of lanes, and the permutations as their own inverses (42_transpose R170 to
R174). -/

namespace Sys2Proof.Machine

theorem isStaged_trn33 (d a : Word) :
    IsStaged (.trn33 d a) [⟨a, .m33⟩] ⟨d, .m33⟩ fun _ vs => transpose33 (vs.getD 0 []) :=
  ⟨rfl, fun _ => rfl, fun _ _ => transpose33_length _⟩

theorem isStaged_trn44 (d a : Word) :
    IsStaged (.trn44 d a) [⟨a, .m44⟩] ⟨d, .m44⟩ fun _ vs => transpose44 (vs.getD 0 []) :=
  ⟨rfl, fun _ => rfl, fun _ _ => transpose44_length _⟩

theorem lane_transpose33 (m : Lanes) {l : Nat} (h : l < 9) : lane (transpose33 m) l = lane m (3 * (l % 3) + l / 3) :=
  lane_map_range _ h

theorem lane_transpose44 (m : Lanes) {l : Nat} (h : l < 16) : lane (transpose44 m) l = lane m (4 * (l % 4) + l / 4) :=
  lane_map_range _ h

end Sys2Proof.Machine

namespace Sys2Proof.Claims
open Sys2Proof.Machine

/-- The table of 42_transpose R171 is the index transpose of R170. -/
theorem trn33_table_eq : ∀ l < 9, [0, 3, 6, 1, 4, 7, 2, 5, 8].getD l 0 = 3 * (l % 3) + l / 3 := by decide

/-- The lane map of a 4×4 transpose is its own inverse (42_transpose R173, R174). -/
theorem trn44_source_involutive {l : Nat} (h : l < 16) :
    4 * ((4 * (l % 4) + l / 4) % 4) + (4 * (l % 4) + l / 4) / 4 = l := by
  omega

/-- The lane map of a 3×3 transpose is its own inverse (42_transpose R171, R174). -/
theorem trn33_table_involutive :
    ∀ l < 9, [0, 3, 6, 1, 4, 7, 2, 5, 8].getD ([0, 3, 6, 1, 4, 7, 2, 5, 8].getD l 0) 0 = l := by decide

/-- Settles O28, by the lanes of the staged transpose and the table of R171. -/
theorem trn33MovesLanes : Obligations.Trn33MovesLanes := by
  intro s d a u hs hd
  obtain ⟨t, ht, hc, hv, hp⟩ := exists_completed_of_isStaged (isStaged_trn33 d a) (.cons hs .nil) hd
  refine ⟨t, ht, hc, hv.congr fun l (hl : l < 9) => ?_, hp 9 (show 9 < 10 by decide)⟩
  have hsrc : 3 * (l % 3) + l / 3 < 9 := by omega
  calc lane (transpose33 (stagedLanes ⟨a, .m33⟩ u)) l
      = lane (stagedLanes ⟨a, .m33⟩ u) (3 * (l % 3) + l / 3) := lane_transpose33 _ hl
    _ = u (3 * (l % 3) + l / 3) := lane_stagedLanes u hsrc
    _ = u ([0, 3, 6, 1, 4, 7, 2, 5, 8].getD l 0) := congrArg u (trn33_table_eq l hl).symm

/-- Settles O29, by the lanes of the staged transpose. -/
theorem trn44MovesLanes : Obligations.Trn44MovesLanes := by
  intro s d a u hs hd
  obtain ⟨t, ht, hc, hv, -⟩ := exists_completed_of_isStaged (isStaged_trn44 d a) (.cons hs .nil) hd
  refine ⟨t, ht, hc, hv.congr fun l (hl : l < 16) => ?_⟩
  have hsrc : 4 * (l % 4) + l / 4 < 16 := by omega
  calc lane (transpose44 (stagedLanes ⟨a, .m44⟩ u)) l
      = lane (stagedLanes ⟨a, .m44⟩ u) (4 * (l % 4) + l / 4) := lane_transpose44 _ hl
    _ = u (4 * (l % 4) + l / 4) := lane_stagedLanes u hsrc

/-- Settles O40: the first output is a source of the second command, and the two lane maps cancel. -/
theorem transposeTwiceIsIdentity : Obligations.TransposeTwiceIsIdentity := by
  constructor
  · intro s e d a u hs hd hr he
    obtain ⟨t, ht, hc, hv⟩ := trn44MovesLanes s d a u hs hd
    obtain ⟨t', ht', -, hv'⟩ := trn44MovesLanes t e d _ (hc.source_of_target hd hr hv) (hc.target he)
    exact ⟨t, t', ht, ht', hv'.congr fun l hl => congrArg u (trn44_source_involutive hl)⟩
  · intro s e d a u hs hd hr he
    obtain ⟨t, ht, hc, hv, -⟩ := trn33MovesLanes s d a u hs hd
    obtain ⟨t', ht', -, hv', hp⟩ := trn33MovesLanes t e d _ (hc.source_of_target hd hr hv) (hc.target he)
    exact ⟨t, t', ht, ht', hv'.congr fun l hl => congrArg u (trn33_table_involutive l hl), hp⟩

end Sys2Proof.Claims
end

section
/-! PROOFS. What a completed DOTB leaves in each element of its output, and the dot product up to the bits of NaNs (44_dot R201
to R203). -/

namespace Sys2Proof.Machine

/-- Lanes load the same from two memories that agree on their words. -/
theorem Memory.loadLanes_congr {m m' : Memory} :
    ∀ {n a : Nat}, (∀ k < n, m.readWord (a + 4 * k) = m'.readWord (a + 4 * k)) → m.loadLanes a n = m'.loadLanes a n
  | 0, _, _ => rfl
  | n + 1, a, h => by
    have htail : m.loadLanes (a + 4) n = m'.loadLanes (a + 4) n := Memory.loadLanes_congr fun k hk => by
      rw [show a + 4 + 4 * k = a + 4 * (k + 1) by omega]
      exact h (k + 1) (by omega)
    have hhead : m.readWord a = m'.readWord a := h 0 n.succ_pos
    simp only [Memory.loadLanes, hhead, htail]

/-- Where the output array does not overlap the vectors, the loop leaves in each element it has yet to write the dot product with
that element's vector, as it was before the loop. -/
theorem dotbLoop_readWord (draw : Nat → Word) (a : Lanes) {vectors dst : Nat} :
    ∀ {count i : Nat} {m m' : Memory}, dotbLoop draw a vectors dst count i m = .ok m' →
      dst + 4 * (i + count) ≤ vectors ∨ vectors + 16 * (i + count) ≤ dst →
      ∀ j, i ≤ j → j < i + count →
        ∃ v, m.loadLanes (vectors + 16 * j) 4 = .ok v ∧ m'.readWord (dst + 4 * j) = some (dot4 draw (7 * j) a v) := by
  intro count
  induction count with
  | zero => intro i m m' _ _ j _ _; omega
  | succ count ih =>
    intro i m m' h hsep j hij hj
    simp only [dotbLoop] at h
    split at h
    · cases h
    · next v hv =>
      rcases Nat.eq_or_lt_of_le hij with rfl | hij
      · have hkept := dotbLoop_read_outside _ _ _ _ _ _ _ h
        exact ⟨v, hv, (Memory.readWord_congr fun k hk => hkept _ (by omega)).trans (Memory.readWord_writeWord_same ..)⟩
      · obtain ⟨u, hu, hw⟩ := ih h (by omega) j hij (by omega)
        exact ⟨u, (Memory.loadLanes_congr fun k hk => (Memory.readWord_writeWord_outside _ _ (by omega)).symm).trans hu, hw⟩

section
variable {d v n : Word} {s t : State}

/-- With no read error, elements that move CMD_PTR meet no write error either: the loop ran over all of them (44_dot R202). -/
theorem dotbElements_stored {u : Lanes} (hread : firstElementError s.platform v.toNat 16 4 n.toNat .read = none)
    (h : dotbElements d v n u s = .next t) (hp : t.cmdPtr ≠ s.cmdPtr) :
    dotbLoop s.nans u v.toNat d.toNat n.toNat 0 s.mem = .ok t.mem := by
  unfold dotbElements at h
  split at h
  · cases h
  · next m hloop =>
    split at h
    · next hwrite =>
      cases h
      rwa [dotbReach_clean hread hwrite] at hloop
    · cases h
      exact absurd rfl hp

/-- Only completion moves CMD_PTR, so the resident vector was loaded and the loop ran over every element (44_dot R202). -/
theorem dotb_stored {a : Word} (hn : n ≠ 0) (h : exec (.dotb d a v n) s = .next t) (hp : t.cmdPtr ≠ s.cmdPtr) :
    ∃ u, Operand.load s.mem ⟨a, .v4⟩ = .ok u ∧ dotbLoop s.nans u v.toNat d.toNat n.toNat 0 s.mem = .ok t.mem := by
  have h' : execDotb d a v n s = .next t := h
  unfold execDotb at h'
  rw [if_neg hn] at h'
  split at h'
  · cases h'; exact absurd rfl hp
  · split at h'
    · cases h'; exact absurd rfl hp
    · split at h'
      · cases h'; exact absurd rfl hp
      · next hread =>
        split at h'
        · cases h'
        · next u hu => exact ⟨u, hu, dotbElements_stored hread h' hp⟩

end

end Sys2Proof.Machine

namespace Sys2Proof.Claims
open Sys2Proof.Machine

theorem fmul_comm (draw a b : Word) : fmul draw a b = fmul draw b a := by
  unfold fmul
  rw [exactProduct_comm]

/-- Two products of the same two words differ in their draws only. -/
theorem sameOrNaN_fmul (draw draw' a b : Word) : SameOrNaN (fmul draw a b) (fmul draw' a b) :=
  fmul_comm draw' b a ▸ sameOrNaN_fmul_swap draw draw' a b

/-- Sums of words that agree up to the bits of NaNs agree so too. -/
theorem SameOrNaN.fadd {x x' y y' : Word} (hx : SameOrNaN x x') (hy : SameOrNaN y y') (draw draw' : Word) :
    SameOrNaN (fadd draw x y) (fadd draw' x' y') := by
  rw [fadd_eq_sumWord, fadd_eq_sumWord, hx.float32_eq, hy.float32_eq]
  exact sameOrNaN_sumWord draw draw' _ _ _

/-- Two dot products of the same lanes differ in their draws only (44_dot R201). -/
theorem sameOrNaN_dot4 (draw draw' : Nat → Word) (op op' : Nat) (a b : Lanes) :
    SameOrNaN (dot4 draw op a b) (dot4 draw' op' a b) :=
  (((sameOrNaN_fmul _ _ _ _).fadd (sameOrNaN_fmul _ _ _ _) _ _).fadd (sameOrNaN_fmul _ _ _ _) _ _).fadd
    (sameOrNaN_fmul _ _ _ _) _ _

/-- Settles O45: the vector DOTB reads for element i is still the one DOT reads. -/
theorem dotbAgreesWithDot : Obligations.DotbAgreesWithDot := by
  intro s t t' d d' a v n b i hi ht hp hb hsep ht' hp'
  have hn : n ≠ 0 := by rintro rfl; simp at hi
  obtain ⟨la, ha, hloop⟩ := dotb_stored hn ht hp
  obtain ⟨lv, hv, hy⟩ := dotbLoop_readWord s.nans la hloop (by rwa [Nat.zero_add]) i (Nat.zero_le i) (by rwa [Nat.zero_add])
  obtain ⟨la', lb, ha', hlb, hy'⟩ := stagedBinary_readWord (srcA := ⟨a, .v4⟩) (srcB := ⟨b, .v4⟩) (dst := ⟨d', .f32⟩)
    (f := fun draw u v => [dot4 draw 0 u v]) ht' hp'
  obtain rfl : la = la' := Except.ok.inj (ha.symm.trans ha')
  have hlb' : s.mem.loadLanes (v.toNat + 16 * i) 4 = .ok lb := hb ▸ hlb
  obtain rfl : lv = lb := Except.ok.inj (hv.symm.trans hlb')
  exact ⟨_, _, hy, hy' 0 Nat.one_pos, sameOrNaN_dot4 s.nans s.nans (7 * i) 0 la lv⟩

end Sys2Proof.Claims
end

section
/-! PROOFS. Addition in either order, and the adds with their inputs swapped (00_scope R12; 45_add R210 to R216). -/

namespace Sys2Proof.Machine

theorem lane_addLanes (draw : Nat → Word) (a b : Lanes) {n l : Nat} (h : l < n) :
    lane (addLanes n draw a b) l = fadd (draw l) (lane a l) (lane b l) :=
  lane_map_range _ h

end Sys2Proof.Machine

namespace Sys2Proof.Claims
open Sys2Proof.Machine

/-- With both magnitudes in one unit, as in fadd, the exact sum does not tell its two terms apart (00_scope R12). -/
theorem sumWord_one_comm (draw : Word) (v w : Float32Value) : sumWord draw 1 v w = sumWord draw 1 w v := by
  cases v with
  | nan => cases w <;> rfl
  | inf s =>
    cases w with
    | nan | fin => rfl
    | inf t =>
      by_cases h : s = t
      · rw [h]
      · exact (if_neg h).trans (if_neg (Ne.symm h)).symm
  | fin s m =>
    cases w with
    | nan | inf => rfl
    | fin t n => simp only [sumWord, Nat.mul_one, Bool.and_comm s t, Int.add_comm (signed s m)]

theorem fadd_comm (draw a b : Word) : fadd draw a b = fadd draw b a := by
  rw [fadd_eq_sumWord, fadd_eq_sumWord, sumWord_one_comm]

/-- Two sums of the same two words, in either order, differ in their draws only. -/
theorem sameOrNaN_fadd_swap (draw draw' a b : Word) : SameOrNaN (fadd draw a b) (fadd draw' b a) :=
  fadd_comm draw' a b ▸ SameOrNaN.fadd (.inl rfl) (.inl rfl) draw draw'

/-- 45_add R216, of two completed adds of `n` lanes: both load the same two inputs, and add them in either order. -/
theorem sameOrNaN_readWord_of_addLanes_swap {o o' dst : Operand} {n : Nat} {s t t' : State}
    (h : stagedBinary o o' dst (addLanes n) s = .next t) (h' : stagedBinary o' o dst (addLanes n) s = .next t')
    (hp : t.cmdPtr ≠ s.cmdPtr) (hp' : t'.cmdPtr ≠ s.cmdPtr) :
    ∀ l < n, ∃ y y', t.mem.readWord (dst.base.toNat + 4 * l) = some y ∧
      t'.mem.readWord (dst.base.toNat + 4 * l) = some y' ∧ SameOrNaN y y' := by
  intro l hl
  obtain ⟨u, v, hu, hv, hy⟩ := stagedBinary_readWord h hp
  obtain ⟨v', u', hv', hu', hy'⟩ := stagedBinary_readWord h' hp'
  obtain rfl : u = u' := Except.ok.inj (hu.symm.trans hu')
  obtain rfl : v = v' := Except.ok.inj (hv.symm.trans hv')
  refine ⟨_, _, hy l (by rwa [addLanes_length]), hy' l (by rwa [addLanes_length]), ?_⟩
  rw [lane_addLanes s.nans u v hl, lane_addLanes s.nans v u hl]
  exact sameOrNaN_fadd_swap _ _ _ _

/-- Settles O42: each add is one staged command over its own operand kind and count of lanes. -/
theorem addIsCommutative : Obligations.AddIsCommutative := by
  intro s t t' d a b i j lanes hij ht ht' hp hp'
  rcases hij with ⟨rfl, rfl, rfl⟩ | ⟨rfl, rfl, rfl⟩ | ⟨rfl, rfl, rfl⟩
  · exact sameOrNaN_readWord_of_addLanes_swap (o := ⟨a, .m33⟩) (o' := ⟨b, .m33⟩) (dst := ⟨d, .m33⟩) ht ht' hp hp'
  · exact sameOrNaN_readWord_of_addLanes_swap (o := ⟨a, .m44⟩) (o' := ⟨b, .m44⟩) (dst := ⟨d, .m44⟩) ht ht' hp hp'
  · exact sameOrNaN_readWord_of_addLanes_swap (o := ⟨a, .v4⟩) (o' := ⟨b, .v4⟩) (dst := ⟨d, .v4⟩) ht ht' hp hp'

end Sys2Proof.Claims
end

section
/-! PROOFS. BUSY, DONE and ERR through every move: the end of a run is not missed (70_reset R274). -/

namespace Sys2Proof.Machine

/-! ### The registers a host write reaches (10_state R43) -/

theorem regAtWord_eq_ctrl_iff (p : Platform) {w : Fin 64} : regAtWord w = .ctrl ↔ p.regAddr w = p.mmioBase + 0x04 := by
  have hword : ∀ w : Fin 64, regAtWord w = .ctrl ↔ w.val = 1 := by decide
  rw [hword, Platform.regAddr]
  omega

theorem regAtWord_eq_status_iff (p : Platform) {w : Fin 64} :
    regAtWord w = .status ↔ p.regAddr w = p.mmioBase + 0x08 := by
  have hword : ∀ w : Fin 64, regAtWord w = .status ↔ w.val = 2 := by decide
  rw [hword, Platform.regAddr]
  omega

/-! ### STATUS bits 2:0 -/

/-- BUSY, DONE or ERR is set. -/
def State.BusyDoneOrErr (s : State) : Prop := s.busy = true ∨ s.done = true ∨ s.err = true

theorem State.getLsbD_statusWord_zero (s : State) : s.statusWord.getLsbD 0 = s.busy := by
  simp only [State.statusWord, BitVec.getLsbD_append, BitVec.getLsbD_ofBool]
  rfl

theorem State.extractLsb'_statusWord (s : State) :
    s.statusWord.extractLsb' 0 3 = BitVec.ofBool s.err ++ BitVec.ofBool s.done ++ BitVec.ofBool s.busy := by
  refine BitVec.eq_of_getLsbD_eq fun k hk => ?_
  simp only [State.statusWord, BitVec.getLsbD_extractLsb', BitVec.getLsbD_append, BitVec.getLsbD_ofBool]
  match k, hk with
  | 0, _ => rfl
  | 1, _ => rfl
  | 2, _ => rfl

theorem State.extractLsb'_statusWord_ne_zero_iff (s : State) : s.statusWord.extractLsb' 0 3 ≠ 0 ↔ s.BusyDoneOrErr := by
  rw [State.extractLsb'_statusWord, State.BusyDoneOrErr]
  cases s.busy <;> cases s.done <;> cases s.err <;> decide

namespace State.BusyDoneOrErr

variable {s t : State}

/-! ### What keeps one of them set -/

/-- A write to CTRL without SOFT_RESET sets BUSY or leaves all three flags (10_state R52). -/
theorem writeCtrl (h : s.BusyDoneOrErr) {v : Word} (hreset : v.getLsbD 2 = false) : (s.writeCtrl v).BusyDoneOrErr := by
  simp only [State.writeCtrl, hreset, Bool.false_eq_true, if_false]
  split
  · exact .inl rfl
  · exact h

/-- A write to STATUS that clears no flag that is set leaves all three (10_state R46). -/
theorem writeStatus (h : s.BusyDoneOrErr) {v : Word} (hdone : ¬ (v.getLsbD 1 = true ∧ s.done = true))
    (herr : ¬ (v.getLsbD 2 = true ∧ s.err = true)) : (s.writeStatus v).BusyDoneOrErr := by
  obtain h | h | h := h
  · exact .inl h
  · exact .inr (.inl (by simpa [h] using hdone))
  · exact .inr (.inr (by simpa [h] using herr))

theorem readRegAt (h : s.BusyDoneOrErr) (w : Fin 64) : (s.readRegAt w).BusyDoneOrErr := by
  unfold State.readRegAt State.sawRegister
  split <;> exact h

theorem releaseReset (h : s.BusyDoneOrErr) : s.releaseReset.BusyDoneOrErr := by
  unfold State.releaseReset
  split <;> exact h

/-- A command completes with the flags as they were, halts with DONE or faults with ERR (40_control R131). -/
theorem of_execResult {i : Instr} (h : s.BusyDoneOrErr) (hx : ExecResult i s t) : t.BusyDoneOrErr := by
  cases hx with
  | completed m k r ht => subst ht; exact h
  | halted hi ht => subst ht; exact .inr (.inl rfl)
  | faulted m code addr k r ht => subst ht; exact .inr (.inr rfl)

/-- BUSY falls only as DONE or ERR rises (10_state R46). -/
theorem engineTurn (h : s.BusyDoneOrErr) (ht : engineTurn s = .next t) : t.BusyDoneOrErr := by
  obtain ⟨-, rfl⟩ | ⟨-, ⟨code, addr, -, rfl⟩ | ⟨i, u, -, -, hu, rfl⟩⟩ := engineTurn_next ht
  · exact h
  · exact .inr (.inr rfl)
  · exact h.of_execResult (t := u) (exec_result hu)

end State.BusyDoneOrErr

/-- The moves R274 excepts, in this state: a reset, a loss of power, and a write that clears the DONE or ERR that is set. -/
def Move.MayClearStatus (s : State) : Move → Prop
  | .assertReset | .losePower => True
  | .writeReg w v =>
    (regAtWord w = .ctrl ∧ v.getLsbD 2 = true) ∨
    (regAtWord w = .status ∧ ((v.getLsbD 1 = true ∧ s.done = true) ∨ (v.getLsbD 2 = true ∧ s.err = true)))
  | .engine | .releaseReset | .readReg _ | .readMem _ _ | .writeMem _ _ => False

/-- Of the registers only CTRL and STATUS are a way to these flags (10_state R44 to R50). -/
theorem State.BusyDoneOrErr.writeRegAt {s : State} (h : s.BusyDoneOrErr) {w : Fin 64} {v : Word}
    (hm : ¬ Move.MayClearStatus s (.writeReg w v)) : (s.writeRegAt w v).BusyDoneOrErr := by
  simp only [Move.MayClearStatus, not_or, not_and] at hm
  obtain ⟨hctrl, hstatus⟩ := hm
  unfold State.writeRegAt State.writeReg
  split
  · cases hr : regAtWord w with
    | ctrl => exact h.writeCtrl (by simpa using hctrl hr)
    | status =>
      obtain ⟨hdone, herr⟩ := hstatus hr
      exact h.writeStatus (not_and.2 hdone) (not_and.2 herr)
    | cmdPtr => dsimp only; split <;> exact h
    | id | errAddr | cmdCount | reserved => exact h
  · exact h

theorem State.BusyDoneOrErr.moveTurn {s t : State} {m : Move} (h : s.BusyDoneOrErr) (hm : ¬ m.MayClearStatus s)
    (ht : moveTurn m s = .next t) : t.BusyDoneOrErr := by
  cases m with
  | engine => exact h.engineTurn ht
  | assertReset | losePower => exact absurd trivial hm
  | releaseReset => cases ht; exact h.releaseReset
  | readReg w => cases ht; exact h.readRegAt w
  | writeReg w v => cases ht; exact h.writeRegAt hm
  | readMem a n => obtain ⟨-, bs, -, rfl⟩ := State.readMem_next ht; exact h
  | writeMem a bs => obtain ⟨-, l, rfl⟩ := State.writeMem_next ht; exact h

/-- A START leaves BUSY = 1, whether it is accepted or the engine was running already (10_state R52). -/
theorem State.writeCtrl_start_busy (s : State) {v : Word} (hstart : v.getLsbD 0 = true) (hreset : v.getLsbD 2 = false) :
    (s.writeCtrl v).busy = true := by
  simp only [State.writeCtrl, hstart, hreset, Bool.true_and, Bool.false_eq_true, if_false]
  cases s.busy <;> rfl

end Sys2Proof.Machine

namespace Sys2Proof.Claims
open Sys2Proof.Machine

/-- Settles O13: a START leaves BUSY = 1, and every move but the excepted ones keeps BUSY, DONE or ERR set. -/
theorem endOfRunIsNotMissed : Obligations.EndOfRunIsNotMissed := by
  refine ⟨fun s w v rest hop hw hs hstart hreset => ?_, fun s t ht hs hlost hctrl hstatus => ?_⟩
  · refine ⟨_, step_of_schedule hs, ?_⟩
    rw [State.getLsbD_statusWord_zero, State.writeRegAt, (regAtWord_eq_ctrl_iff s.platform).2 hw, State.writeReg,
      if_pos hop]
    exact State.writeCtrl_start_busy _ hstart hreset
  · rw [State.extractLsb'_statusWord_ne_zero_iff] at hs ⊢
    cases hsch : s.schedule with
    | nil => exact hs.engineTurn (step_of_empty hsch ▸ ht)
    | cons m rest =>
      rw [step_of_schedule hsch] at ht
      refine State.BusyDoneOrErr.moveTurn (s := { s with schedule := rest }) hs ?_ ht
      cases m with
      | assertReset => exact absurd hsch (hlost rest).1
      | losePower => exact absurd hsch (hlost rest).2
      | writeReg w v =>
        rintro (⟨hr, hv⟩ | ⟨hr, hv⟩)
        · have hv' := hctrl w v rest ((regAtWord_eq_ctrl_iff s.platform).1 hr) hsch
          exact Bool.false_ne_true (hv'.symm.trans hv)
        · obtain ⟨hdone, herr⟩ := hstatus w v rest ((regAtWord_eq_status_iff s.platform).1 hr) hsch
          exact hv.elim hdone herr
      | engine | releaseReset | readReg w | readMem a n | writeMem a bs => exact id

end Sys2Proof.Claims
end

section
/-! PROOFS. The decoder and the encoder as inverses of each other, on words and on bytes, and a command placed for the next
fetch (30_encoding R100 to R106; entry 7). -/

namespace Sys2Proof

/-! ### Bytes and words -/

/-- Byte `k` of a word is bits 8k + 7 to 8k (20_memory R71). -/
theorem wordBytes_wordOfBytes (b0 b1 b2 b3 : Byte) : wordBytes (wordOfBytes b0 b1 b2 b3) = [b0, b1, b2, b3] := by
  have hbyte : ∀ k < 4, byteOfWord (wordOfBytes b0 b1 b2 b3) k = [b0, b1, b2, b3].getD k 0 := by
    intro k hk
    apply BitVec.eq_of_getLsbD_eq
    intro i hi
    simp only [byteOfWord, wordOfBytes, BitVec.getLsbD_extractLsb', BitVec.getLsbD_append, hi, decide_true, Bool.true_and]
    match k, hk with
    | 0, _ => simp [hi]
    | 1, _ => simp [hi]
    | 2, _ => simp [show ¬ 16 + i < 8 by omega, show ¬ 16 + i - 8 < 8 by omega, show 16 + i - 8 - 8 = i by omega, hi]
    | 3, _ =>
      simp [show ¬ 24 + i < 8 by omega, show ¬ 24 + i - 8 < 8 by omega, show ¬ 24 + i - 8 - 8 < 8 by omega,
        show 24 + i - 8 - 8 - 8 = i by omega]
  simp [wordBytes, hbyte]

/-- The bytes of words read back as the words. -/
theorem wordsOfBytes_flatMap_wordBytes (ws : List Word) : wordsOfBytes (ws.flatMap wordBytes) = some ws := by
  induction ws with
  | nil => rfl
  | cons w ws ih => simp [wordBytes, wordsOfBytes, ih]

/-- Bytes that read as words are the bytes of those words. -/
theorem flatMap_wordBytes_of_wordsOfBytes : ∀ {bs : List Byte} {ws : List Word}, wordsOfBytes bs = some ws →
    ws.flatMap wordBytes = bs
  | [], _, h => by cases h; rfl
  | [_], _, h | [_, _], _, h | [_, _, _], _, h => by cases h
  | b0 :: b1 :: b2 :: b3 :: rest, ws, h => by
    simp only [wordsOfBytes, Option.map_eq_some_iff] at h
    obtain ⟨us, hus, rfl⟩ := h
    rw [List.flatMap_cons, wordBytes_wordOfBytes, flatMap_wordBytes_of_wordsOfBytes hus]
    rfl

namespace RawCommand

theorem words_of_ofWords {ws : List Word} {c : RawCommand} (h : ofWords ws = some c) : c.words = ws := by
  unfold ofWords at h
  split at h
  · cases h; rfl
  · cases h

/-- The decoder on the bytes of a raw command is the decoder on its words (30_encoding R100). -/
theorem decodeBytes_toBytes {c : RawCommand} {i : Instr} (h : decode c = .ok i) : decodeBytes c.toBytes = .ok i := by
  have hc : (wordsOfBytes c.toBytes).bind ofWords = some c := by
    rw [toBytes, wordsOfBytes_flatMap_wordBytes]
    rfl
  simp only [decodeBytes, hc, h]

/-- Bytes that decode are those of a raw command that decodes. -/
theorem exists_of_decodeBytes {bs : List Byte} {i : Instr} (h : decodeBytes bs = .ok i) :
    ∃ c : RawCommand, c.toBytes = bs ∧ decode c = .ok i := by
  unfold decodeBytes at h
  split at h
  · cases h
  · next c hc =>
    obtain ⟨ws, hws, hc⟩ := Option.bind_eq_some_iff.1 hc
    split at h
    · next j hj =>
      cases h
      exact ⟨c, by rw [toBytes, words_of_ofWords hc, flatMap_wordBytes_of_wordsOfBytes hws], hj⟩
    · cases h

/-- The decoder accepts well-formed raw commands alone. -/
theorem wellFormed_of_decode {c : RawCommand} {i : Instr} (h : decode c = .ok i) : c.wellFormed = true := by
  by_cases hu : fieldUse (c.w0.toNat % 256) = none
  · rw [decode_of_fieldUse_eq_none hu] at h
    cases h
  · cases hw : c.wellFormed with
    | true => rfl
    | false =>
      rw [decode_of_wellFormed_eq_false hu hw] at h
      cases h

end RawCommand

/-! ### The encoding of a command -/

theorem encode_wellFormed (i : Instr) : (encode i).wellFormed = true := by
  open Laws.EncodedWellFormed in
  cases i with
  | halt => exact halt
  | nop => exact nop
  | mul33 d a b => exact mul33 d a b
  | mul44 d a b => exact mul44 d a b
  | mul44v d a x => exact mul44v d a x
  | trn33 d a => exact trn33 d a
  | trn44 d a => exact trn44 d a
  | inv44 d a => exact inv44 d a
  | dot d a b => exact dot d a b
  | dotb d a v n => exact dotb d a v n
  | add33 d a b => exact add33 d a b
  | add44 d a b => exact add44 d a b
  | addv4 d a b => exact addv4 d a b
  | smul33 d a imm => exact smul33 d a imm
  | smul44 d a imm => exact smul44 d a imm
  | smulv4 d a imm => exact smulv4 d a imm

theorem ofByte_encode (i : Instr) : Opcode.ofByte ((encode i).w0.extractLsb' 0 8) = some i.opcode := by
  have hw0 : (encode i).w0.extractLsb' 0 8 = i.opcode.byte := by
    apply BitVec.eq_of_toNat_eq
    have hlt := i.opcode.byte.isLt
    rw [RawCommand.opc_toNat, encode, BitVec.toNat_setWidth]
    omega
  rw [hw0, Opcode.ofByte_byte]

theorem toInstr_encode (i : Instr) : (encode i).toInstr i.opcode = i := by
  cases i <;> rfl

theorem decode_encode (i : Instr) : decode (encode i) = .ok i := by
  rw [RawCommand.decode_of_ofByte (ofByte_encode i), if_pos (encode_wellFormed i), toInstr_encode]

theorem encode_of_decode {c : RawCommand} {i : Instr} (h : decode c = .ok i) : encode i = c := by
  obtain ⟨j, hj, hc⟩ := RawCommand.exists_decode_of_wellFormed (RawCommand.wellFormed_of_decode h)
  cases hj.symm.trans h
  exact hc

end Sys2Proof

namespace Sys2Proof.Machine

variable {s : State}

/-! ### The fetch of a placed command (entry 7) -/

theorem State.hostWroteIn_of_nil (h : s.hostWrote = []) (r : Region) : s.hostWroteIn r = false := by
  simp [State.hostWroteIn, h]

theorem State.breaksDuty_of_nil (h : s.hostWrote = []) (i : Instr) : s.breaksDuty i = false := by
  simp [State.breaksDuty, State.hostWroteIn_of_nil h]

theorem State.fetch_placeCommand {c : RawCommand} {i : Instr} (hm : 32 ≤ s.platform.memSize)
    (hb : busErrorAt s.platform s.fetchable.toNat 32 .read = false) (hc : decode c = .ok i) :
    (s.placeCommand c.toBytes).fetch = .command i := by
  obtain ⟨ha, hr⟩ := State.fetchable_fits hm
  have hl : (s.placeCommand c.toBytes).mem.loadLanes (s.placeCommand c.toBytes).cmdPtr.toNat 8 = .ok c.words := by
    rw [State.placeCommand_mem, State.placeCommand_cmdPtr, RawCommand.toBytes, Memory.writeBytes_words]
    exact Memory.loadLanes_storeLanes _ _ _
  have hf := State.fetch_decodes (s := s.placeCommand c.toBytes) ha (by simpa using hr) (by simpa using hb)
    (State.hostWroteIn_of_nil (s.placeCommand_hostWrote _) _) hl
  rw [hf, hc]

end Sys2Proof.Machine

namespace Sys2Proof.Claims
open Sys2Proof.Machine

/-- Settles O1: the encoder's words are well-formed, and the fields of its opcode are the command's own. -/
theorem decodeInvertsEncode : Obligations.DecodeInvertsEncode :=
  fun i => ⟨decode_encode i, RawCommand.decodeBytes_toBytes (decode_encode i)⟩

/-- Settles O2: what decodes is well-formed, so the fields the command does not use are 0. -/
theorem encodeInvertsDecode : Obligations.EncodeInvertsDecode :=
  fun _ _ h => encode_of_decode h

/-- Settles O9: the placed bytes are those of a raw command that decodes, and they load as its words. -/
theorem placedCommandIsFetched : Obligations.PlacedCommandIsFetched := by
  intro s nbits w i hp hb hd
  obtain ⟨c, hbytes, hc⟩ : ∃ c : RawCommand, c.toBytes = tableBytes nbits w ∧ decode c = .ok i := by
    unfold decodeTableWord at hd
    split at hd
    · next j hj => cases hd; exact RawCommand.exists_of_decodeBytes hj
    · cases hd
  rw [State.withFetchWord, ← hbytes]
  exact ⟨State.fetch_placeCommand hp.1 hb hc, s.placeCommand_busy _, s.placeCommand_phase _, s.placeCommand_schedule _,
    State.breaksDuty_of_nil (s.placeCommand_hostWrote _) i⟩

end Sys2Proof.Claims
end

section
/-! PROOFS. The faults of a command and what they leave: operand checks, bus errors, unwritten inputs (40_control R132; 20_memory
R80, R89; 60_exceptions R230 to R233). -/

namespace Sys2Proof.Machine

variable {i : Instr} {s t : State}

/-- HALT, NOP and DOTB have a meaning of their own; every other command is a staged command. -/
theorem exec_forms (i : Instr) :
    i = .halt ∨ i = .nop ∨ (∃ d a v n, i = .dotb d a v n) ∨ ∃ srcs dst f, IsStaged i srcs dst f := by
  by_cases hh : i = .halt
  · exact .inl hh
  by_cases hn : i = .nop
  · exact .inr (.inl hn)
  by_cases hd : ∃ d a v n, i = .dotb d a v n
  · exact .inr (.inr (.inl hd))
  · exact .inr (.inr (.inr (exec_staged i hh hn fun d a v n h => hd ⟨d, a, v, n, h⟩)))

/-! ### Operand checks (40_control R132) -/

theorem placed_iff_accessible (o : Operand) :
    placed o.base o.kind.align o.kind.footprint = true ↔ o.accessible (2 ^ 32) := by
  simp [placed, Operand.accessible]

/-- The table of 20_memory R72 gives each operand the alignment and footprint of its kind. -/
theorem wellFormed_eq_all_placed (i : Instr) :
    i.wellFormed = (operandsOf i).all fun o => placed o.base o.kind.align o.kind.footprint := by
  cases i with
  | dotb d a v n =>
    simp [Instr.wellFormed, operandsOf, OperandKind.align, OperandKind.footprint, OperandKind.footprintLanes,
      Bool.and_assoc, ← Nat.mul_assoc]
  | _ =>
    simp [Instr.wellFormed, operandsOf, OperandKind.align, OperandKind.footprint, OperandKind.footprintLanes,
      Bool.and_assoc]

theorem wellFormed_iff_checkOperands (i : Instr) :
    i.wellFormed = true ↔ checkOperands (2 ^ 32) (operandsOf i) = none := by
  rw [wellFormed_eq_all_placed, List.all_eq_true, checkOperands_none_iff]
  exact forall₂_congr fun o _ => placed_iff_accessible o

theorem Operand.accessible.mono {m m' : Nat} {o : Operand} (h : o.accessible m) (hm : m ≤ m') : o.accessible m' :=
  ⟨h.1, Nat.le_trans h.2 hm⟩

/-- An operand check that fails is the command's fault, whatever the command (40_control R132). -/
theorem exec_of_checkOperands_some {code : FaultCode} {addr : Word}
    (h : checkOperands s.platform.memSize (operandsOf i) = some (code, addr)) :
    exec i s = .next (s.raiseFault code addr) := by
  rcases exec_forms i with rfl | rfl | ⟨d, a, v, n, rfl⟩ | ⟨srcs, dst, f, hi⟩
  · cases h
  · cases h
  · rw [operandsOf] at h
    simp only [exec, execDotb, h]
  · rw [hi.operands] at h
    simp only [hi.meaning, staged, h]

/-! ### Faults by what they write (60_exceptions R230, R232) -/

theorem ExecResult.read_outside_output (h : ExecResult i s t) {x : Nat}
    (hx : ∀ r, outputOf i = some r → x < r.base ∨ r.base + r.len ≤ x) : t.mem.read x = s.mem.read x := by
  have keep : ∀ {m : Memory} {r : Region}, (outputOf i = some r ∨ m = s.mem) → WritesOnly s r m →
      m.read x = s.mem.read x := by
    intro m r ho hm
    rcases ho with ho | rfl
    · exact hm.outside x ((r.contains_false_iff x).2 (hx r ho))
    · rfl
  cases h with
  | completed m k r ht hi ho hm => subst ht; exact keep ho hm
  | halted hi ht => subst ht; rfl
  | faulted m code addr k r ht ho hm => subst ht; exact keep ho hm

/-- A command that sets ERR raised a fault, and only a bus error comes with a write. -/
theorem ExecResult.fault_precise (h : ExecResult i s t) (hs : s.err = false) (ht : t.err = true) :
    t.cmdPtr = s.cmdPtr ∧ t.cmdCount = s.cmdCount ∧ t.busy = false ∧ t.done = s.done ∧
      (t.errCode ≠ 0x07 → t.mem = s.mem) := by
  cases h with
  | completed m k r he => subst he; exact absurd (hs.symm.trans ht) Bool.false_ne_true
  | halted hi he => subst he; exact absurd (hs.symm.trans ht) Bool.false_ne_true
  | faulted m code addr k r he ho hm hc =>
    subst he
    refine ⟨rfl, rfl, rfl, rfl, fun hcode => ?_⟩
    rcases hc with rfl | ⟨-, hmem, -⟩
    · exact absurd rfl hcode
    · exact hmem

/-! ### Bus errors of a staged command (20_memory R89) -/

/-- A command with operands, but DOTB, is a staged command. -/
theorem exists_isStaged (hd : ∀ d a v n, i ≠ .dotb d a v n) (ho : operandsOf i ≠ []) :
    ∃ srcs dst f, IsStaged i srcs dst f :=
  exec_staged i (by rintro rfl; exact ho rfl) (by rintro rfl; exact ho rfl) hd

section
variable {srcs : List Operand} {dst : Operand} {f : (Nat → Word) → List Lanes → Lanes}

theorem IsStaged.exec_of_sourceError (hi : IsStaged i srcs dst f)
    (hc : checkOperands s.platform.memSize (operandsOf i) = none) {addr : Word} (he : sourceError s srcs = some addr) :
    exec i s = .next (s.raiseFault .busError addr).tick := by
  rw [hi.operands] at hc
  simp only [hi.meaning, staged, hc, he]

theorem IsStaged.exec_of_loadAll (hi : IsStaged i srcs dst f)
    (hc : checkOperands s.platform.memSize (operandsOf i) = none) (he : sourceError s srcs = none) {vs : List Lanes}
    (hl : loadAll s.mem srcs = .ok vs) : exec i s = .next (s.storeResult dst (f s.nans vs)) := by
  rw [hi.operands] at hc
  simp only [hi.meaning, staged, hc, he, hl]

end

theorem loadAll_of_isSome {m : Memory} {srcs : List Operand}
    (h : ∀ o ∈ srcs, ∀ k < o.kind.valueLanes, (m.readWord (o.base.toNat + 4 * k)).isSome) :
    ∃ vs, loadAll m srcs = .ok vs := by
  cases hl : loadAll m srcs with
  | ok vs => exact ⟨vs, rfl⟩
  | error x =>
    obtain ⟨hx, o, ho, k, hk, rfl⟩ := loadAll_error hl
    exact absurd hx (Option.ne_none_iff_isSome.2 (h o ho k hk))

/-! ### Unwritten inputs (20_memory R80) -/

/-- The command answers a next state, or finds a lane of a source operand unwritten. -/
def StopsOnlyOnUnwritten (i : Instr) (s : State) : Prop :=
  (∃ t, exec i s = .next t) ∨
  ∃ x o k, exec i s = .fault (.uninitialised x) ∧ s.mem.readWord x = none ∧
    o ∈ (operandsOf i).dropLast ∧ k < o.kind.valueLanes ∧ x = o.base.toNat + 4 * k

theorem IsStaged.stopsOnlyOnUnwritten {srcs : List Operand} {dst : Operand}
    {f : (Nat → Word) → List Lanes → Lanes} (hi : IsStaged i srcs dst f) (s : State) : StopsOnlyOnUnwritten i s := by
  rw [StopsOnlyOnUnwritten, hi.meaning]
  rcases staged_cases srcs dst f s with ⟨code, addr, -, he⟩ | ⟨-, ⟨addr, -, he⟩ | ⟨-, ⟨x, hl, he⟩ | ⟨vs, -, he⟩⟩⟩
  · exact .inl ⟨_, he⟩
  · exact .inl ⟨_, he⟩
  · obtain ⟨hx, o, ho, k, hk, hxk⟩ := loadAll_error hl
    exact .inr ⟨x, o, k, he, hx, by rwa [hi.operands, List.dropLast_concat], hk, hxk⟩
  · exact .inl ⟨_, he⟩

/-- What DOTB's elements find unwritten is a lane of the vector array. -/
theorem dotbElements_stops (d v n : Word) (u : Lanes) (s : State) :
    (∃ t, dotbElements d v n u s = .next t) ∨
    ∃ x k, dotbElements d v n u s = .fault (.uninitialised x) ∧ s.mem.readWord x = none ∧ k < 4 * n.toNat ∧
      x = v.toNat + 4 * k := by
  unfold dotbElements
  cases hloop : dotbLoop s.nans u v.toNat d.toNat (dotbReach s.platform d.toNat v.toNat n.toNat) 0 s.mem with
  | error x =>
    obtain ⟨hx, j, k, hj, hk, rfl⟩ := dotbLoop_uninitialised _ _ _ _ _ _ _ hloop
    have hle := dotbReach_le s.platform d.toNat v.toNat n.toNat
    exact .inr ⟨_, 4 * j + k, rfl, hx, by omega, by omega⟩
  | ok m =>
    dsimp only
    split <;> exact .inl ⟨_, rfl⟩

theorem dotb_stopsOnlyOnUnwritten (d a v n : Word) (s : State) : StopsOnlyOnUnwritten (.dotb d a v n) s := by
  rw [StopsOnlyOnUnwritten, show exec (.dotb d a v n) s = execDotb d a v n s from rfl]
  unfold execDotb
  split
  · exact .inl ⟨_, rfl⟩
  split
  · exact .inl ⟨_, rfl⟩
  split
  · exact .inl ⟨_, rfl⟩
  split
  · exact .inl ⟨_, rfl⟩
  split
  · next x hl =>
    obtain ⟨hx, k, hk, hxk⟩ := Operand.load_error hl
    exact .inr ⟨x, ⟨a, .v4⟩, k, rfl, hx, by simp [operandsOf], hk, hxk⟩
  · next u hu =>
    rcases dotbElements_stops d v n u s with h | ⟨x, k, he, hx, hk, hxk⟩
    · exact .inl h
    · exact .inr ⟨x, ⟨v, .v4Array n.toNat⟩, k, he, hx, by simp [operandsOf], hk, hxk⟩

theorem exec_stopsOnlyOnUnwritten (i : Instr) (s : State) : StopsOnlyOnUnwritten i s := by
  rcases exec_forms i with rfl | rfl | ⟨d, a, v, n, rfl⟩ | ⟨srcs, dst, f, hi⟩
  · exact .inl ⟨_, rfl⟩
  · exact .inl ⟨_, rfl⟩
  · exact dotb_stopsOnlyOnUnwritten d a v n s
  · exact hi.stopsOnlyOnUnwritten s

/-! ### What a command reads of the state (40_control R135) -/

/-- The two states hold the same memory, platform and draw counter. -/
structure SameInputs (s s' : State) : Prop where
  mem : s.mem = s'.mem
  platform : s.platform = s'.platform
  draws : s.draws = s'.draws

/-- Both answer a next state with the same memory and draw counter, or both stop for the same reason. -/
def SameEffect : Host.Outcome State Fault Refusal → Host.Outcome State Fault Refusal → Prop
  | .next t, .next t' => t'.mem = t.mem ∧ t'.draws = t.draws
  | .fault f, .fault f' => f = f'
  | .refused r, .refused r' => r = r'
  | _, _ => False

section
variable {s' : State}

theorem SameInputs.nans (h : SameInputs s s') : s'.nans = s.nans := by
  rw [State.nans, State.nans, h.draws]

theorem SameInputs.sourceError (h : SameInputs s s') (srcs : List Operand) :
    sourceError s' srcs = sourceError s srcs := by
  rw [Machine.sourceError, Machine.sourceError, h.platform, h.draws]

theorem SameInputs.storeResult (h : SameInputs s s') (dst : Operand) (result : Lanes) :
    (s'.storeResult dst result).mem = (s.storeResult dst result).mem ∧
      (s'.storeResult dst result).draws = (s.storeResult dst result).draws := by
  cases hw : dst.writeError s.platform with
  | true =>
    rw [State.storeResult_error hw, State.storeResult_error (h.platform ▸ hw)]
    simp [h.mem, h.draws]
  | false =>
    rw [State.storeResult_clean hw, State.storeResult_clean (h.platform ▸ hw)]
    simp [h.mem, h.draws, storedLanes]

theorem SameInputs.staged (h : SameInputs s s') (srcs : List Operand) (dst : Operand)
    (f : (Nat → Word) → List Lanes → Lanes) : SameEffect (staged srcs dst f s) (staged srcs dst f s') := by
  unfold Machine.staged
  rw [← h.platform, h.sourceError, ← h.mem, h.nans]
  cases checkOperands s.platform.memSize (srcs ++ [dst]) with
  | some p => exact ⟨h.mem.symm, h.draws.symm⟩
  | none =>
    cases Machine.sourceError s srcs with
    | some addr => exact ⟨h.mem.symm, congrArg (· + 1) h.draws.symm⟩
    | none =>
      cases loadAll s.mem srcs with
      | error x => exact rfl
      | ok vs => exact h.storeResult dst _

theorem SameInputs.dotbElements (h : SameInputs s s') (d v n : Word) (u : Lanes) :
    SameEffect (dotbElements d v n u s) (dotbElements d v n u s') := by
  unfold Machine.dotbElements
  rw [← h.platform, ← h.mem, h.nans]
  cases dotbLoop s.nans u v.toNat d.toNat (dotbReach s.platform d.toNat v.toNat n.toNat) 0 s.mem with
  | error x => exact rfl
  | ok m =>
    cases firstElementError s.platform d.toNat 4 1 n.toNat .write with
    | none => exact ⟨rfl, congrArg (· + 1) h.draws.symm⟩
    | some j => simp [SameEffect, h.mem, h.draws]

theorem SameInputs.execDotb (h : SameInputs s s') (d a v n : Word) :
    SameEffect (execDotb d a v n s) (execDotb d a v n s') := by
  have same : s'.mem = s.mem ∧ s'.draws = s.draws := ⟨h.mem.symm, h.draws.symm⟩
  unfold Machine.execDotb
  rw [← h.platform, ← h.mem]
  cases checkOperands s.platform.memSize [⟨a, .v4⟩, ⟨v, .v4Array n.toNat⟩, ⟨d, .f32Array n.toNat⟩] with
  | some p => exact same
  | none =>
    dsimp only
    split
    · exact same
    split
    · exact same
    cases firstElementError s.platform v.toNat 16 4 n.toNat .read with
    | some j => exact same
    | none =>
      cases Operand.load s.mem ⟨a, .v4⟩ with
      | error x => exact rfl
      | ok u => exact h.dotbElements d v n u

theorem SameInputs.exec (h : SameInputs s s') (i : Instr) : SameEffect (exec i s) (exec i s') := by
  rcases exec_forms i with rfl | rfl | ⟨d, a, v, n, rfl⟩ | ⟨srcs, dst, f, hi⟩
  · exact ⟨h.mem.symm, h.draws.symm⟩
  · exact ⟨h.mem.symm, h.draws.symm⟩
  · exact h.execDotb d a v n
  · rw [hi.meaning, hi.meaning]
    exact h.staged srcs dst f

end

end Sys2Proof.Machine

namespace Sys2Proof.Claims
open Sys2Proof.Machine

/-! ### Faulted states -/

/-- A drawing event beside a fault changes no register. -/
theorem Faulted.tick {s t : State} {code : BitVec 8} {addr : Word} {d len : Nat} (h : Faulted s t code addr d len) :
    Faulted s t.tick code addr d len := by
  cases h
  constructor <;> assumption

/-- A fault that leaves a region torn changes no byte outside it (20_memory R89). -/
theorem faulted_tear_raiseFault (s : State) (r : Region) (code : FaultCode) (addr : Word) :
    Faulted s ((s.tear r).raiseFault code addr) code.byte addr r.base r.len := by
  constructor
  case memory => exact fun x hx => Memory.read_writeBytes_outside _ _ _ _ (by simpa using hx)
  all_goals rfl

theorem not_noBusError_iff {s : State} {a : Word} {n : Nat} {acc : Access} :
    ¬ NoBusError s a n acc ↔ lanesError s.platform a.toNat n acc = true := by
  rw [← Bool.not_eq_false, lanesError_false_iff]
  rfl

theorem checkOperands_of_fits {s : State} {l : List Operand}
    (h : ∀ o ∈ l, Fits s o.base o.kind.align o.kind.footprint) : checkOperands s.platform.memSize l = none :=
  (checkOperands_none_iff _ _).2 h

/-- Settles O5: the table of R72 asks what the operand checks ask of a space of 2^32 bytes. -/
theorem wellFormedIffSomePlatformAccepts : Obligations.WellFormedIffSomePlatformAccepts := by
  refine ⟨wellFormed_iff_checkOperands, fun i s hp hi => ?_⟩
  cases hc : checkOperands s.platform.memSize (operandsOf i) with
  | none =>
    have hwf : i.wellFormed = true := (wellFormed_iff_checkOperands i).2 <| (checkOperands_none_iff _ _).2 fun o ho =>
      ((checkOperands_none_iff _ _).1 hc o ho).mono hp.2.1
    exact absurd (hi.symm.trans hwf) Bool.false_ne_true
  | some p =>
    obtain ⟨code, addr⟩ := p
    refine ⟨_, code.byte, addr, exec_of_checkOperands_some hc, ?_, faulted_raiseFault s code addr⟩
    obtain ⟨rfl | rfl, -⟩ := checkOperands_some hc
    · exact .inl rfl
    · exact .inr rfl

/-- Settles O15, by what a command that answers a next state wrote. -/
theorem commandsWriteOnlyTheirOutput : Obligations.CommandsWriteOnlyTheirOutput :=
  fun _ _ _ h _ hx => (exec_result h).read_outside_output hx

/-- Settles O16: of the ways to answer a next state only a fault sets ERR. -/
theorem faultsArePrecise : Obligations.FaultsArePrecise :=
  fun _ _ _ h hs ht => (exec_result h).fault_precise hs ht

/-- Settles O17: every branch of a command is taken on memory, platform and draws. -/
theorem commandsIgnoreTheRegisters : Obligations.CommandsIgnoreTheRegisters := by
  intro i s s' hm hp hd
  have h := SameInputs.exec ⟨hm, hp, hd⟩ i
  refine ⟨fun t ht => ?_, fun f hf => ?_⟩
  · rw [ht] at h
    cases h' : exec i s' with
    | next t' => rw [h'] at h; exact ⟨t', rfl, h⟩
    | fault f => rw [h'] at h; exact h.elim
    | refused r => rw [h'] at h; exact h.elim
  · rw [hf] at h
    cases h' : exec i s' with
    | next t' => rw [h'] at h; exact h.elim
    | fault f' => rw [h'] at h; exact congrArg _ (Eq.symm h)
    | refused r => rw [h'] at h; exact h.elim

/-- Settles O18, by the load that fails. -/
theorem commandsStopOnlyOnUnwrittenInput : Obligations.CommandsStopOnlyOnUnwrittenInput :=
  exec_stopsOnlyOnUnwritten

/-- Settles O19: the checks of the operands before `o` pass, and that of `o` is the first to fail. -/
theorem operandFaultsInOrder : Obligations.OperandFaultsInOrder := by
  intro i s pre post o ho hpre
  have first : ∀ code, checkOperands s.platform.memSize (o :: post) = some (code, o.base) →
      ∃ t, exec i s = .next t ∧ Faulted s t code.byte o.base 0 0 := fun code h =>
    ⟨_, exec_of_checkOperands_some (by rw [ho, checkOperands_append _ hpre, h]), faulted_raiseFault s code o.base⟩
  exact ⟨fun ha => first .operandMisaligned (if_pos ha),
    fun ha hr => first .operandRange ((if_neg (Decidable.not_not.2 ha)).trans (if_pos hr))⟩

/-- Settles O20: the error of a source is found after the checks and before the loads. -/
theorem sourceBusErrorFaultsBeforeAnyWrite : Obligations.SourceBusErrorFaultsBeforeAnyWrite := by
  rintro i s hd hfits ⟨o, ho, he⟩
  obtain ⟨srcs, dst, f, hi⟩ := exists_isStaged hd (by rintro h; rw [h] at ho; cases ho)
  have hsrcs : (operandsOf i).dropLast = srcs := by rw [hi.operands, List.dropLast_concat]
  rw [hsrcs] at ho ⊢
  cases hs : sourceError s srcs with
  | none => exact absurd (not_noBusError_iff.1 he) (Bool.eq_false_iff.1 ((sourceError_none_iff s srcs).1 hs o ho))
  | some addr =>
    obtain ⟨o', ho', he', rfl⟩ := sourceError_some hs
    exact ⟨_, o', hi.exec_of_sourceError (checkOperands_of_fits hfits) hs, ho', not_noBusError_iff.2 he',
      (faulted_raiseFault s .busError o'.base).tick⟩

/-- Settles O21: the inputs are loaded, and the store tears the output alone. -/
theorem outputBusErrorTearsOnlyTheOutput : Obligations.OutputBusErrorTearsOnlyTheOutput := by
  intro i s srcs dst hd ho hfits hread hvals hwrite
  obtain ⟨srcs', dst', f, hi⟩ := exists_isStaged hd (by simp [ho])
  obtain ⟨rfl, rfl⟩ : srcs = srcs' ∧ dst = dst' := by simpa using ho.symm.trans hi.operands
  have hsrc : sourceError s srcs = none := (sourceError_none_iff s srcs).2 fun o hmem =>
    (lanesError_false_iff _ _ _ _).2 (hread o hmem)
  obtain ⟨vs, hvs⟩ := loadAll_of_isSome hvals
  refine ⟨_, hi.exec_of_loadAll (checkOperands_of_fits hfits) hsrc hvs, ?_⟩
  rw [State.storeResult_error (not_noBusError_iff.1 hwrite)]
  exact (faulted_tear_raiseFault s dst.region .busError dst.base).tick

end Sys2Proof.Claims
end

section
/-! PROOFS. DOTB from its first check to its last element (44_dot R201, R202; 20_memory R89; 60_exceptions R231 to R233). -/

namespace Sys2Proof.Machine

/-! ### The memories between the elements (44_dot R202) -/

/-- The vector of element `k` as the memory `m` holds it; no lanes where one of them is unwritten. -/
def dotbVector (vectors : Nat) (m : Memory) (k : Nat) : Lanes :=
  match m.loadLanes (vectors + 16 * k) 4 with
  | .ok v => v
  | .error _ => []

/-- The memory when the elements before the `k`-th have been written. -/
def dotbMemory (draw : Nat → Word) (a : Lanes) (vectors dst : Nat) (m : Memory) : Nat → Memory
  | 0 => m
  | k + 1 =>
    let before := dotbMemory draw a vectors dst m k
    before.writeWord (dst + 4 * k) (dot4 draw (7 * k) a (dotbVector vectors before k))

theorem dotbVector_of_load {vectors k : Nat} {m : Memory} {v : Lanes} (h : m.loadLanes (vectors + 16 * k) 4 = .ok v) :
    dotbVector vectors m k = v := by
  simp [dotbVector, h]

/-- A loop that succeeds goes through these memories, and each element's vector is written when it is read. -/
theorem dotbLoop_memory (draw : Nat → Word) (a : Lanes) (vectors dst : Nat) (m : Memory) :
    ∀ {count i : Nat} {m' : Memory},
      dotbLoop draw a vectors dst count i (dotbMemory draw a vectors dst m i) = .ok m' →
      m' = dotbMemory draw a vectors dst m (i + count) ∧
        ∀ j, i ≤ j → j < i + count → (dotbMemory draw a vectors dst m j).loadLanes (vectors + 16 * j) 4 =
          .ok (dotbVector vectors (dotbMemory draw a vectors dst m j) j) := by
  intro count
  induction count with
  | zero => intro i m' h; cases h; exact ⟨rfl, fun j _ _ => by omega⟩
  | succ count ih =>
    intro i m' h
    simp only [dotbLoop] at h
    split at h
    · cases h
    · next v hv =>
      have hvec := dotbVector_of_load hv
      rw [← hvec] at h hv
      obtain ⟨hm, hload⟩ := ih (i := i + 1) h
      refine ⟨by rw [hm]; congr 1; omega, fun j hij hj => ?_⟩
      rcases Nat.eq_or_lt_of_le hij with rfl | hij
      · exact hv
      · exact hload j hij (by omega)

theorem dotbLoop_of_isSome (draw : Nat → Word) (a : Lanes) {vectors dst count : Nat} {m : Memory}
    (h : ∀ k < 4 * count, (m.readWord (vectors + 4 * k)).isSome) :
    ∃ m', dotbLoop draw a vectors dst count 0 m = .ok m' := by
  cases hl : dotbLoop draw a vectors dst count 0 m with
  | ok m' => exact ⟨m', rfl⟩
  | error x =>
    obtain ⟨hx, j, k, hj, hk, rfl⟩ := dotbLoop_uninitialised _ _ _ _ _ _ _ hl
    have hs := h (4 * j + k) (by omega)
    rw [show vectors + 4 * (4 * j + k) = vectors + 16 * j + 4 * k by omega, hx] at hs
    cases hs

theorem firstElementError_eq_some {p : Platform} {base stride lanes n i : Nat} {access : Access} (hi : i < n)
    (he : lanesError p (base + stride * i) lanes access = true)
    (hb : ∀ j < i, lanesError p (base + stride * j) lanes access = false) :
    firstElementError p base stride lanes n access = some i := by
  rw [firstElementError, List.find?_range_eq_some]
  simpa [hi, he] using hb

/-! ### DOTB branch by branch -/

section
variable {s : State} {d a v n : Word}

theorem exec_dotb_zero (hc : checkOperands s.platform.memSize (operandsOf (.dotb d a v 0)) = none) :
    exec (.dotb d a v 0) s = .next s.complete := by
  rw [operandsOf] at hc
  simp only [exec, execDotb, hc, if_true]

variable (hc : checkOperands s.platform.memSize (operandsOf (.dotb d a v n)) = none) (hn : n ≠ 0)
include hc hn

theorem exec_dotb_of_residentError (ha : Operand.readError s.platform ⟨a, .v4⟩ = true) :
    exec (.dotb d a v n) s = .next (s.raiseFault .busError a) := by
  rw [operandsOf] at hc
  simp only [exec, execDotb, hc, if_neg hn, ha, if_true]

variable (ha : Operand.readError s.platform ⟨a, .v4⟩ = false)
include ha

theorem exec_dotb_of_vectorError {i : Nat} (hv : firstElementError s.platform v.toNat 16 4 n.toNat .read = some i) :
    exec (.dotb d a v n) s = .next (s.raiseFault .busError (v + BitVec.ofNat 32 (16 * i))) := by
  rw [operandsOf] at hc
  simp only [exec, execDotb, hc, if_neg hn, ha, Bool.false_eq_true, if_false, hv]

theorem exec_dotb_of_reads (hv : firstElementError s.platform v.toNat 16 4 n.toNat .read = none) {u : Lanes}
    (hu : Operand.load s.mem ⟨a, .v4⟩ = .ok u) : exec (.dotb d a v n) s = dotbElements d v n u s := by
  rw [operandsOf] at hc
  simp only [exec, execDotb, hc, if_neg hn, ha, Bool.false_eq_true, if_false, hv, hu]

end

section
variable {s : State} {d v n : Word} (u : Lanes)
  (hv : firstElementError s.platform v.toNat 16 4 n.toNat .read = none)
include hv

theorem dotbElements_of_writeError {i : Nat} (hw : firstElementError s.platform d.toNat 4 1 n.toNat .write = some i)
    (h : ∀ k < 4 * (i + 1), (s.mem.readWord (v.toNat + 4 * k)).isSome) :
    dotbElements d v n u s =
      .next ((s.tear ⟨d.toNat, 4 * n.toNat⟩).raiseFault .busError (d + BitVec.ofNat 32 (4 * i))).tick := by
  obtain ⟨m, hm⟩ := dotbLoop_of_isSome s.nans u (dst := d.toNat) h
  have hreach : dotbReach s.platform d.toNat v.toNat n.toNat = i + 1 := by simp only [dotbReach, hv, hw]
  simp only [dotbElements, hreach, hm, hw]

theorem dotbElements_of_writes (hw : firstElementError s.platform d.toNat 4 1 n.toNat .write = none) {m : Memory}
    (hm : dotbLoop s.nans u v.toNat d.toNat n.toNat 0 s.mem = .ok m) :
    dotbElements d v n u s = .next ({ s with mem := m }.complete).tick := by
  simp only [dotbElements, dotbReach_clean hv hw, hm, hw]

end

end Sys2Proof.Machine

namespace Sys2Proof.Claims
open Sys2Proof.Machine

theorem dot4_eq_dotOf (draw : Nat → Word) (op : Nat) (a b : Lanes) :
    dot4 draw op a b = dotOf (fun k => draw (op + k)) (lane a) (lane b) := rfl

theorem dotOf_congr (draw : Nat → Word) {u u' v v' : Nat → Word} (hu : ∀ k < 4, u k = u' k) (hv : ∀ k < 4, v k = v' k) :
    dotOf draw u v = dotOf draw u' v' := by
  simp only [dotOf, hu, hv, Nat.reduceLT]

/-- The address of an element inside the 2^32-byte space does not wrap. -/
theorem toNat_add_ofNat {a : Word} {k : Nat} (h : a.toNat + k < 2 ^ 32) : (a + BitVec.ofNat 32 k).toNat = a.toNat + k := by
  rw [BitVec.toNat_add, BitVec.toNat_ofNat]
  omega

section
variable {s : State} {d a v n : Word}

theorem checkOperands_dotb (ha : Fits s a 16 16) (hv : Fits s v 16 (16 * n.toNat)) (hd : Fits s d 4 (4 * n.toNat)) :
    checkOperands s.platform.memSize (operandsOf (.dotb d a v n)) = none := by
  refine checkOperands_of_fits ?_
  simp only [operandsOf, List.forall_mem_cons]
  exact ⟨ha, ⟨hv.1, by simpa [OperandKind.footprint, OperandKind.footprintLanes, ← Nat.mul_assoc] using hv.2⟩, hd, by simp⟩

/-- The errors of an element's lanes, by the element's own address. -/
theorem lanesError_element {off lanes : Nat} {acc : Access} (h : a.toNat + off < 2 ^ 32) :
    lanesError s.platform (a.toNat + off) lanes acc = true ↔ ¬ NoBusError s (a + BitVec.ofNat 32 off) lanes acc := by
  rw [not_noBusError_iff, toNat_add_ofNat h]

theorem lanesError_element_false {off lanes : Nat} {acc : Access} (h : a.toNat + off < 2 ^ 32) :
    lanesError s.platform (a.toNat + off) lanes acc = false ↔ NoBusError s (a + BitVec.ofNat 32 off) lanes acc := by
  rw [← Bool.not_eq_true, lanesError_element h, Classical.not_not]

/-- No error in the lanes of the vector array is none in any vector. -/
theorem firstElementError_vectors (h : NoBusError s v (4 * n.toNat) .read) :
    firstElementError s.platform v.toNat 16 4 n.toNat .read = none := by
  rw [firstElementError_none_iff]
  intro i hi
  rw [lanesError_false_iff]
  intro k hk
  rw [show v.toNat + 16 * i + 4 * k = v.toNat + 4 * (4 * i + k) by omega]
  exact h _ (by omega)

theorem firstElementError_outputs (h : NoBusError s d n.toNat .write) :
    firstElementError s.platform d.toNat 4 1 n.toNat .write = none := by
  rw [firstElementError_none_iff]
  intro i hi
  rw [lanesError_false_iff]
  intro k hk
  obtain rfl : k = 0 := by omega
  exact h i hi

end

/-- Settles O22: the resident vector is read first, then the vectors in order, and the writes are looked at last. -/
theorem dotbBusErrorsNameTheElement : Obligations.DotbBusErrorsNameTheElement := by
  intro s d a v n hp hn hfa hfv hfd
  have hc := checkOperands_dotb hfa hfv hfd
  have hresident : NoBusError s a 4 .read → Operand.readError s.platform ⟨a, .v4⟩ = false := (lanesError_false_iff _ _ _ _).2
  have hvec : ∀ i < n.toNat, v.toNat + 16 * i < 2 ^ 32 := fun i hi => by have := hp.2.1; have := hfv.2; omega
  have hout : ∀ i < n.toNat, d.toNat + 4 * i < 2 ^ 32 := fun i hi => by have := hp.2.1; have := hfd.2; omega
  refine ⟨fun ha => ?_, fun ha i hi hbefore herr => ?_, fun u ha hu hread i hi hbefore herr hvals => ?_⟩
  · exact ⟨_, exec_dotb_of_residentError hc hn (not_noBusError_iff.1 ha), faulted_raiseFault s .busError a⟩
  · have hfirst := firstElementError_eq_some hi ((lanesError_element (hvec i hi)).2 herr) fun j hj =>
      (lanesError_element_false (hvec j (Nat.lt_trans hj hi))).2 (hbefore j hj)
    exact ⟨_, exec_dotb_of_vectorError hc hn (hresident ha) hfirst, faulted_raiseFault s .busError _⟩
  · have hnone : firstElementError s.platform v.toNat 16 4 n.toNat .read = none :=
      (firstElementError_none_iff ..).2 fun j hj => (lanesError_element_false (hvec j hj)).2 (hread j hj)
    have hfirst := firstElementError_eq_some hi ((lanesError_element (hout i hi)).2 herr) fun j hj =>
      (lanesError_element_false (hout j (Nat.lt_trans hj hi))).2 (hbefore j hj)
    have hload : Operand.load s.mem ⟨a, .v4⟩ = .ok (stagedLanes ⟨a, .v4⟩ u) := Operand.load_of_readWord u hu
    exact ⟨_, (exec_dotb_of_reads hc hn (hresident ha) hnone hload).trans
      (dotbElements_of_writeError _ hnone hfirst hvals),
      (faulted_tear_raiseFault s ⟨d.toNat, 4 * n.toNat⟩ .busError _).tick⟩

/-- Settles O32: with the checks passed, N = 0 completes at once. -/
theorem dotbOfNothingCompletes : Obligations.DotbOfNothingCompletes := by
  intro s d a v ha hv hd
  refine ⟨_, exec_dotb_zero (checkOperands_dotb ha hv hd), ?_, rfl⟩
  constructor <;> simp

/-- Settles O33: the loop goes through `dotbMemory`, and reads element `i` of the `i`-th of these memories. -/
theorem dotbRunsInElementOrder : Obligations.DotbRunsInElementOrder := by
  intro s d a v n u hn hu hfv hread hvals hd
  have hu' : ReadableOperand s ⟨a, .v4⟩ u := hu
  have hnone := firstElementError_vectors hread
  obtain ⟨m, hm⟩ := dotbLoop_of_isSome s.nans (stagedLanes ⟨a, .v4⟩ u) (dst := d.toNat) hvals
  obtain ⟨hlast, hload⟩ := dotbLoop_memory _ _ _ _ s.mem (i := 0) hm
  rw [Nat.zero_add] at hlast hload
  refine ⟨_, fun i k => s.nans (7 * i + k), dotbMemory s.nans (stagedLanes ⟨a, .v4⟩ u) v.toNat d.toNat s.mem,
    fun i => lane (dotbVector v.toNat (dotbMemory s.nans (stagedLanes ⟨a, .v4⟩ u) v.toNat d.toNat s.mem i) i),
    (exec_dotb_of_reads (checkOperands_dotb hu.fits hfv hd.fits) hn hu'.readError hnone hu'.load).trans
      (dotbElements_of_writes _ hnone (firstElementError_outputs hd.clean) hm), ?_, rfl, hlast.symm, fun i hi => ?_⟩
  · constructor
    case memory => exact fun x hx => dotbLoop_read_outside _ _ _ _ _ _ _ hm x (by omega)
    all_goals rfl
  · refine ⟨(Memory.loadLanes_ok _ _ _ (hload i (Nat.zero_le i) hi)).2, congrArg (Memory.writeWord _ _) ?_⟩
    rw [dot4_eq_dotOf]
    exact dotOf_congr _ (fun k hk => lane_stagedLanes u hk) fun k _ => rfl

end Sys2Proof.Claims
end

section
/-! PROOFS. What each staged data command leaves in the lanes of its output (41_multiply, 43_inverse, 44_dot, 45_add,
46_scalar_multiply). -/

namespace Sys2Proof.Machine

/-! ### The lanes of the results -/

theorem lane_product33 (draw : Nat → Word) (a b : Lanes) {i j : Nat} (hi : i < 3) (hj : j < 3) :
    lane (product33 draw a b) (3 * i + j) =
      sumOfProducts3 draw (3 * (3 * i + j)) (fun k => elem33 a i k) (fun k => elem33 b k j) := by
  rw [product33, lanes33, lane_map_range _ (by omega), show (3 * i + j) / 3 = i by omega,
    show (3 * i + j) % 3 = j by omega]

theorem lane_scaleLanes (imm : Word) (draw : Nat → Word) (a : Lanes) {n l : Nat} (h : l < n) :
    lane (scaleLanes n imm draw a) l = fmul (draw l) (lane a l) imm :=
  lane_map_range _ h

end Sys2Proof.Machine

namespace Sys2Proof.Claims
open Sys2Proof.Machine

section
variable {s : State} {i : Instr} {srcA srcB dst : Operand} {u v : Nat → Word}

/-- What a command with one source leaves, in terms of the source's values. -/
theorem exists_completed_unary {f : (Nat → Word) → Lanes → Lanes} (ho : operandsOf i = [srcA, dst])
    (hm : ∀ s, exec i s = stagedUnary srcA dst f s) (hl : ∀ draw a, (f draw a).length = dst.kind.valueLanes)
    (ha : ReadableOperand s srcA u) (hd : WritableOperand s dst) :
    ∃ t, exec i s = .next t ∧ Completed s t dst.base.toNat dst.kind.footprint ∧
      Holds t.mem dst.base.toNat dst.kind.valueLanes (lane (f s.nans (stagedLanes srcA u))) ∧
      ∀ k < dst.kind.footprintLanes, (t.mem.readWord (dst.base.toNat + 4 * k)).isSome :=
  exists_completed_of_isStaged (f := fun draw vs => f draw (vs.getD 0 [])) ⟨ho, hm, fun _ _ => hl _ _⟩
    (.cons ha .nil) hd

/-- What a command with two sources leaves, in terms of the sources' values. -/
theorem exists_completed_binary {f : (Nat → Word) → Lanes → Lanes → Lanes} (ho : operandsOf i = [srcA, srcB, dst])
    (hm : ∀ s, exec i s = stagedBinary srcA srcB dst f s) (hl : ∀ draw a b, (f draw a b).length = dst.kind.valueLanes)
    (ha : ReadableOperand s srcA u) (hb : ReadableOperand s srcB v) (hd : WritableOperand s dst) :
    ∃ t, exec i s = .next t ∧ Completed s t dst.base.toNat dst.kind.footprint ∧
      Holds t.mem dst.base.toNat dst.kind.valueLanes (lane (f s.nans (stagedLanes srcA u) (stagedLanes srcB v))) ∧
      ∀ k < dst.kind.footprintLanes, (t.mem.readWord (dst.base.toNat + 4 * k)).isSome :=
  exists_completed_of_isStaged (f := fun draw vs => f draw (vs.getD 0 []) (vs.getD 1 [])) ⟨ho, hm, fun _ _ => hl _ _ _⟩
    (.cons ha (.cons hb .nil)) hd

variable {k : OperandKind} {d a b : Word}

/-- The adds, over any operand kind (45_add R210, R212, R214). -/
theorem exists_completed_addLanes (ho : operandsOf i = [⟨a, k⟩, ⟨b, k⟩, ⟨d, k⟩])
    (hm : ∀ s, exec i s = stagedBinary ⟨a, k⟩ ⟨b, k⟩ ⟨d, k⟩ (addLanes k.valueLanes) s)
    (ha : ReadableOperand s ⟨a, k⟩ u) (hb : ReadableOperand s ⟨b, k⟩ v) (hd : WritableOperand s ⟨d, k⟩) :
    ∃ t, exec i s = .next t ∧ Completed s t d.toNat k.footprint ∧
      Holds t.mem d.toNat k.valueLanes (fun l => fadd (s.nans l) (u l) (v l)) ∧
      ∀ l < k.footprintLanes, (t.mem.readWord (d.toNat + 4 * l)).isSome := by
  obtain ⟨t, ht, hc, hv, hp⟩ := exists_completed_binary ho hm (addLanes_length _) ha hb hd
  refine ⟨t, ht, hc, hv.congr fun l hl => ?_, hp⟩
  rw [lane_addLanes _ _ _ hl, lane_stagedLanes (o := ⟨a, k⟩) u hl, lane_stagedLanes (o := ⟨b, k⟩) v hl]

/-- The products with a scalar, over any operand kind (46_scalar_multiply R220, R222, R224). -/
theorem exists_completed_scaleLanes {imm : Word} (ho : operandsOf i = [⟨a, k⟩, ⟨d, k⟩])
    (hm : ∀ s, exec i s = stagedUnary ⟨a, k⟩ ⟨d, k⟩ (scaleLanes k.valueLanes imm) s)
    (ha : ReadableOperand s ⟨a, k⟩ u) (hd : WritableOperand s ⟨d, k⟩) :
    ∃ t, exec i s = .next t ∧ Completed s t d.toNat k.footprint ∧
      Holds t.mem d.toNat k.valueLanes (fun l => fmul (s.nans l) (u l) imm) ∧
      ∀ l < k.footprintLanes, (t.mem.readWord (d.toNat + 4 * l)).isSome := by
  obtain ⟨t, ht, hc, hv, hp⟩ := exists_completed_unary ho hm (scaleLanes_length _ _) ha hd
  refine ⟨t, ht, hc, hv.congr fun l hl => ?_, hp⟩
  rw [lane_scaleLanes _ _ _ hl, lane_stagedLanes (o := ⟨a, k⟩) u hl]

end

/-! ### Sums and products with a scalar -/

/-- Settles O34, by the sums over the operand kind M33, the padding lane being one of the ten the store wrote. -/
theorem add33AddsLanes : Obligations.Add33AddsLanes := by
  intro s d a b u v ha hb hd
  obtain ⟨t, ht, hc, hv, hp⟩ := exists_completed_addLanes (i := .add33 d a b) (k := .m33) rfl (fun _ => rfl) ha hb hd
  exact ⟨t, s.nans, ht, hc, hv, hp 9 (show 9 < 10 by decide)⟩

/-- Settles O35, by the sums over the operand kind M44. -/
theorem add44AddsLanes : Obligations.Add44AddsLanes := by
  intro s d a b u v ha hb hd
  obtain ⟨t, ht, hc, hv, -⟩ := exists_completed_addLanes (i := .add44 d a b) (k := .m44) rfl (fun _ => rfl) ha hb hd
  exact ⟨t, s.nans, ht, hc, hv⟩

/-- Settles O36, by the sums over the operand kind V4. -/
theorem addv4AddsLanes : Obligations.Addv4AddsLanes := by
  intro s d a b u v ha hb hd
  obtain ⟨t, ht, hc, hv, -⟩ := exists_completed_addLanes (i := .addv4 d a b) (k := .v4) rfl (fun _ => rfl) ha hb hd
  exact ⟨t, s.nans, ht, hc, hv⟩

/-- Settles O37, by the scaled lanes of the operand kind M33, the padding lane being one of the ten the store wrote. -/
theorem smul33ScalesLanes : Obligations.Smul33ScalesLanes := by
  intro s d a imm u ha hd
  obtain ⟨t, ht, hc, hv, hp⟩ := exists_completed_scaleLanes (i := .smul33 d a imm) (k := .m33) rfl (fun _ => rfl) ha hd
  exact ⟨t, s.nans, ht, hc, hv, hp 9 (show 9 < 10 by decide)⟩

/-- Settles O38, by the scaled lanes of the operand kind M44. -/
theorem smul44ScalesLanes : Obligations.Smul44ScalesLanes := by
  intro s d a imm u ha hd
  obtain ⟨t, ht, hc, hv, -⟩ := exists_completed_scaleLanes (i := .smul44 d a imm) (k := .m44) rfl (fun _ => rfl) ha hd
  exact ⟨t, s.nans, ht, hc, hv⟩

/-- Settles O39, by the scaled lanes of the operand kind V4. -/
theorem smulv4ScalesLanes : Obligations.Smulv4ScalesLanes := by
  intro s d a imm u ha hd
  obtain ⟨t, ht, hc, hv, -⟩ := exists_completed_scaleLanes (i := .smulv4 d a imm) (k := .v4) rfl (fun _ => rfl) ha hd
  exact ⟨t, s.nans, ht, hc, hv⟩

/-! ### Products, the dot product and the inverse -/

/-- Settles O25, by the lanes of the staged product. -/
theorem mul33ComputesTheProduct : Obligations.Mul33ComputesTheProduct := by
  intro s d a b u v ha hb hd
  obtain ⟨t, ht, hc, hval, hp⟩ := exists_completed_binary (i := .mul33 d a b) (srcA := ⟨a, .m33⟩) (srcB := ⟨b, .m33⟩)
    (dst := ⟨d, .m33⟩) rfl (fun _ => rfl) product33_length ha hb hd
  refine ⟨t, fun l k => s.nans (3 * l + k), ht, hc, hp 9 (show 9 < 10 by decide), fun i hi j hj => ?_⟩
  have hu : ∀ l < 9, lane (stagedLanes ⟨a, .m33⟩ u) l = u l := fun l hl => lane_stagedLanes u hl
  have hv : ∀ l < 9, lane (stagedLanes ⟨b, .m33⟩ v) l = v l := fun l hl => lane_stagedLanes v hl
  refine (hval (3 * i + j) (show 3 * i + j < 9 by omega)).trans (congrArg some ?_)
  rw [lane_product33 _ _ _ hi hj]
  simp (disch := omega) only [sumOfProducts3, elem33, hu, hv, Nat.reduceMul, Nat.add_zero, Nat.zero_add]

/-- Settles O26, by the lanes of the staged product. -/
theorem mul44ComputesTheProduct : Obligations.Mul44ComputesTheProduct := by
  intro s d a b u v ha hb hd
  obtain ⟨t, ht, hc, hval, -⟩ := exists_completed_binary (i := .mul44 d a b) (srcA := ⟨a, .m44⟩) (srcB := ⟨b, .m44⟩)
    (dst := ⟨d, .m44⟩) rfl (fun _ => rfl) product44_length ha hb hd
  refine ⟨t, fun l k => s.nans (4 * l + k), ht, hc, fun i hi j hj => ?_⟩
  have hu : ∀ l < 16, lane (stagedLanes ⟨a, .m44⟩ u) l = u l := fun l hl => lane_stagedLanes u hl
  have hv : ∀ l < 16, lane (stagedLanes ⟨b, .m44⟩ v) l = v l := fun l hl => lane_stagedLanes v hl
  refine (hval (4 * i + j) (show 4 * i + j < 16 by omega)).trans (congrArg some ?_)
  rw [lane_product44 _ _ _ hi hj]
  simp (disch := omega) only [sumOfProducts4, elem44, hu, hv, Nat.reduceMul, Nat.add_zero, Nat.zero_add]

/-- Settles O27, by the lanes of the staged product, the vector's element the first multiplicand. -/
theorem mul44vComputesTheProduct : Obligations.Mul44vComputesTheProduct := by
  intro s d a x u v ha hx hd
  obtain ⟨t, ht, hc, hval, -⟩ := exists_completed_binary (i := .mul44v d a x) (srcA := ⟨a, .m44⟩) (srcB := ⟨x, .v4⟩)
    (dst := ⟨d, .v4⟩) rfl (fun _ => rfl) product44V_length ha hx hd
  refine ⟨t, fun l k => s.nans (4 * l + k), ht, hc, fun i hi => ?_⟩
  have hu : ∀ l < 16, lane (stagedLanes ⟨a, .m44⟩ u) l = u l := fun l hl => lane_stagedLanes u hl
  have hv : ∀ l < 4, lane (stagedLanes ⟨x, .v4⟩ v) l = v l := fun l hl => lane_stagedLanes v hl
  refine (hval i hi).trans (congrArg some ?_)
  rw [lane_product44V _ _ _ hi]
  simp (disch := omega) only [sumOfProducts4, elem44, hu, hv, Nat.add_zero]

/-- Settles O31, by the one lane of the staged result. -/
theorem dotComputesTheSum : Obligations.DotComputesTheSum := by
  intro s d a b u v ha hb hd
  obtain ⟨t, ht, hc, hval, -⟩ := exists_completed_binary (i := .dot d a b) (srcA := ⟨a, .v4⟩) (srcB := ⟨b, .v4⟩)
    (dst := ⟨d, .f32⟩) (f := fun draw x y => [dot4 draw 0 x y]) rfl (fun _ => rfl) (fun _ _ _ => rfl) ha hb hd
  refine ⟨t, fun k => s.nans (0 + k), ht, hc, (hval 0 Nat.one_pos).trans (congrArg some ?_)⟩
  exact dotOf_congr _ (fun k hk => lane_stagedLanes u hk) fun k hk => lane_stagedLanes v hk

/-- Lane 4i + j of the block sequence of 43_inverse is element (i, j) of its matrix form. -/
theorem lane_inverse44 (draw u : Nat → Word) {i j : Nat} (hi : i < 4) (hj : j < 4) :
    lane (inverse44 draw ((List.range 16).map u)) (4 * i + j) = inverseElement draw u i j := by
  rcases (by omega : i = 0 ∨ i = 1 ∨ i = 2 ∨ i = 3) with rfl | rfl | rfl | rfl <;>
    rcases (by omega : j = 0 ∨ j = 1 ∨ j = 2 ∨ j = 3) with rfl | rfl | rfl | rfl <;> rfl

/-- Settles O30, by the lanes of the staged inverse. -/
theorem inv44ComputesTheBlockInverse : Obligations.Inv44ComputesTheBlockInverse := by
  intro s d a u ha hd
  obtain ⟨t, ht, hc, hval, -⟩ := exists_completed_unary (i := .inv44 d a) (srcA := ⟨a, .m44⟩) (dst := ⟨d, .m44⟩)
    rfl (fun _ => rfl) inverse44_length ha hd
  exact ⟨t, s.nans, ht, hc, fun i hi j hj =>
    (hval (4 * i + j) (show 4 * i + j < 16 by omega)).trans (congrArg some (lane_inverse44 s.nans u hi hj))⟩

end Sys2Proof.Claims
end

section
/-! PROOFS. The engine's turn, and the invariant through every move (40_control R130, R136, R138; 10_state R46; 60_exceptions R230,
R255; 70_reset R270). -/

namespace Sys2Proof.Machine

variable {s t : State}

/-! ### The engine's turn (40_control R130) -/

theorem engineTurn_of_not_running (h : s.running = false) : engineTurn s = .next s := by
  simp [engineTurn, h]

theorem engineTurn_of_command {i : Instr} (hr : s.running = true) (hf : s.fetch = .command i)
    (hd : s.breaksDuty i = false) :
    (∀ t, exec i s = .next t → engineTurn s = .next (t.noteRun s.cmdPtr i)) ∧
    (∀ f, exec i s = .fault f → engineTurn s = .fault f) ∧ (∀ r, exec i s = .refused r → engineTurn s = .refused r) := by
  refine ⟨fun t h => ?_, fun f h => ?_, fun r h => ?_⟩ <;> simp [engineTurn, hr, hf, hd, h]

theorem State.fetch_misaligned (h : s.cmdPtr.toNat % 32 ≠ 0) : s.fetch = .trap .fetchMisaligned s.cmdPtr := if_pos h

theorem State.fetch_range (ha : s.cmdPtr.toNat % 32 = 0) (h : s.platform.memSize < s.cmdPtr.toNat + 32) :
    s.fetch = .trap .fetchRange s.cmdPtr := by
  simp [State.fetch, ha, h]

theorem State.fetch_busError (ha : s.cmdPtr.toNat % 32 = 0) (hr : s.cmdPtr.toNat + 32 ≤ s.platform.memSize)
    (h : busErrorAt s.platform s.cmdPtr.toNat 32 .read = true) : s.fetch = .trap .busError s.cmdPtr := by
  simp [State.fetch, ha, Nat.not_lt.2 hr, h]

/-! ### STATUS and the fault registers -/

/-- ERR_CODE after a fault is one of the codes of 60_exceptions R231. -/
theorem FaultCode.byte_reported (code : FaultCode) : code.byte ≠ 0 ∧ code.byte.toNat ≤ 7 := by
  cases code <;> decide

namespace State.StatusOk

theorem congr (h : s.StatusOk) (hb : t.busy = s.busy := by rfl) (hd : t.done = s.done := by rfl)
    (he : t.err = s.err := by rfl) (hc : t.errCode = s.errCode := by rfl) (ha : t.errAddr = s.errAddr := by rfl) :
    t.StatusOk := by
  obtain ⟨h1, h2, h3, h4, h5, h6⟩ := h
  constructor <;> simp only [hb, hd, he, hc, ha] <;> assumption

/-- A fault ends a run, which had left DONE and the fault registers at 0 (60_exceptions R230). -/
theorem raiseFault (h : s.StatusOk) (hb : s.busy = true) (code : FaultCode) (addr : Word) :
    (s.raiseFault code addr).StatusOk where
  busyNotDone h' := absurd h' (by simp)
  doneXorErr h' := absurd h'.1 (by simp [(h.busyNotDone hb).1])
  busyNoFault h' := absurd h' (by simp)
  doneNoFault h' := absurd h' (by simp [(h.busyNotDone hb).1])
  errHasCode _ := code.byte_reported.1
  codeReported := code.byte_reported.2

/-- HALT ends a run that raised no fault (40_control R136). -/
theorem halt (h : s.StatusOk) (hb : s.busy = true) : s.halt.StatusOk where
  busyNotDone h' := absurd h' (by simp)
  doneXorErr h' := absurd h'.2 (by simp [(h.busyNotDone hb).2])
  busyNoFault h' := absurd h' (by simp)
  doneNoFault _ := h.busyNoFault hb
  errHasCode h' := absurd h' (by simp [(h.busyNotDone hb).2])
  codeReported := h.codeReported

/-- An accepted START clears every register STATUS shows but BUSY (10_state R52). -/
theorem start (s : State) : s.start.StatusOk := by
  constructor <;> simp

/-- Clearing DONE or ERR by a write leaves no flag that was not set (10_state R46). -/
theorem writeStatus (h : s.StatusOk) (v : Word) : (s.writeStatus v).StatusOk where
  busyNotDone h' := by simp [h.busyNotDone h']
  doneXorErr h' := by
    simp only [writeStatus_done, writeStatus_err, Bool.and_eq_true] at h'
    exact h.doneXorErr ⟨h'.1.1, h'.2.1⟩
  busyNoFault := h.busyNoFault
  doneNoFault h' := h.doneNoFault (by simp only [writeStatus_done, Bool.and_eq_true] at h'; exact h'.1)
  errHasCode h' := h.errHasCode (by simp only [writeStatus_err, Bool.and_eq_true] at h'; exact h'.1)
  codeReported := h.codeReported

end State.StatusOk

theorem State.AtReset.statusOk (h : s.AtReset) : s.StatusOk := by
  obtain ⟨-, hb, hd, he, hc, -, ha, -⟩ := h
  constructor <;> simp [hb, hd, he, hc]

theorem State.resetRegisters_atReset (s : State) : s.resetRegisters.AtReset := by
  constructor <;> rfl

theorem State.AtReset.congr (h : s.AtReset) (hi : t.irqEn = s.irqEn := by rfl) (hb : t.busy = s.busy := by rfl)
    (hd : t.done = s.done := by rfl) (he : t.err = s.err := by rfl) (hc : t.errCode = s.errCode := by rfl)
    (hp : t.cmdPtr = s.cmdPtr := by rfl) (ha : t.errAddr = s.errAddr := by rfl)
    (hn : t.cmdCount = s.cmdCount := by rfl) : t.AtReset := by
  cases h
  constructor <;> simp only [hi, hb, hd, he, hc, hp, ha, hn] <;> assumption

/-! ### The invariant through a change of state -/

/-- The move leaves the platform, and memory canonical and inside the data space. -/
structure KeepsMemorySound (s t : State) : Prop where
  platform : t.platform = s.platform
  wf : s.mem.wf → t.mem.wf
  inRange : ∀ c ∈ t.mem, c ∈ s.mem ∨ c.1 < s.platform.memSize

theorem KeepsMemorySound.of_eq (hp : t.platform = s.platform) (hm : t.mem = s.mem) : KeepsMemorySound s t :=
  ⟨hp, fun h => hm ▸ h, fun _ h => .inl (hm ▸ h)⟩

theorem KeepsMemorySound.of_writesOnly {r : Region} (hp : t.platform = s.platform) (h : WritesOnly s r t.mem) :
    KeepsMemorySound s t :=
  ⟨hp, h.wf, h.inRange⟩

theorem KeepsMemorySound.of_abandonRun (hp : t.platform = s.platform) (hm : t.mem = s.abandonRun.mem) :
    KeepsMemorySound s t :=
  ⟨hp, fun h => hm ▸ State.abandonRun_wf h, fun _ h => State.abandonRun_mem (hm ▸ h)⟩

namespace State.Inv

theorem next (h : s.Inv) (hm : KeepsMemorySound s t) (hs : t.phase ≠ .unpowered → t.StatusOk)
    (hr : t.phase = .inReset → t.AtReset) : t.Inv where
  memCanonical := hm.wf h.memCanonical
  memInRange c hc := hm.platform ▸ (hm.inRange c hc).elim (h.memInRange c) id
  status := hs
  heldInReset := hr
  platformOk := hm.platform ▸ h.platformOk

/-- In a block that operates the registers have only to be sound. -/
theorem next_operating (h : s.Inv) (hm : KeepsMemorySound s t) (hop : t.phase = .operating) (hs : t.StatusOk) : t.Inv :=
  h.next hm (fun _ => hs) fun hr => absurd (hop.symm.trans hr) (by decide)

/-- A change that reaches no register of the block and leaves its phase. -/
theorem next_of_registers (h : s.Inv) (hm : KeepsMemorySound s t) (hph : t.phase = s.phase := by rfl)
    (hi : t.irqEn = s.irqEn := by rfl) (hb : t.busy = s.busy := by rfl) (hd : t.done = s.done := by rfl)
    (he : t.err = s.err := by rfl) (hc : t.errCode = s.errCode := by rfl) (hp : t.cmdPtr = s.cmdPtr := by rfl)
    (ha : t.errAddr = s.errAddr := by rfl) (hn : t.cmdCount = s.cmdCount := by rfl) : t.Inv :=
  h.next hm (fun hs => (h.status (hph ▸ hs)).congr hb hd he hc ha)
    fun hr => (h.heldInReset (hph ▸ hr)).congr hi hb hd he hc hp ha hn

theorem schedule (h : s.Inv) (l : List Move) : { s with schedule := l }.Inv :=
  h.next_of_registers (.of_eq rfl rfl)

theorem statusOk_of_running (h : s.Inv) (hr : s.running = true) : s.StatusOk :=
  h.status (by rw [(s.running_iff.1 hr).2]; decide)

/-! ### The invariant through each move -/

theorem of_execResult {i : Instr} (h : s.Inv) (hr : s.running = true) (hx : ExecResult i s t) : t.Inv := by
  obtain ⟨hb, hop⟩ := s.running_iff.1 hr
  have hs := h.statusOk_of_running hr
  cases hx with
  | completed m k r ht hi ho hm =>
    subst ht
    exact h.next_operating (.of_writesOnly rfl hm) hop hs.congr
  | halted hi ht =>
    subst ht
    exact h.next_operating (.of_eq rfl rfl) hop ((hs.halt hb).congr)
  | faulted m code addr k r ht ho hm =>
    subst ht
    exact h.next_operating (.of_writesOnly rfl hm) hop ((hs.raiseFault hb code addr).congr)

theorem engineTurn (h : s.Inv) (ht : engineTurn s = .next t) : t.Inv := by
  obtain ⟨-, rfl⟩ | ⟨hr, ⟨code, addr, -, rfl⟩ | ⟨i, u, -, -, hu, rfl⟩⟩ := engineTurn_next ht
  · exact h
  · obtain ⟨hb, hop⟩ := s.running_iff.1 hr
    exact h.next_operating (.of_eq rfl rfl) hop ((h.statusOk_of_running hr).raiseFault hb code addr)
  · exact (h.of_execResult hr (exec_result hu)).next_of_registers (.of_eq rfl rfl)

theorem resetBlock (h : s.Inv) : s.resetBlock.Inv := by
  rw [State.resetBlock_eq]
  have hreset : State.AtReset { s.resetRegisters with mem := s.abandonRun.mem, draws := s.draws + 1 } :=
    s.resetRegisters_atReset.congr
  exact h.next (.of_abandonRun rfl rfl) (fun _ => hreset.statusOk) fun _ => hreset

theorem assertReset (h : s.Inv) : s.assertReset.Inv := by
  have hreset : s.assertReset.AtReset := s.resetRegisters_atReset.congr
  refine h.next (.of_abandonRun ?_ ?_) (fun _ => hreset.statusOk) fun _ => hreset <;>
    rw [State.assertReset, State.resetBlock_eq]
  rfl

theorem releaseReset (h : s.Inv) : s.releaseReset.Inv := by
  unfold State.releaseReset
  split
  · next hr => exact h.next_operating (.of_eq rfl rfl) rfl ((h.heldInReset hr).statusOk.congr)
  · exact h

theorem losePower (h : s.Inv) : s.losePower.Inv := by
  have hph : s.losePower.phase = .unpowered := by rw [State.losePower_eq]; rfl
  refine h.next (.of_abandonRun ?_ ?_) (fun hs => absurd hph hs) fun hr => absurd (hph.symm.trans hr) (by decide) <;>
    rw [State.losePower_eq]
  rfl

theorem readRegAt (h : s.Inv) (w : Fin 64) : (s.readRegAt w).Inv := by
  unfold State.readRegAt State.sawRegister
  split <;> exact h.next_of_registers (.of_eq rfl rfl)

theorem writeCtrl (h : s.Inv) (hop : s.phase = .operating) (v : Word) : (s.writeCtrl v).Inv := by
  unfold State.writeCtrl
  split
  · exact h.resetBlock
  · have hs := h.status (by rw [hop]; decide)
    dsimp only
    split
    · exact h.next_operating (.of_eq rfl rfl) hop (State.StatusOk.start _)
    · exact h.next_operating (.of_eq rfl rfl) hop hs.congr

theorem writeRegAt (h : s.Inv) (w : Fin 64) (v : Word) : (s.writeRegAt w v).Inv := by
  unfold State.writeRegAt State.writeReg
  split
  · next hop =>
    have hs := h.status (by rw [hop]; decide)
    cases regAtWord w with
    | ctrl => exact h.writeCtrl hop v
    | status => exact h.next_operating (.of_eq rfl rfl) hop (hs.writeStatus v)
    | cmdPtr =>
      dsimp only
      split
      · exact h
      · exact h.next_operating (.of_eq rfl rfl) hop hs.congr
    | id | errAddr | cmdCount | reserved => exact h
  · exact h

theorem readMem {a n : Nat} (h : s.Inv) (ht : s.readMem a n = .next t) : t.Inv := by
  obtain ⟨-, bs, -, rfl⟩ := State.readMem_next ht
  exact h.next_of_registers (.of_eq rfl rfl)

theorem writeMem {a : Nat} {bs : List Byte} (h : s.Inv) (ht : s.writeMem a bs = .next t) : t.Inv := by
  obtain ⟨hr, l, rfl⟩ := State.writeMem_next ht
  have hm : KeepsMemorySound s { s with mem := s.mem.writeBytes a bs, hostWrote := l } :=
    ⟨rfl, fun hw => Memory.writeBytes_wf bs hw a, fun c hc => (Memory.mem_writeBytes bs hc).symm.imp id fun hc => by omega⟩
  exact h.next_of_registers hm

theorem moveTurn {m : Move} (h : s.Inv) (ht : moveTurn m s = .next t) : t.Inv := by
  cases m with
  | engine => exact h.engineTurn ht
  | assertReset => cases ht; exact h.assertReset
  | releaseReset => cases ht; exact h.releaseReset
  | losePower => cases ht; exact h.losePower
  | readReg w => cases ht; exact h.readRegAt w
  | writeReg w v => cases ht; exact h.writeRegAt w v
  | readMem a n => exact h.readMem ht
  | writeMem a bs => exact h.writeMem ht

theorem step (h : s.Inv) (ht : step s = .next t) : t.Inv := by
  cases hs : s.schedule with
  | nil => exact h.engineTurn (step_of_empty hs ▸ ht)
  | cons m rest => exact (h.schedule rest).moveTurn (step_of_schedule hs ▸ ht)

end State.Inv

theorem State.resetOn_atReset (p : Platform) : (State.resetOn p).AtReset := by
  constructor <;> rfl

theorem State.resetOn_inv {p : Platform} (hp : p.wf) : (State.resetOn p).Inv where
  memCanonical := List.Pairwise.nil
  memInRange _ hc := absurd hc List.not_mem_nil
  status _ := (State.resetOn_atReset p).statusOk
  heldInReset _ := State.resetOn_atReset p
  platformOk := hp

end Sys2Proof.Machine

namespace Sys2Proof.Claims
open Sys2Proof.Machine

/-- A fetch that traps is the step's fault, at CMD_PTR. -/
theorem EngineTurnIn.exists_faulted {s u : State} {code : FaultCode} (h : EngineTurnIn s u) (hb : u.busy = true)
    (hop : u.phase = .operating) (hf : u.fetch = .trap code u.cmdPtr) :
    ∃ t, step s = .next t ∧ Faulted u t code.byte u.cmdPtr 0 0 :=
  ⟨_, h.step_eq.trans (engineTurn_of_trap (u.running_iff.2 ⟨hb, hop⟩) hf), faulted_raiseFault u code u.cmdPtr⟩

/-- Settles O6: the fetch reaches the decoder, and the engine's turn is exec of what it decodes. -/
theorem stepRunsDecodedCommand : Obligations.StepRunsDecodedCommand := by
  intro s u c i hs hf hc hd
  have hfetch : u.fetch = .command i := by
    rw [State.fetch_decodes hf.aligned hf.inRange hf.clean hf.duty hf.words.loadLanes, hc]
  obtain ⟨hnext, hfault, hrefused⟩ := engineTurn_of_command hf.running hfetch hd
  rw [hs.step_eq]
  cases hx : exec i u with
  | next t => exact hnext t hx
  | fault f => exact hfault f hx
  | refused r => exact hrefused r hx

/-- Settles O7, by the first check of the fetch that fails. -/
theorem fetchFaultsInOrder : Obligations.FetchFaultsInOrder := by
  intro s u hs hb hop
  exact ⟨fun ha => hs.exists_faulted hb hop (State.fetch_misaligned ha),
    fun ha hr => hs.exists_faulted hb hop (State.fetch_range ha hr),
    fun ha hr he => hs.exists_faulted hb hop (State.fetch_busError ha hr he)⟩

/-- Settles O8: no run goes on. -/
theorem idleEngineChangesNothing : Obligations.IdleEngineChangesNothing := by
  intro s u hs hidle
  rw [hs.step_eq]
  refine engineTurn_of_not_running (Bool.eq_false_iff.2 fun hr => ?_)
  obtain ⟨hb, hop⟩ := u.running_iff.1 hr
  rcases hidle with h | h
  · exact Bool.false_ne_true (h.symm.trans hb)
  · exact h hop

/-- Settles O10, move by move. -/
theorem stepKeepsInvariant : Obligations.StepKeepsInvariant :=
  fun _ _ h ht => h.step ht

/-- Settles O11: memory is empty and every register at its reset value. -/
theorem resetMeetsInvariant : Obligations.ResetMeetsInvariant :=
  ⟨State.resetOn_inv (by decide), fun _ => State.resetOn_inv⟩

/-- Settles O12, by the definition of the state after reset. -/
theorem resetValues : Obligations.ResetValues :=
  fun _ => ⟨rfl, rfl, rfl, rfl, rfl, rfl, rfl, rfl, rfl, rfl, rfl⟩

/-- Settles O23, by the definitions of completion and of HALT. -/
theorem haltEndsTheRun : Obligations.HaltEndsTheRun := fun s => exec_halt s

/-- Settles O24, by the definition of completion. -/
theorem nopOnlyCompletes : Obligations.NopOnlyCompletes := fun _ => rfl

end Sys2Proof.Claims
end

section
/-! PROOFS. The host's reads and writes of the register block (10_state R43 to R53). -/

namespace Sys2Proof.Machine

variable {s : State}

/-! ### The register block (10_state R43) -/

theorem regAtWord_of_regAddr {p : Platform} {w : Fin 64} {off : Nat} (h : p.regAddr w = p.mmioBase + off) :
    regAtWord w = regAtOffset off := by
  rw [regAtWord, show 4 * w.val = off from Nat.add_left_cancel h]

theorem exists_regAddr_eq_iff (p : Platform) (a : Nat) :
    (∃ w, p.regAddr w = a) ↔ p.mmioBase ≤ a ∧ a < p.mmioBase + 256 ∧ (a - p.mmioBase) % 4 = 0 := by
  constructor
  · rintro ⟨w, rfl⟩
    have := w.isLt
    simp only [Platform.regAddr]
    omega
  · rintro ⟨hle, hlt, hmod⟩
    refine ⟨⟨(a - p.mmioBase) / 4, by omega⟩, ?_⟩
    simp only [Platform.regAddr]
    omega

theorem regAtOffset_reserved {off : Nat} (h : 0x18 ≤ off) : regAtOffset off = .reserved := by
  rw [regAtOffset, if_neg (by omega), if_neg (by omega), if_neg (by omega), if_neg (by omega), if_neg (by omega),
    if_neg (by omega)]

theorem regAtOffset_eq_status_iff {off : Nat} : regAtOffset off = .status ↔ off = 0x08 := by
  rcases Nat.lt_or_ge off 0x18 with h | h
  · have table : ∀ off < 0x18, regAtOffset off = .status ↔ off = 0x08 := by decide
    exact table off h
  · rw [regAtOffset_reserved h]
    exact iff_of_false nofun (by omega)

/-- ID, ERR_ADDR, CMD_COUNT and the reserved offsets. -/
theorem regAtOffset_readOnly {off : Nat} (h : off = 0x00 ∨ 0x10 ≤ off) :
    regAtOffset off = .id ∨ regAtOffset off = .errAddr ∨ regAtOffset off = .cmdCount ∨ regAtOffset off = .reserved := by
  rcases Nat.lt_or_ge off 0x18 with h' | h'
  · have table : ∀ off < 0x18, off = 0x00 ∨ 0x10 ≤ off → regAtOffset off = .id ∨ regAtOffset off = .errAddr ∨
        regAtOffset off = .cmdCount ∨ regAtOffset off = .reserved := by decide
    exact table off h' h
  · exact .inr (.inr (.inr (regAtOffset_reserved h')))

theorem step_writeReg {w : Fin 64} {off : Nat} {v : Word} {rest : List Move}
    (hw : s.platform.regAddr w = s.platform.mmioBase + off) (hs : s.schedule = .writeReg w v :: rest) :
    step s = .next ({ s with schedule := rest }.writeReg v (regAtOffset off)) := by
  rw [step_of_schedule hs, ← regAtWord_of_regAddr hw]
  rfl

theorem State.writeReg_operating (h : s.phase = .operating) (v : Word) :
    s.writeReg v .ctrl = s.writeCtrl v ∧ s.writeReg v .status = s.writeStatus v ∧
      s.writeReg v .cmdPtr = (if s.busy then s else { s with cmdPtr := v }) := by
  simp [State.writeReg, h]

theorem State.writeReg_not_operating (h : s.phase ≠ .operating) (v : Word) (r : Reg) : s.writeReg v r = s :=
  if_neg h

/-- The registers the host cannot write (10_state R44, R48 to R50). -/
theorem State.writeReg_readOnly (s : State) (v : Word) {r : Reg}
    (h : r = .id ∨ r = .errAddr ∨ r = .cmdCount ∨ r = .reserved) : s.writeReg v r = s := by
  rcases h with rfl | rfl | rfl | rfl <;> exact ite_self s

section
variable {v : Word} (hreset : v.getLsbD 2 = false)
include hreset

theorem State.writeCtrl_starts (hstart : v.getLsbD 0 = true) (hb : s.busy = false) :
    s.writeCtrl v = State.start { s with irqEn := v.getLsbD 1 } := by
  simp only [State.writeCtrl, hreset, hstart, hb, Bool.false_eq_true, if_false, Bool.not_false, Bool.and_self, if_true]

theorem State.writeCtrl_busy (hb : s.busy = true) : s.writeCtrl v = { s with irqEn := v.getLsbD 1 } := by
  simp only [State.writeCtrl, hreset, hb, Bool.false_eq_true, if_false, Bool.not_true, Bool.and_false]

theorem State.writeCtrl_no_start (hstart : v.getLsbD 0 = false) : s.writeCtrl v = { s with irqEn := v.getLsbD 1 } := by
  simp only [State.writeCtrl, hreset, hstart, Bool.false_eq_true, if_false, Bool.false_and]

end

theorem State.writeCtrl_softReset {v : Word} (h : v.getLsbD 2 = true) : s.writeCtrl v = s.resetBlock := if_pos h

/-- Bit 1 of the word clears DONE, bit 2 clears ERR (10_state R46). -/
theorem State.writeStatus_eq (s : State) (v : Word) :
    s.writeStatus v = { s with done := if v.getLsbD 1 then false else s.done, err := if v.getLsbD 2 then false else s.err } := by
  unfold State.writeStatus
  cases v.getLsbD 1 <;> cases v.getLsbD 2 <;> simp

/-! ### The words the host reads (10_state R44 to R50) -/

theorem toNat_append_eq_add {m n : Nat} (x : BitVec m) (y : BitVec n) :
    (x ++ y).toNat = x.toNat * 2 ^ n + y.toNat := by
  rw [BitVec.toNat_append, ← Nat.shiftLeft_add_eq_or_of_lt y.isLt, Nat.shiftLeft_eq]

theorem State.statusWord_toNat (s : State) :
    s.statusWord.toNat = s.busy.toNat + 2 * s.done.toNat + 4 * s.err.toNat + 256 * s.errCode.toNat := by
  simp only [State.statusWord, toNat_append_eq_add, BitVec.toNat_ofBool, BitVec.toNat_ofNat]
  omega

theorem State.ctrlWord_toNat (s : State) : s.ctrlWord.toNat = 2 * s.irqEn.toNat := by
  simp only [State.ctrlWord, toNat_append_eq_add, BitVec.toNat_ofBool, BitVec.toNat_ofNat]
  omega

theorem State.regValue_cmdPtr (s : State) :
    s.regValue .cmdPtr = s.cmdPtr ∨ (s.busy = true ∧ s.regValue .cmdPtr = s.cmdPtr + 32) := by
  unfold State.regValue
  dsimp only
  split
  · next h => exact .inr ⟨(Bool.and_eq_true_iff.1 h).1, rfl⟩
  · exact .inl rfl

/-- A register read records the value and, of STATUS showing DONE or ERR, makes the engine's writes visible (20_memory R83). -/
theorem State.readRegAt_eq (s : State) (w : Fin 64) :
    s.readRegAt w = { s with
      draws := s.draws + 1, hostRead := some (.word (s.regValue (regAtWord w))),
      unseenWrote := if regAtWord w = .status ∧ s.showsEnd = true then [] else s.unseenWrote } := by
  have hshows : State.showsEnd { s with hostRead := some (.word (s.regValue (regAtWord w))) } = s.showsEnd := rfl
  unfold State.readRegAt State.sawRegister
  rw [hshows]
  split <;> rfl

end Sys2Proof.Machine

namespace Sys2Proof.Claims
open Sys2Proof.Machine

/-- Settles O53: the write starts a run, or, a run going on, reaches IRQ_EN alone. -/
theorem startBeginsARun : Obligations.StartBeginsARun := by
  intro s w v rest hop hw hs hstart hreset
  refine ⟨_, step_writeReg hw hs, ?_⟩
  rw [show regAtOffset 0x04 = .ctrl from rfl, (State.writeReg_operating (s := { s with schedule := rest }) hop v).1]
  by_cases hb : s.busy = true
  · rw [State.writeCtrl_busy (s := { s with schedule := rest }) hreset hb]
    simp [hb]
  · rw [State.writeCtrl_starts (s := { s with schedule := rest }) hreset hstart (Bool.eq_false_iff.2 hb)]
    simp [hb]

/-- Settles O55: each flag is kept unless its bit of the word is 1. -/
theorem statusWriteOnlyClears : Obligations.StatusWriteOnlyClears := by
  intro s w v rest hop hw hs
  rw [step_writeReg hw hs, show regAtOffset 0x08 = .status from rfl,
    (State.writeReg_operating (s := { s with schedule := rest }) hop v).2.1, State.writeStatus_eq]

/-- Settles O56, by the value of each register. -/
theorem registerReadsReturnTheirFields : Obligations.RegisterReadsReturnTheirFields := by
  refine ⟨fun p a hp => ⟨?_, fun w w' h h' => ?_⟩, fun s i off rest hi hs => ?_⟩
  · rw [exists_regAddr_eq_iff]
    obtain ⟨-, -, -, hmmio⟩ := hp
    omega
  · have hww := h.trans h'.symm
    simp only [Platform.regAddr] at hww
    omega
  · refine ⟨State.regValue { s with schedule := rest } (regAtOffset off), ?_, ?_, ?_, ?_, ?_, ?_, ?_, ?_⟩
    · have hstatus : (regAtOffset off = .status ∧ State.showsEnd { s with schedule := rest } = true) ↔
          (off = 0x08 ∧ s.busy = false ∧ (s.done = true ∨ s.err = true) ∧ s.phase = .operating) := by
        rw [regAtOffset_eq_status_iff, State.showsEnd_iff]
      refine (step_of_schedule hs).trans (congrArg Host.Outcome.next ?_)
      rw [State.readRegAt_eq, regAtWord_of_regAddr hi]
      by_cases h : off = 0x08 ∧ s.busy = false ∧ (s.done = true ∨ s.err = true) ∧ s.phase = .operating
      · rw [if_pos h, if_pos (hstatus.2 h)]
      · rw [if_neg h, if_neg (mt hstatus.1 h)]
    · rintro rfl; rfl
    · rintro rfl; exact State.ctrlWord_toNat _
    · rintro rfl; exact State.statusWord_toNat _
    · rintro rfl; exact State.regValue_cmdPtr _
    · rintro rfl; rfl
    · rintro rfl; rfl
    · intro hoff; rw [regAtOffset_reserved hoff]; rfl

/-- Settles O57, register by register. -/
theorem otherRegisterWrites : Obligations.OtherRegisterWrites := by
  intro s w off v rest hw hs
  have hop := fun h : s.phase = .operating => State.writeReg_operating (s := { s with schedule := rest }) h v
  rw [step_writeReg hw hs]
  refine ⟨fun hoff => congrArg _ (State.writeReg_readOnly _ v (regAtOffset_readOnly hoff)), fun hoff h => ?_,
    fun hoff h h0 h2 => ?_, fun h => ?_⟩
  · obtain rfl := hoff
    rw [show regAtOffset 0x0C = .cmdPtr from rfl, (hop h).2.2]
    cases hb : s.busy <;> simp
  · obtain rfl := hoff
    rw [show regAtOffset 0x04 = .ctrl from rfl, (hop h).1, State.writeCtrl_no_start h2 h0]
  · exact congrArg _ (State.writeReg_not_operating (s := { s with schedule := rest }) h v _)

end Sys2Proof.Claims
end

section
/-! PROOFS. What a reset or a loss of power leaves of memory, and the host's reads and writes of the data space (20_memory R70, R71,
R83; 60_exceptions R255; 70_reset R270, R271, R283, R284). -/

namespace Sys2Proof.Machine

variable {s : State}

/-! ### No run, no command in progress -/

theorem State.running_eq_false (h : s.busy = false ∨ s.phase ≠ .operating) : s.running = false := by
  refine Bool.eq_false_iff.2 fun hr => ?_
  obtain ⟨hb, hop⟩ := s.running_iff.1 hr
  exact h.elim (fun h => Bool.false_ne_true (h.symm.trans hb)) fun h => h hop

theorem State.outputInProgress_of_trap {code : FaultCode} {addr : Word} (h : s.fetch = .trap code addr) :
    s.outputInProgress = none := by
  cases ho : s.outputInProgress with
  | none => rfl
  | some r =>
    obtain ⟨i, hi, -⟩ := State.outputInProgress_some ho
    rcases State.commandInProgress_some hi with ⟨-, hf | ⟨x, hf, -⟩⟩ <;> cases h.symm.trans hf

theorem State.abandonRun_of_none (h : s.outputInProgress = none) : s.abandonRun = s := by
  simp only [State.abandonRun, h]

/-- What is in progress does not depend on the moves to come. -/
theorem State.abandonRun_schedule (s : State) (l : List Move) : { s with schedule := l }.abandonRun.mem = s.abandonRun.mem := by
  have ho : State.outputInProgress { s with schedule := l } = s.outputInProgress := rfl
  unfold State.abandonRun
  rw [ho]
  cases s.outputInProgress <;> rfl

/-- A region the command in progress writes is one of the command the fetch finds, or of the one drawn (entry 10). -/
theorem State.mem_writesInProgress {r : Region} (h : r ∈ s.writesInProgress) :
    ∃ i, s.running = true ∧ (s.fetch = .command i ∨ ∃ y, s.fetch = .unwritten y ∧ decode s.drawnCommand = .ok i) ∧
      r ∈ writesOf s.platform i := by
  unfold State.writesInProgress at h
  split at h
  · cases h
  · next i hi =>
    obtain ⟨hr, hf⟩ := State.commandInProgress_some hi
    exact ⟨i, hr, hf, h⟩

theorem State.racing_of_not_running (h : s.running = false) : s.racing = s.unseenWrote := by
  simp [State.racing, State.writesInProgress, State.commandInProgress, h]

/-! ### Host accesses inside the data space (20_memory R70, R83) -/

/-- A host read whose bytes outside the racing regions are written answers, with the bytes in memory there. -/
theorem State.readMem_answers {a n : Nat} (ha : a + n ≤ s.platform.memSize)
    (h : ∀ k < n, (∀ r ∈ s.racing, r.contains (a + k) = false) → (s.mem.read (a + k)).isSome) :
    ∃ bs : List Byte, bs.length = n ∧ s.readMem a n = .next { s with draws := s.draws + 1, hostRead := some (.bytes bs) } ∧
      ∀ k < n, (∀ r ∈ s.racing, r.contains (a + k) = false) → bs[k]? = s.mem.read (a + k) := by
  obtain ⟨bs, hbs, hlen, hval⟩ := hostBytes_ok s s.racing a n 0 h
  refine ⟨bs, hlen, ?_, hval⟩
  simp only [State.readMem, Nat.not_lt.2 ha, if_false, hbs]
  rfl

/-- While no run goes on only the engine's unseen writes race with a host read. -/
theorem State.step_readMem_idle {a n : Nat} {rest : List Move} (hs : s.schedule = .readMem a n :: rest)
    (ha : a + n ≤ s.platform.memSize) (hr : s.running = false)
    (hseen : ∀ k < n, ∀ r ∈ s.unseenWrote, a + k < r.base ∨ r.base + r.len ≤ a + k)
    (h : ∀ k < n, (s.mem.read (a + k)).isSome) :
    ∃ bs : List Byte, bs.length = n ∧ (∀ k < n, bs[k]? = s.mem.read (a + k)) ∧
      step s = .next { s with schedule := rest, draws := s.draws + 1, hostRead := some (.bytes bs) } := by
  obtain ⟨bs, hlen, hread, hbytes⟩ := State.readMem_answers (s := { s with schedule := rest }) ha fun k hk _ => h k hk
  refine ⟨bs, hlen, fun k hk => hbytes k hk fun r hmem => ?_, (step_of_schedule hs).trans hread⟩
  rw [State.racing_of_not_running (s := { s with schedule := rest }) hr] at hmem
  exact (r.contains_false_iff _).2 (hseen k hk r hmem)

/-- A read of STATUS that shows DONE or ERR (20_memory R83). -/
theorem State.readRegAt_showsEnd {w : Fin 64} (hw : regAtWord w = .status) (h : s.showsEnd = true) :
    s.readRegAt w = { s with
      draws := s.draws + 1, hostRead := some (.word (s.regValue (regAtWord w))), unseenWrote := [] } := by
  rw [State.readRegAt_eq, if_pos ⟨hw, h⟩]

theorem State.writeMem_idle {a : Nat} {bs : List Byte} (ha : a + bs.length ≤ s.platform.memSize) (hr : s.running = false) :
    s.writeMem a bs = .next { s with mem := s.mem.writeBytes a bs } := by
  simp [State.writeMem, Nat.not_lt.2 ha, hr]

section
variable {a : Nat} {bs : List Byte} (ha : a + bs.length ≤ s.platform.memSize) (hr : s.running = true)
include ha hr

theorem State.writeMem_refused (h : ∃ k < bs.length, ∃ r ∈ s.runTouched, r.contains (a + k) = true) :
    s.writeMem a bs = .refused .hostDutyBroken := by
  have hany : ((List.range bs.length).map (a + ·)).any (fun x => s.runTouched.any fun r => r.contains x) = true := by
    simpa using h
  simp only [State.writeMem, Nat.not_lt.2 ha, if_false, hr, if_true, hany]

theorem State.writeMem_running (h : ∀ k < bs.length, ∀ r ∈ s.runTouched, r.contains (a + k) = false) :
    s.writeMem a bs = .next { s with
      mem := s.mem.writeBytes a bs, hostWrote := (List.range bs.length).map (a + ·) ++ s.hostWrote } := by
  have hany : ((List.range bs.length).map (a + ·)).any (fun x => s.runTouched.any fun r => r.contains x) = false := by
    simpa using h
  simp only [State.writeMem, Nat.not_lt.2 ha, if_false, hr, if_true, hany, Bool.false_eq_true]

end

theorem Region.contains_iff (r : Region) (x : Nat) : r.contains x = true ↔ r.base ≤ x ∧ x < r.base + r.len := by
  simp [Region.contains]

theorem State.hostWroteIn_iff (s : State) (r : Region) :
    s.hostWroteIn r = true ↔ ∃ x ∈ s.hostWrote, r.base ≤ x ∧ x < r.base + r.len := by
  simp only [State.hostWroteIn, List.any_eq_true, Region.contains_iff]

end Sys2Proof.Machine

namespace Sys2Proof.Claims
open Sys2Proof.Machine

/-! ### Abandoned runs (70_reset R270) -/

theorem abandoned_of_mem {s t : State} (h : t.mem = s.abandonRun.mem) : Abandoned s t := by
  have kept : ∀ {x}, (∀ r, s.outputInProgress = some r → x < r.base ∨ r.base + r.len ≤ x) → t.mem.read x = s.mem.read x :=
    fun hx => h ▸ State.abandonRun_read hx
  have unchanged : s.abandonRun = s → t.mem = s.mem := fun hs => h.trans (congrArg State.mem hs)
  have output : ∀ {i r}, s.outputInProgress = some r →
      (∀ j, s.fetch = .command j ∨ (∃ y, s.fetch = .unwritten y ∧ decode s.drawnCommand = .ok j) → j = i) →
      outputOf i = some r := fun ho hj => by
    obtain ⟨j, hcmd, hout, -⟩ := State.outputInProgress_some ho
    rwa [← hj j (State.commandInProgress_some hcmd).2]
  constructor
  case idle => exact fun hb => unchanged (State.abandonRun_idle (State.running_eq_false (.inl hb)))
  case noOutput => exact fun ho => unchanged (State.abandonRun_of_none ho)
  case output => exact fun r ho x hx => kept fun q hq => Option.some.inj (ho.symm.trans hq) ▸ hx
  case trapped => exact fun code addr hf => unchanged (State.abandonRun_of_none (State.outputInProgress_of_trap hf))
  case known =>
    refine fun i hf x hx => kept fun r ho => hx r (output ho fun j hj => ?_)
    rcases hj with hj | ⟨y, hj, -⟩ <;> cases hf.symm.trans hj
    rfl
  case drawn =>
    refine fun y i hf hd x hx => kept fun r ho => hx r (output ho fun j hj => ?_)
    rcases hj with hj | ⟨z, -, hj⟩
    · cases hf.symm.trans hj
    · cases hd.symm.trans hj
      rfl

/-- Settles O54: a reset is `resetRegisters` on the abandoned run, whichever way it comes. -/
theorem resetsPutTheResetValues : Obligations.ResetsPutTheResetValues := by
  refine ⟨fun s m rest hm hs => ?_, fun s rest hs => ?_, fun s rest hs => ?_⟩
  · have habandoned : ∀ t : State, t.mem = { s with schedule := rest }.abandonRun.mem → Abandoned s t := fun t ht =>
      abandoned_of_mem (ht.trans (s.abandonRun_schedule rest))
    rcases hm with rfl | ⟨hop, w, v, hw, hv, rfl⟩
    · refine ⟨_, step_of_schedule hs, ?_⟩
      rw [State.assertReset, State.resetBlock_eq]
      exact ⟨rfl, rfl, rfl, rfl, rfl, rfl, rfl, rfl, rfl, rfl, rfl, rfl, habandoned _ rfl⟩
    · refine ⟨_, step_writeReg hw hs, ?_⟩
      rw [show regAtOffset 0x04 = .ctrl from rfl, (State.writeReg_operating (s := { s with schedule := rest }) hop v).1,
        State.writeCtrl_softReset hv, State.resetBlock_eq]
      exact ⟨rfl, rfl, rfl, rfl, rfl, rfl, rfl, rfl, rfl, rfl, rfl, hop, habandoned _ rfl⟩
  · refine (step_of_schedule hs).trans (congrArg Host.Outcome.next ?_)
    unfold State.releaseReset
    by_cases h : s.phase = .inReset
    · rw [if_pos h, if_pos h]
    · rw [if_neg h, if_neg h]
  · refine ⟨_, step_of_schedule hs, ?_⟩
    rw [State.losePower_eq]
    exact ⟨rfl, rfl, rfl, abandoned_of_mem (s.abandonRun_schedule rest)⟩

/-! ### The data space -/

/-- Settles O59: what a host read races with is what the command in progress writes and what the engine wrote unseen. -/
theorem hostReadsOfTheDataSpace : Obligations.HostReadsOfTheDataSpace := by
  refine ⟨fun s addr len rest haddr hs hw => ?_, fun s w addr len rest haddr hop hb hend hw hs hval => ?_,
    fun s addr bs rest hidle haddr hs => ?_⟩
  · obtain ⟨bs, hlen, hread, hbytes⟩ := State.readMem_answers (s := { s with schedule := rest }) haddr fun k hk hr =>
      hw k hk fun r hmem => (r.contains_false_iff _).1 (hr r hmem)
    refine ⟨bs, hlen, (step_of_schedule hs).trans hread, fun k hk hunseen hcmd => hbytes k hk fun r hr => ?_⟩
    rw [Region.contains_false_iff]
    rcases List.mem_append.1 hr with hr | hr
    · obtain ⟨i, hrun, hf, hri⟩ := State.mem_writesInProgress hr
      exact hcmd (State.running_iff _ |>.1 hrun).1 i hf r hri
    · exact hunseen r hr
  · have hshows : State.showsEnd { s with schedule := .readMem addr len :: rest } = true :=
      s.showsEnd_iff.2 ⟨hb, hend, hop⟩
    obtain ⟨bs, hlen, hbytes, hread⟩ := State.step_readMem_idle
      (s := { s with schedule := .readMem addr len :: rest, draws := s.draws + 1, unseenWrote := [],
                     hostRead := some (.word (State.regValue { s with schedule := .readMem addr len :: rest } (regAtWord w))) })
      rfl haddr (State.running_eq_false (.inl hb)) (fun _ _ _ h => absurd h List.not_mem_nil) hval
    refine ⟨_, _, bs, (step_of_schedule hs).trans (congrArg Host.Outcome.next ?_), hread, rfl, hlen, hbytes⟩
    exact State.readRegAt_showsEnd ((regAtWord_eq_status_iff s.platform).2 hw) hshows
  · have hr : State.running { s with schedule := rest } = false := State.running_eq_false hidle
    have hinside := Memory.read_writeBytes_inside bs s.mem addr
    refine ⟨_, (step_of_schedule hs).trans (State.writeMem_idle haddr hr), rfl, hinside,
      Memory.read_writeBytes_outside bs s.mem addr, fun rest' hrest hseen => ?_⟩
    obtain ⟨bs', hlen, hbytes, hread⟩ := State.step_readMem_idle
      (s := { s with schedule := rest, mem := s.mem.writeBytes addr bs }) hrest haddr hr hseen
      fun k hk => by simp [hinside k hk, hk]
    have hsame : bs' = bs := by
      refine List.ext_getElem? fun k => ?_
      by_cases hk : k < bs.length
      · rw [hbytes k hk]
        exact hinside k hk
      · rw [List.getElem?_eq_none (by omega), List.getElem?_eq_none (by omega)]
    exact hsame ▸ hread

/-- Settles O60: the run's record is asked first, and the bytes join the host's. -/
theorem hostWritesDuringARun : Obligations.HostWritesDuringARun := by
  intro s addr bs rest hb hop haddr hs
  have hr : State.running { s with schedule := rest } = true := s.running_iff.2 ⟨hb, hop⟩
  refine ⟨fun ⟨k, hk, r, hmem, hin⟩ => ?_, fun hout => ?_⟩
  · exact (step_of_schedule hs).trans (State.writeMem_refused haddr hr ⟨k, hk, r, hmem, (r.contains_iff _).2 hin⟩)
  · refine ⟨_, (step_of_schedule hs).trans (State.writeMem_running haddr hr fun k hk r hmem =>
      (r.contains_false_iff _).2 (hout k hk r hmem)), Memory.read_writeBytes_inside bs s.mem addr,
      Memory.read_writeBytes_outside bs s.mem addr, fun r => ?_, rfl⟩
    simp only [State.hostWroteIn_iff, List.mem_append, List.mem_map, List.mem_range]
    constructor
    · rintro ⟨x, ⟨k, hk, rfl⟩ | hx, hin⟩
      · exact .inr ⟨k, hk, hin⟩
      · exact .inl ⟨x, hx, hin⟩
    · rintro (⟨x, hx, hin⟩ | ⟨k, hk, hin⟩)
      · exact ⟨x, .inr hx, hin⟩
      · exact ⟨addr + k, .inl ⟨k, hk, rfl⟩, hin⟩

end Sys2Proof.Claims
end

section
/-! PROOFS. Rounding is to nearest with ties to even, and the cases of negation and division (00_scope R10, R14, R15). -/

namespace Sys2Proof.Machine

/-! ### Rounding to an integer -/

/-- `roundEven` rounds half way down or half way up to an even number alone (00_scope R10). -/
theorem roundEven_even_of_tie {n d : Nat} (h : 0 < d)
    (ht : 2 * n = 2 * (roundEven n d * d) + d ∨ 2 * (roundEven n d * d) = 2 * n + d) : roundEven n d % 2 = 0 := by
  have hn := Nat.div_add_mod n d
  have hr := Nat.mod_lt n h
  have hq : n / d * d = d * (n / d) := Nat.mul_comm _ _
  have hq' : (n / d + 1) * d = d * (n / d) + d := by rw [Nat.add_mul, hq, Nat.one_mul]
  revert ht
  simp only [roundEven]
  split
  · omega
  · split
    · omega
    · split <;> omega

/-- No multiple of `d` is nearer to `n` than `roundEven n d` of them, and one as near leaves it even. -/
theorem roundEven_nearest (n : Nat) {d : Nat} (h : 0 < d) (j : Nat) :
    ((n : Int) - (roundEven n d * d : Nat)).natAbs < ((n : Int) - (j * d : Nat)).natAbs ∨
      (((n : Int) - (roundEven n d * d : Nat)).natAbs = ((n : Int) - (j * d : Nat)).natAbs ∧
        (j = roundEven n d ∨ roundEven n d % 2 = 0)) := by
  obtain ⟨-, -, hup, hdown⟩ := roundEven_bounds n h
  have htie := roundEven_even_of_tie (n := n) h
  rw [Nat.add_mul, Nat.one_mul, Nat.mul_assoc] at hup
  rw [Nat.mul_assoc] at hdown
  generalize hq : roundEven n d = q at *
  rcases Nat.lt_trichotomy j q with hj | rfl | hj
  · have hle : j * d + d ≤ q * d := by rw [← Nat.succ_mul]; exact Nat.mul_le_mul_right d hj
    omega
  · exact .inr ⟨rfl, .inl rfl⟩
  · have hle : q * d + d ≤ j * d := by rw [← Nat.succ_mul]; exact Nat.mul_le_mul_right d hj
    omega

/-! ### The exponent step of a rounding -/

/-- The exponent step at which `roundedPattern` keeps 24 significant bits. -/
def roundingStep (n d : Nat) : Nat := Nat.log2 (n / d) - 23

theorem lt_of_roundingStep (n : Nat) {d : Nat} (h : 0 < d) : n < 2 ^ 24 * (d * 2 ^ roundingStep n d) := by
  have hlog : n / d < 2 ^ (24 + roundingStep n d) := by
    by_cases h0 : n / d = 0
    · rw [h0]; exact Nat.two_pow_pos _
    · exact (Nat.log2_lt h0).1 (by unfold roundingStep; omega)
  rw [Nat.div_lt_iff_lt_mul h, Nat.pow_add] at hlog
  rwa [Nat.mul_comm d, ← Nat.mul_assoc]

theorem le_of_roundingStep_ne_zero {n d : Nat} (h : 0 < d) (hk : roundingStep n d ≠ 0) :
    2 ^ 23 * (d * 2 ^ roundingStep n d) ≤ n := by
  have h0 : n / d ≠ 0 := by rintro h0; exact hk (by rw [roundingStep, h0]; decide)
  have hlog : 2 ^ (23 + roundingStep n d) ≤ n / d := (Nat.le_log2 h0).1 (by unfold roundingStep at *; omega)
  rw [Nat.le_div_iff_mul_le h, Nat.pow_add] at hlog
  rwa [Nat.mul_comm d, ← Nat.mul_assoc]

section
variable {n d : Nat} (h : 0 < d)
include h

theorem roundingUnit_pos : 0 < d * 2 ^ roundingStep n d := Nat.mul_pos h (Nat.two_pow_pos _)

/-- The significand a rounding gives, a carry to 2^24 included. -/
theorem roundEven_step_bounds : roundEven n (d * 2 ^ roundingStep n d) ≤ 2 ^ 24 ∧
    (roundingStep n d ≠ 0 → 2 ^ 23 ≤ roundEven n (d * 2 ^ roundingStep n d)) := by
  have hpos := roundingUnit_pos (n := n) h
  obtain ⟨hge, hle, -, -⟩ := roundEven_bounds n hpos
  have hlt : n / (d * 2 ^ roundingStep n d) < 2 ^ 24 := (Nat.div_lt_iff_lt_mul hpos).2 (lt_of_roundingStep n h)
  exact ⟨by omega, fun hk => Nat.le_trans ((Nat.le_div_iff_mul_le hpos).2 (le_of_roundingStep_ne_zero h hk)) hge⟩

end

/-- The magnitude of a pattern made of an exponent step and a significand, which may carry into the next binade. -/
theorem magOf_step_add {k q : Nat} (hq : q ≤ 2 ^ 24) (hk : k = 0 ∨ 2 ^ 23 ≤ q) : magOf (k * 2 ^ 23 + q) = q * 2 ^ k := by
  unfold magOf
  rcases Nat.lt_or_ge q (2 ^ 23) with hlt | hge
  · obtain rfl : k = 0 := by omega
    rw [if_pos (by omega), Nat.zero_mul, Nat.zero_add, Nat.pow_zero, Nat.mul_one]
  · rw [if_neg (by omega)]
    rcases Nat.lt_or_eq_of_le hq with hlt | rfl
    · rw [show (k * 2 ^ 23 + q) / 2 ^ 23 - 1 = k by omega, show 2 ^ 23 + (k * 2 ^ 23 + q) % 2 ^ 23 = q by omega]
    · have hpow : 2 ^ (k + 1) = 2 * 2 ^ k := Nat.pow_succ'
      rw [show (k * 2 ^ 23 + 2 ^ 24) / 2 ^ 23 - 1 = k + 1 by omega, show 2 ^ 23 + (k * 2 ^ 23 + 2 ^ 24) % 2 ^ 23 = 2 ^ 23 by omega]
      omega

theorem magOf_injective {p p' : Nat} (hp : p < infPattern) (hp' : p' < infPattern) (h : magOf p = magOf p') : p = p' := by
  rw [← roundedPattern_exact hp Nat.one_pos, h, roundedPattern_exact hp' Nat.one_pos]

/-! ### The nearest magnitude -/

/-- The pattern of n / d before an overflow to infinity. -/
def unboundedPattern (n d : Nat) : Nat := roundingStep n d * 2 ^ 23 + roundEven n (d * 2 ^ roundingStep n d)

theorem roundedPattern_eq_min (n d : Nat) : roundedPattern n d = min (unboundedPattern n d) infPattern := rfl

section
variable {n d : Nat} (h : 0 < d)
include h

theorem magOf_unboundedPattern : magOf (unboundedPattern n d) * d =
    roundEven n (d * 2 ^ roundingStep n d) * (d * 2 ^ roundingStep n d) := by
  obtain ⟨hle, hge⟩ := roundEven_step_bounds (n := n) h
  rw [unboundedPattern, magOf_step_add hle (Decidable.or_iff_not_imp_left.2 hge), Nat.mul_assoc, Nat.mul_comm d]

/-- A magnitude is a multiple of the unit of the rounding, or lies below every number that rounds in that unit. -/
theorem magOf_multiple_or_lt (p : Nat) :
    (∃ j, magOf p * d = j * (d * 2 ^ roundingStep n d)) ∨
      (roundingStep n d ≠ 0 ∧ magOf p * d < 2 ^ 23 * (d * 2 ^ roundingStep n d)) := by
  obtain ⟨k, r, -, hm, hr, -⟩ := magOf_step p
  rcases Nat.lt_or_ge k (roundingStep n d) with hlt | hge
  · refine .inr ⟨by omega, ?_⟩
    have hpow : 2 * 2 ^ k ≤ 2 ^ roundingStep n d := by
      rw [← Nat.pow_succ']
      exact Nat.pow_le_pow_right (by decide) hlt
    calc magOf p * d
        = d * (r * 2 ^ k) := by rw [hm, Nat.mul_comm]
      _ < d * (2 ^ 24 * 2 ^ k) := Nat.mul_lt_mul_of_pos_left (Nat.mul_lt_mul_of_pos_right hr (Nat.two_pow_pos k)) h
      _ = d * (2 ^ 23 * (2 * 2 ^ k)) := congrArg (d * ·) (by omega)
      _ ≤ d * (2 ^ 23 * 2 ^ roundingStep n d) := Nat.mul_le_mul_left d (Nat.mul_le_mul_left _ hpow)
      _ = 2 ^ 23 * (d * 2 ^ roundingStep n d) := Nat.mul_left_comm ..
  · refine .inl ⟨r * 2 ^ (k - roundingStep n d), ?_⟩
    rw [hm, Nat.mul_assoc, Nat.mul_assoc, Nat.mul_left_comm _ d, ← Nat.pow_add, Nat.sub_add_cancel hge, Nat.mul_comm d]

/-- The magnitude of the rounded pattern is the nearest, and a tie leaves the pattern even (00_scope R10). -/
theorem unboundedPattern_nearest (hfin : unboundedPattern n d < infPattern) {p : Nat} (hp : p < infPattern) :
    ((n : Int) - (magOf (unboundedPattern n d) * d : Nat)).natAbs < ((n : Int) - (magOf p * d : Nat)).natAbs ∨
      (((n : Int) - (magOf (unboundedPattern n d) * d : Nat)).natAbs = ((n : Int) - (magOf p * d : Nat)).natAbs ∧
        (p = unboundedPattern n d ∨ unboundedPattern n d % 2 = 0)) := by
  have hnear := roundEven_nearest n (roundingUnit_pos (n := n) h)
  have heven : unboundedPattern n d % 2 = roundEven n (d * 2 ^ roundingStep n d) % 2 := by
    unfold unboundedPattern
    omega
  rw [magOf_unboundedPattern h, heven]
  rcases magOf_multiple_or_lt (n := n) h p with ⟨j, hj⟩ | ⟨hk, hlt⟩
  · rw [hj]
    refine (hnear j).imp_right fun ⟨heq, hor⟩ => ⟨heq, hor.imp_left fun hjq => ?_⟩
    refine magOf_injective hp hfin (Nat.eq_of_mul_eq_mul_right h ?_)
    rw [hj, hjq, magOf_unboundedPattern h]
  · have hbelow := le_of_roundingStep_ne_zero h hk
    have hedge := hnear (2 ^ 23)
    left
    omega

/-- At the last step that has finite magnitudes, the significand overflows from half a unit below 2^24 on. -/
theorem two_pow_le_roundEven_iff : 2 ^ 24 ≤ roundEven n d ↔ (2 ^ 25 - 1) * d ≤ 2 * n := by
  obtain ⟨-, -, hup, hdown⟩ := roundEven_bounds n h
  have htie := roundEven_even_of_tie (n := n) h
  rw [Nat.add_mul, Nat.one_mul, Nat.mul_assoc] at hup
  rw [Nat.mul_assoc] at hdown
  generalize roundEven n d = q at *
  rcases Nat.lt_or_ge q (2 ^ 24) with hlt | hge
  · refine iff_of_false (Nat.not_le.2 hlt) fun hn => ?_
    have hmul : q * d ≤ (2 ^ 24 - 1) * d := Nat.mul_le_mul_right d (by omega)
    have heven : q % 2 = 0 := htie (.inl (by omega))
    have hmul' : q * d ≤ (2 ^ 24 - 2) * d := Nat.mul_le_mul_right d (by omega)
    omega
  · have hmul : 2 ^ 24 * d ≤ q * d := Nat.mul_le_mul_right d hge
    exact iff_of_true hge (by omega)

/-- The rounded pattern is infinite from half way past the largest finite magnitude on (00_scope R10). -/
theorem infPattern_le_unboundedPattern_iff :
    infPattern ≤ unboundedPattern n d ↔ (2 ^ 25 - 1) * 2 ^ 252 * d ≤ n := by
  have hpos := roundingUnit_pos (n := n) h
  obtain ⟨hqle, hqge⟩ := roundEven_step_bounds (n := n) h
  have hover := two_pow_le_roundEven_iff (n := n) hpos
  have hlt := lt_of_roundingStep n h
  have hge := le_of_roundingStep_ne_zero (n := n) h
  have hinf : infPattern = 255 * 2 ^ 23 := rfl
  have hunit : (2 ^ 25 - 1) * 2 ^ 252 * d = (2 ^ 25 - 1) * (d * 2 ^ 252) := by rw [Nat.mul_assoc, Nat.mul_comm d]
  have hle : ∀ {k k'}, k ≤ k' → d * 2 ^ k ≤ d * 2 ^ k' := fun hk =>
    Nat.mul_le_mul_left d (Nat.pow_le_pow_right (by decide) hk)
  have hdouble : ∀ k, d * 2 ^ (k + 1) = 2 * (d * 2 ^ k) := fun k => by rw [Nat.pow_succ', Nat.mul_left_comm]
  have h253 : d * 2 ^ 253 = 2 * (d * 2 ^ 252) := hdouble 252
  have h254 : d * 2 ^ 254 = 2 * (d * 2 ^ 253) := hdouble 253
  rw [unboundedPattern, hunit]
  rcases Nat.lt_trichotomy (roundingStep n d) 253 with hk | hk | hk
  · have hD := hle (show roundingStep n d ≤ 252 by omega)
    omega
  · rw [hk, h253] at hover hqle hqge
    rw [hk, h253]
    omega
  · have hD := hle (show 254 ≤ roundingStep n d from hk)
    have hbelow := hge (by omega)
    have hq := hqge (by omega)
    rw [h254, h253] at hD
    omega

end

end Sys2Proof.Machine

namespace Sys2Proof.Claims
open Sys2Proof.Machine

/-- Settles O46, by the nearest multiple of the unit in the last place. -/
theorem roundingIsToNearestEven : Obligations.RoundingIsToNearestEven := by
  intro n d hd
  have hinf : infPattern = 0x7F800000 := rfl
  refine ⟨?_, fun hfin p hp => ?_⟩
  · rw [← infPattern_le_unboundedPattern_iff hd, roundedPattern_eq_min]
    omega
  · have hlt : unboundedPattern n d < infPattern := by
      rw [roundedPattern_eq_min] at hfin
      omega
    have heq : roundedPattern n d = unboundedPattern n d := by
      rw [roundedPattern_eq_min]
      omega
    rw [heq]
    simpa only [Int.natCast_mul] using unboundedPattern_nearest hd hlt hp

/-! ### Division by its cases (00_scope R14) -/

/-- The operands whose quotient is NaN. -/
def InvalidQuotient (a b : Word) : Prop := IsNaN a ∨ IsNaN b ∨ (IsZero a ∧ IsZero b) ∨ (IsInf a ∧ IsInf b)

section
variable {draw a b : Word}

theorem fdiv_of_invalid (h : InvalidQuotient a b) : fdiv draw a b = quietNaN draw := by
  rcases h with h | h | ⟨ha, hb⟩ | ⟨ha, hb⟩
  · simp [fdiv, float32_eq_nan_iff.2 h]
  · cases hx : float32 a <;> simp [fdiv, hx, float32_eq_nan_iff.2 h]
  · simp [fdiv, float32_of_isFinite ha.isFinite, float32_of_isFinite hb.isFinite, magOf_eq_zero_iff.2 ha,
      magOf_eq_zero_iff.2 hb]
  · simp [fdiv, float32_of_isInf ha, float32_of_isInf hb]

theorem fdiv_of_isInf_left (ha : IsInf a) (hb : IsFinite b) : fdiv draw a b = packed (a.msb ^^ b.msb) infPattern := by
  simp [fdiv, float32_of_isInf ha, float32_of_isFinite hb]

theorem fdiv_of_isInf_right (ha : IsFinite a) (hb : IsInf b) : fdiv draw a b = packed (a.msb ^^ b.msb) 0 := by
  simp [fdiv, float32_of_isFinite ha, float32_of_isInf hb]

theorem fdiv_by_zero (ha : IsFinite a) (ha' : ¬ IsZero a) (hb : IsZero b) :
    fdiv draw a b = packed (a.msb ^^ b.msb) infPattern := by
  have hm : magOf (pattern a) ≠ 0 := mt magOf_eq_zero_iff.1 ha'
  simp [fdiv, float32_of_isFinite ha, float32_of_isFinite hb.isFinite, magOf_eq_zero_iff.2 hb, hm]

theorem fdiv_of_isFinite (ha : IsFinite a) (hb : IsFinite b) (hb' : ¬ IsZero b) :
    fdiv draw a b = rounded (a.msb ^^ b.msb) (magOf (pattern a) * 2 ^ 149) (magOf (pattern b)) := by
  have hm : magOf (pattern b) ≠ 0 := mt magOf_eq_zero_iff.1 hb'
  simp [fdiv, float32_of_isFinite ha, float32_of_isFinite hb, hm]

/-- What a quotient can be: NaN, an infinity, a zero of a finite over an infinity, or the rounded exact quotient. -/
theorem fdiv_cases (draw a b : Word) :
    (InvalidQuotient a b ∧ fdiv draw a b = quietNaN draw) ∨
    (¬ InvalidQuotient a b ∧ (IsInf a ∨ IsZero b) ∧ fdiv draw a b = packed (a.msb ^^ b.msb) infPattern) ∨
    (¬ InvalidQuotient a b ∧ IsFinite a ∧ IsInf b ∧ fdiv draw a b = packed (a.msb ^^ b.msb) 0) ∨
    (¬ InvalidQuotient a b ∧ IsFinite a ∧ IsFinite b ∧ ¬ IsZero b ∧
      fdiv draw a b = rounded (a.msb ^^ b.msb) (magOf (pattern a) * 2 ^ 149) (magOf (pattern b))) := by
  by_cases hv : InvalidQuotient a b
  · exact .inl ⟨hv, fdiv_of_invalid hv⟩
  have hv' := hv
  simp only [InvalidQuotient, not_or, not_and] at hv'
  obtain ⟨hna, hnb, hzero, hinf⟩ := hv'
  by_cases ha : IsInf a
  · have hb := isFinite_of_not_isNaN_of_not_isInf hnb (hinf ha)
    exact .inr (.inl ⟨hv, .inl ha, fdiv_of_isInf_left ha hb⟩)
  have ha := isFinite_of_not_isNaN_of_not_isInf hna ha
  by_cases hb : IsInf b
  · exact .inr (.inr (.inl ⟨hv, ha, hb, fdiv_of_isInf_right ha hb⟩))
  have hb := isFinite_of_not_isNaN_of_not_isInf hnb hb
  by_cases hb' : IsZero b
  · exact .inr (.inl ⟨hv, .inr hb', fdiv_by_zero ha (fun h => hzero h hb') hb'⟩)
  · exact .inr (.inr (.inr ⟨hv, ha, hb, hb', fdiv_of_isFinite ha hb hb'⟩))

theorem isNaN_fdiv_iff : IsNaN (fdiv draw a b) ↔ InvalidQuotient a b := by
  rcases fdiv_cases draw a b with ⟨h, e⟩ | ⟨h, -, e⟩ | ⟨h, -, -, e⟩ | ⟨h, -, -, -, e⟩ <;> rw [e]
  · exact iff_of_true (isNaN_quietNaN draw) h
  · exact iff_of_false (isInf_packed_infPattern _).not_isNaN h
  · exact iff_of_false (not_isNaN_packed (Nat.zero_le _)) h
  · exact iff_of_false (not_isNaN_rounded _ _ _) h

theorem msb_fdiv (h : ¬ InvalidQuotient a b) : (fdiv draw a b).msb = (a.msb ^^ b.msb) := by
  rcases fdiv_cases draw a b with ⟨h', -⟩ | ⟨-, -, e⟩ | ⟨-, -, -, e⟩ | ⟨-, -, -, -, e⟩
  · exact absurd h' h
  · rw [e, msb_packed_infPattern]
  · rw [e, msb_packed (Nat.zero_le _)]
  · rw [e, msb_rounded]

end

/-- Settles O51, by what a quotient can be. -/
theorem divisionFollowsItsCases : Obligations.DivisionFollowsItsCases := by
  intro draw a b
  have one : IsFinite 0x3F800000 ∧ ¬ IsZero 0x3F800000 := by
    unfold IsFinite IsZero pattern
    decide
  refine ⟨isNaN_fdiv_iff, fun h => msb_fdiv (mt isNaN_fdiv_iff.2 h), fun h hi => ?_, fun ha hb => ?_,
    fun ha hb hb' => ?_, ?_, ?_⟩
  · have hv := mt isNaN_fdiv_iff.2 h
    rcases fdiv_cases draw a b with ⟨h', -⟩ | ⟨-, -, e⟩ | ⟨-, ha, hb, -⟩ | ⟨-, ha, -, hb, -⟩
    · exact absurd h' hv
    · rw [e]; exact isInf_packed_infPattern _
    · exact absurd hi (not_or.2 ⟨fun hz => hz.isFinite.not_isInf hb, ha.not_isInf⟩)
    · exact absurd hi (not_or.2 ⟨hb, ha.not_isInf⟩)
  · rw [fdiv_of_isInf_right ha hb]
    exact pattern_packed (Nat.zero_le _)
  · rw [fdiv_of_isFinite ha hb hb', pattern_rounded]
  · exact fdiv_by_zero one.1 one.2 rfl
  · exact fdiv_by_zero one.1 one.2 rfl

/-! ### Negation (00_scope R15) -/

theorem getLsbD_fneg (a : Word) {k : Nat} (hk : k < 31) : (fneg a).getLsbD k = a.getLsbD k := by
  have mask : ∀ k < 31, (0x80000000 : Word).getLsbD k = false := by decide
  rw [fneg, BitVec.getLsbD_xor, mask k hk, Bool.xor_false]

theorem pattern_fneg (a : Word) : pattern (fneg a) = pattern a := by
  have hlow : (fneg a).setWidth 31 = a.setWidth 31 := by
    refine BitVec.eq_of_getLsbD_eq fun k hk => ?_
    rw [BitVec.getLsbD_setWidth, BitVec.getLsbD_setWidth, getLsbD_fneg a hk]
  simpa only [pattern, BitVec.toNat_setWidth] using congrArg BitVec.toNat hlow

/-- Settles O52: the mask has bit 31 alone. -/
theorem negationFlipsTheSignBit : Obligations.NegationFlipsTheSignBit := by
  intro a
  refine ⟨fun k hk => getLsbD_fneg a hk, ?_, by rw [IsNaN, IsNaN, pattern_fneg]⟩
  rw [fneg, BitVec.msb_xor]
  exact Bool.xor_true _

end Sys2Proof.Claims
end

section
/-! PROOFS. The laws of the products: transposes reverse them, and the identity keeps a finite matrix (41_multiply R156;
42_transpose R175). -/

namespace Sys2Proof.Claims
open Sys2Proof.Machine

/-! ### The transpose of a product (42_transpose R175) -/

theorem sumOfProducts4_congr (draw : Nat → Word) (op : Nat) {x x' y y' : Nat → Word} (hx : ∀ k < 4, x k = x' k)
    (hy : ∀ k < 4, y k = y' k) : sumOfProducts4 draw op x y = sumOfProducts4 draw op x' y' := by
  simp only [sumOfProducts4, hx, hy, Nat.reduceLT]

theorem sumOfProducts3_congr (draw : Nat → Word) (op : Nat) {x x' y y' : Nat → Word} (hx : ∀ k < 3, x k = x' k)
    (hy : ∀ k < 3, y k = y' k) : sumOfProducts3 draw op x y = sumOfProducts3 draw op x' y' := by
  simp only [sumOfProducts3, hx, hy, Nat.reduceLT]

theorem sameOrNaN_sumOfProducts3_swap (draw draw' : Nat → Word) (op op' : Nat) (x y : Nat → Word) :
    SameOrNaN (sumOfProducts3 draw op x y) (sumOfProducts3 draw' op' y x) :=
  ((sameOrNaN_fmul_swap _ _ _ _).ffma_swap _ _ _ _).ffma_swap _ _ _ _

theorem elem44_transpose44 (m : Lanes) {i j : Nat} (hi : i < 4) (hj : j < 4) : elem44 (transpose44 m) i j = elem44 m j i := by
  rw [elem44, lane_transpose44 m (by omega), elem44, show (4 * i + j) % 4 = j by omega, show (4 * i + j) / 4 = i by omega]

theorem elem33_transpose33 (m : Lanes) {i j : Nat} (hi : i < 3) (hj : j < 3) : elem33 (transpose33 m) i j = elem33 m j i := by
  rw [elem33, lane_transpose33 m (by omega), elem33, show (3 * i + j) % 3 = j by omega, show (3 * i + j) / 3 = i by omega]

section
variable (draw draw' : Nat → Word) (a b : Lanes)

theorem sameOrNaN_product44_transpose44 {i j : Nat} (hi : i < 4) (hj : j < 4) :
    SameOrNaN (elem44 (product44 draw (transpose44 a) (transpose44 b)) i j)
      (elem44 (transpose44 (product44 draw' b a)) i j) := by
  rw [elem44_transpose44 _ hi hj, elem44, elem44, lane_product44 _ _ _ hi hj, lane_product44 _ _ _ hj hi,
    sumOfProducts4_congr draw _ (fun k hk => elem44_transpose44 a hi hk) fun k hk => elem44_transpose44 b hk hj]
  exact sameOrNaN_sumOfProducts4_swap _ _ _ _ fun _ _ => rfl

theorem sameOrNaN_product33_transpose33 {i j : Nat} (hi : i < 3) (hj : j < 3) :
    SameOrNaN (elem33 (product33 draw (transpose33 a) (transpose33 b)) i j)
      (elem33 (transpose33 (product33 draw' b a)) i j) := by
  rw [elem33_transpose33 _ hi hj, elem33, elem33, lane_product33 _ _ _ hi hj, lane_product33 _ _ _ hj hi,
    sumOfProducts3_congr draw _ (fun k hk => elem33_transpose33 a hi hk) fun k hk => elem33_transpose33 b hk hj]
  exact sameOrNaN_sumOfProducts3_swap _ _ _ _ _ _

end

/-- Settles O43: element (i, j) of either side is the same chain with the multiplicands swapped. -/
theorem transposeReversesTheProduct : Obligations.TransposeReversesTheProduct := by
  refine ⟨fun draw draw' a b l hl => ?_, fun draw draw' a b l hl => ?_⟩
  · rw [← Nat.div_add_mod l 4]
    exact sameOrNaN_product44_transpose44 draw draw' a b (by omega) (by omega)
  · rw [← Nat.div_add_mod l 3]
    exact sameOrNaN_product33_transpose33 draw draw' a b (by omega) (by omega)

/-! ### Products with one and with zero, summed exactly (00_scope R11 to R13) -/

theorem ffma_comm (draw a b c : Word) : ffma draw a b c = ffma draw b a c := by
  rw [ffma_eq_sumWord, ffma_eq_sumWord, exactProduct_comm]

theorem isZero_iff {x : Word} : IsZero x ↔ x = 0 ∨ x = 0x80000000 := by
  refine ⟨fun h => ?_, by rintro (rfl | rfl) <;> rfl⟩
  rw [← packed_self x, show x.toNat % 2 ^ 31 = 0 from h]
  cases x.msb
  · exact .inl rfl
  · exact .inr rfl

theorem exactValue_eq_zero_iff {x : Word} : exactValue x = 0 ↔ IsZero x := by
  have hm := magOf_eq_zero_iff (p := pattern x)
  unfold exactValue IsZero
  split <;> omega

theorem isZero_zero : IsZero 0 := rfl

theorem isFinite_zero : IsFinite 0 := isZero_zero.isFinite

theorem exactValue_zero : exactValue 0 = 0 := rfl

/-- 1.0 in units of 2^-149. -/
theorem exactValue_one : exactValue 0x3F800000 = 2 ^ 149 := by
  unfold exactValue pattern magOf
  decide

theorem isFinite_one : IsFinite 0x3F800000 := by
  unfold IsFinite pattern
  decide

theorem natAbs_signed (s : Bool) (m : Nat) : (signed s m).natAbs = m := by
  cases s <;> simp [signed]

theorem decide_signed_neg (s : Bool) {m : Nat} (hm : 0 < m) : decide (signed s m < 0) = s := by
  cases s <;> simp [signed, hm]

/-- A nonzero finite value, as an exact sum, rounds to its own word. -/
theorem roundedSum_exactValue {x : Word} (hx : IsFinite x) (hx' : ¬ IsZero x) (s : Bool) {d : Nat} (hd : 0 < d) :
    roundedSum s (exactValue x * d) d = x := by
  have hpos : 0 < magOf (pattern x) * d := Nat.mul_pos (Nat.pos_of_ne_zero (mt magOf_eq_zero_iff.1 hx')) hd
  have hval : exactValue x * d = signed x.msb (magOf (pattern x) * d) := (signed_mul _ _ _).symm
  have hne : signed x.msb (magOf (pattern x) * d) ≠ 0 := by
    rw [← Int.natAbs_ne_zero, natAbs_signed]
    exact Nat.ne_of_gt hpos
  rw [hval, roundedSum_of_ne_zero hne, natAbs_signed, decide_signed_neg _ hpos, rounded, roundedPattern_exact hx hd]
  exact packed_self x

section
variable {draw a b c x : Word}

/-- Where the exact sum is the value of a finite word: that word, or a zero by the rule of signs (00_scope R12, R13). -/
theorem ffma_of_exactValue (ha : IsFinite a) (hb : IsFinite b) (hc : IsFinite c) (hx : IsFinite x)
    (h : exactValue a * exactValue b + exactValue c * 2 ^ 149 = exactValue x * 2 ^ 149) :
    (¬ IsZero x → ffma draw a b c = x) ∧
      (IsZero x → ffma draw a b c = if ((a.msb ^^ b.msb) && c.msb) = true then 0x80000000 else 0) := by
  rw [ffma_of_isFinite ha hb hc, h]
  refine ⟨fun hx' => ?_, fun hx' => ?_⟩
  · simpa using roundedSum_exactValue hx hx' ((a.msb ^^ b.msb) && c.msb) (d := 2 ^ 149) (Nat.two_pow_pos _)
  · rw [exactValue_eq_zero_iff.2 hx', Int.zero_mul, roundedSum_zero]

/-- `y` is `x`, or the +0 that a sum makes of `x = -0`. -/
def SameButNegZero (y x : Word) : Prop := y = x ∨ (x = 0x80000000 ∧ y = 0)

theorem SameButNegZero.isFinite {y : Word} (h : SameButNegZero y x) (hx : IsFinite x) : IsFinite y := by
  rcases h with rfl | ⟨-, rfl⟩
  · exact hx
  · exact isFinite_zero

theorem fmul_one (ha : IsFinite a) : fmul draw a 0x3F800000 = a := by
  have hmag : magOf (pattern 0x3F800000) = 2 ^ 149 := by unfold pattern magOf; decide
  rw [fmul_of_fin (exactProduct_of_isFinite ha isFinite_one), hmag, rounded, roundedPattern_exact ha (Nat.two_pow_pos _)]
  exact (congrArg (packed · (pattern a)) (Bool.xor_false a.msb)).trans (packed_self a)

theorem isZero_fmul_zero (ha : IsFinite a) : IsZero (fmul draw a 0) := by
  have hexact := roundedPattern_exact (p := 0) (by decide) (Nat.two_pow_pos 149)
  rw [magOf_eq_zero_iff.2 rfl, Nat.zero_mul] at hexact
  rw [fmul_of_fin (exactProduct_of_isFinite ha isFinite_zero), magOf_eq_zero_iff.2 isZero_zero, Nat.mul_zero, IsZero,
    pattern_rounded, hexact]

theorem isZero_ffma_zero (ha : IsFinite a) (hc : IsZero c) : IsZero (ffma draw a 0 c) := by
  have hsum : exactValue a * exactValue 0 + exactValue c * 2 ^ 149 = exactValue 0 * 2 ^ 149 := by
    rw [exactValue_zero, exactValue_eq_zero_iff.2 hc]
    simp
  obtain ⟨-, hzero⟩ := ffma_of_exactValue (draw := draw) ha isFinite_zero hc.isFinite isFinite_zero hsum
  rw [hzero isZero_zero]
  split
  · exact isZero_iff.2 (.inr rfl)
  · exact isZero_zero

/-- Adding the product with 1 to a zero gives the multiplicand, but for the sign of a zero. -/
theorem sameButNegZero_ffma_one (ha : IsFinite a) (hc : IsZero c) : SameButNegZero (ffma draw a 0x3F800000 c) a := by
  obtain ⟨hne, hzero⟩ := ffma_of_exactValue (draw := draw) (x := a) ha isFinite_one hc.isFinite ha
    (by rw [exactValue_one, exactValue_eq_zero_iff.2 hc]; simp)
  by_cases ha' : IsZero a
  · rw [hzero ha']
    rcases isZero_iff.1 ha' with rfl | rfl
    · exact .inl rfl
    · split
      · exact .inl rfl
      · exact .inr ⟨rfl, rfl⟩
  · exact .inl (hne ha')

/-- Adding a zero product keeps what is there, but for the sign of a zero. -/
theorem SameButNegZero.ffma_zero (h : SameButNegZero c x) (ha : IsFinite a) (hx : IsFinite x) :
    SameButNegZero (ffma draw a 0 c) x := by
  have hc := h.isFinite hx
  obtain ⟨hne, hzero⟩ := ffma_of_exactValue (draw := draw) (x := c) ha isFinite_zero hc hc (by rw [exactValue_zero]; simp)
  by_cases hc' : IsZero c
  · rw [hzero hc']
    rcases h with rfl | ⟨rfl, rfl⟩
    · rcases isZero_iff.1 hc' with rfl | rfl
      · exact .inl (if_neg (by simp))
      · split
        · exact .inl rfl
        · exact .inr ⟨rfl, rfl⟩
    · exact .inr ⟨rfl, if_neg (by simp)⟩
  · rwa [hne hc']

end

/-! ### The identity (41_multiply R156) -/

section
variable (draw : Nat → Word) (op : Nat) {x y : Nat → Word} {j : Nat}

/-- A chain against a row of the identity picks the entry at its 1. -/
theorem sameButNegZero_sumOfProducts4 (hx : ∀ k < 4, IsFinite (x k)) (hj : j < 4)
    (hy : ∀ k < 4, y k = if k = j then 0x3F800000 else 0) : SameButNegZero (sumOfProducts4 draw op x y) (x j) := by
  have h0 := hx 0 (by decide)
  have h1 := hx 1 (by decide)
  have h2 := hx 2 (by decide)
  have h3 := hx 3 (by decide)
  unfold sumOfProducts4
  rw [hy 0 (by decide), hy 1 (by decide), hy 2 (by decide), hy 3 (by decide)]
  match j, hj with
  | 0, _ => exact ((SameButNegZero.ffma_zero (.inl (fmul_one h0)) h1 h0).ffma_zero h2 h0).ffma_zero h3 h0
  | 1, _ => exact ((sameButNegZero_ffma_one h1 (isZero_fmul_zero h0)).ffma_zero h2 h1).ffma_zero h3 h1
  | 2, _ => exact (sameButNegZero_ffma_one h2 (isZero_ffma_zero h1 (isZero_fmul_zero h0))).ffma_zero h3 h2
  | 3, _ => exact sameButNegZero_ffma_one h3 (isZero_ffma_zero h2 (isZero_ffma_zero h1 (isZero_fmul_zero h0)))

theorem sameButNegZero_sumOfProducts3 (hx : ∀ k < 3, IsFinite (x k)) (hj : j < 3)
    (hy : ∀ k < 3, y k = if k = j then 0x3F800000 else 0) : SameButNegZero (sumOfProducts3 draw op x y) (x j) := by
  have h0 := hx 0 (by decide)
  have h1 := hx 1 (by decide)
  have h2 := hx 2 (by decide)
  unfold sumOfProducts3
  rw [hy 0 (by decide), hy 1 (by decide), hy 2 (by decide)]
  match j, hj with
  | 0, _ => exact (SameButNegZero.ffma_zero (.inl (fmul_one h0)) h1 h0).ffma_zero h2 h0
  | 1, _ => exact (sameButNegZero_ffma_one h1 (isZero_fmul_zero h0)).ffma_zero h2 h1
  | 2, _ => exact sameButNegZero_ffma_one h2 (isZero_ffma_zero h1 (isZero_fmul_zero h0))

theorem sumOfProducts4_comm (x y : Nat → Word) : sumOfProducts4 draw op x y = sumOfProducts4 draw op y x := by
  simp only [sumOfProducts4, fmul_comm _ (x 0), ffma_comm _ (x _)]

theorem sumOfProducts3_comm (x y : Nat → Word) : sumOfProducts3 draw op x y = sumOfProducts3 draw op y x := by
  simp only [sumOfProducts3, fmul_comm _ (x 0), ffma_comm _ (x _)]

end

/-- The lanes of the 4×4 identity. -/
def identity44 : Lanes := [0x3F800000, 0, 0, 0, 0, 0x3F800000, 0, 0, 0, 0, 0x3F800000, 0, 0, 0, 0, 0x3F800000]

/-- The lanes of the 3×3 identity. -/
def identity33 : Lanes := [0x3F800000, 0, 0, 0, 0x3F800000, 0, 0, 0, 0x3F800000]

theorem elem44_identity44 : ∀ i < 4, ∀ j < 4, elem44 identity44 i j = if i = j then 0x3F800000 else 0 := by decide

theorem elem33_identity33 : ∀ i < 3, ∀ j < 3, elem33 identity33 i j = if i = j then 0x3F800000 else 0 := by decide

section
variable (draw : Nat → Word) {m : Lanes} {i j : Nat}

theorem product44_identity44 (hm : ∀ l < 16, IsFinite (lane m l)) (hi : i < 4) (hj : j < 4) :
    SameButNegZero (lane (product44 draw m identity44) (4 * i + j)) (lane m (4 * i + j)) ∧
      SameButNegZero (lane (product44 draw identity44 m) (4 * i + j)) (lane m (4 * i + j)) := by
  rw [lane_product44 _ _ _ hi hj, lane_product44 _ _ _ hi hj]
  refine ⟨sameButNegZero_sumOfProducts4 (x := elem44 m i) draw _ (fun k hk => hm _ (by omega)) hj
    fun k hk => elem44_identity44 k hk j hj, ?_⟩
  rw [sumOfProducts4_comm]
  refine sameButNegZero_sumOfProducts4 (x := fun k => elem44 m k j) draw _ (fun k hk => hm _ (by omega)) hi fun k hk => ?_
  simp only [elem44_identity44 i hi k hk, eq_comm]

theorem product33_identity33 (hm : ∀ l < 9, IsFinite (lane m l)) (hi : i < 3) (hj : j < 3) :
    SameButNegZero (lane (product33 draw m identity33) (3 * i + j)) (lane m (3 * i + j)) ∧
      SameButNegZero (lane (product33 draw identity33 m) (3 * i + j)) (lane m (3 * i + j)) := by
  rw [lane_product33 _ _ _ hi hj, lane_product33 _ _ _ hi hj]
  refine ⟨sameButNegZero_sumOfProducts3 (x := elem33 m i) draw _ (fun k hk => hm _ (by omega)) hj
    fun k hk => elem33_identity33 k hk j hj, ?_⟩
  rw [sumOfProducts3_comm]
  refine sameButNegZero_sumOfProducts3 (x := fun k => elem33 m k j) draw _ (fun k hk => hm _ (by omega)) hi fun k hk => ?_
  simp only [elem33_identity33 i hi k hk, eq_comm]

end

/-- Settles O44: each chain has one product with 1, and the products with 0 keep what it gives. -/
theorem identityLawForFiniteMatrices : Obligations.IdentityLawForFiniteMatrices := by
  refine ⟨fun draw m hm l hl y hy => ?_, fun draw m hm l hl y hy => ?_⟩
  · obtain ⟨hr, hl⟩ := product44_identity44 draw hm (show l / 4 < 4 by omega) (Nat.mod_lt l (by decide))
    rw [Nat.div_add_mod] at hr hl
    rcases hy with rfl | rfl
    · exact hr
    · exact hl
  · obtain ⟨hr, hl⟩ := product33_identity33 draw hm (show l / 3 < 3 by omega) (Nat.mod_lt l (by decide))
    rw [Nat.div_add_mod] at hr hl
    rcases hy with rfl | rfl
    · exact hr
    · exact hl

end Sys2Proof.Claims
end
